-- ==== Sys2Proof/Word.lean ====
section
/-! DEFINITION. The widths of 00_scope.md R9: a byte, a 6-bit value, a 32-bit register word. -/

namespace Sys2Proof

/-- A register word, 32 bits (R9). -/
abbrev Word := BitVec 32

/-- A data byte, or an ASCII symbol on a port (R9). -/
abbrev Byte := BitVec 8

/-- The 6-bit value a symbol stands for (R9). -/
abbrev Sextet := BitVec 6

end Sys2Proof
end

