-- ==== Sys2Proof/Syntax.lean ====
section
/-! DEFINITION. The thirteen commands of 30_encoding.md R81, one constructor for each row of spec/opcode_table.json.
A field is an operand that stands in the CMD word itself (R82): CNT of ENCGRP, IMM8 of SE_WRITE. DIR has one legal
value in each command that uses it (R84), so it is no operand. -/

namespace Sys2Proof

/-- A command of the block (R81). -/
inductive Instr where
  /-- ENCGRP with CNT = `cnt` (R102). -/
  | encgrp (cnt : BitVec 2)
  /-- DECQ (R106). -/
  | decq
  /-- BENC (R122). -/
  | benc
  /-- BDEC (R130). -/
  | bdec
  /-- OPEN_SINK (R140). -/
  | openSink
  /-- SE_WRITE with IMM8 = `imm8` (R144). -/
  | seWrite (imm8 : Byte)
  /-- SE_WRITEN (R145). -/
  | seWriten
  /-- SE_FLUSH (R146). -/
  | seFlush
  /-- SE_CLOSE (R147). -/
  | seClose
  /-- OPEN_SOURCE (R160). -/
  | openSource
  /-- SD_READ (R162). -/
  | sdRead
  /-- SD_READN (R167). -/
  | sdReadn
  /-- SD_CLOSE (R168). -/
  | sdClose
deriving DecidableEq, Repr

end Sys2Proof
end

