-- ==== Sys2Proof/WellFormed.lean ====
section
/-! DEFINITION. Which commands have an encoding: the one check R84 leaves to an operand is CNT ≠ 0 of ENCGRP. -/

namespace Sys2Proof

/-- R84(d): "CNT = 0 is a reserved field value" of ENCGRP. Every other command is well formed at every operand. -/
def Instr.wellFormed : Instr → Bool
  | .encgrp cnt => cnt != 0
  | .decq => true
  | .benc => true
  | .bdec => true
  | .openSink => true
  | .seWrite _ => true
  | .seWriten => true
  | .seFlush => true
  | .seClose => true
  | .openSource => true
  | .sdRead => true
  | .sdReadn => true
  | .sdClose => true

end Sys2Proof
end

