-- ==== Sys2Proof/Decode.lean ====
section
/-! DEFINITION. The command word of 30_encoding.md: the fields of R80, the decoder of R81 and R84 that rejects by name,
the same decoder read from the rows of spec/opcode_table.json as R85 says, and the encoder. -/

namespace Sys2Proof

/-- The fields of format F32 (R80). -/
structure Fields where
  opc : Byte
  imm8 : Byte
  cnt : BitVec 2
  dir : BitVec 1
  reserved : BitVec 13
deriving DecidableEq, Repr

/-- R80, R82: `OPC = w[7:0]`, `IMM8 = w[15:8]`, `CNT = w[17:16]`, `DIR = w[18]`, reserved `w[31:19]`. -/
def fieldsOf (w : Word) : Fields :=
  { opc := w.extractLsb' 0 8
    imm8 := w.extractLsb' 8 8
    cnt := w.extractLsb' 16 2
    dir := w.extractLsb' 18 1
    reserved := w.extractLsb' 19 13 }

/-- The word of R80's picture, most significant field first. -/
def wordOf (f : Fields) : Word := f.reserved ++ f.dir ++ f.cnt ++ f.imm8 ++ f.opc

/-- Why a CMD word is illegal, by the letters of R84. All of them raise FAULT_ILLEGAL_CMD. -/
inductive Illegal where
  /-- (a): `w[7:0]` is not one of the thirteen opcodes. -/
  | reservedOpcode
  /-- (b): `w[31:19] ≠ 0`. -/
  | reservedBits
  /-- (c): a field the opcode does not use is not 0. -/
  | unusedField
  /-- (d): ENCGRP with CNT = 0. -/
  | zeroCount
  /-- (e): OPEN_SINK with DIR = 1, or OPEN_SOURCE with DIR = 0. -/
  | wrongDirection
deriving DecidableEq, Repr

/-- The operation codes of R81. -/
inductive Opcode where
  | encgrp | decq | benc | bdec
  | openSink | seWrite | seWriten | seFlush | seClose
  | openSource | sdRead | sdReadn | sdClose
deriving DecidableEq, Repr

/-- R81: the OPC byte of each operation. -/
def Opcode.byte : Opcode → Byte
  | .encgrp => 0x01
  | .decq => 0x02
  | .benc => 0x10
  | .bdec => 0x11
  | .openSink => 0x20
  | .seWrite => 0x21
  | .seWriten => 0x22
  | .seFlush => 0x23
  | .seClose => 0x24
  | .openSource => 0x30
  | .sdRead => 0x31
  | .sdReadn => 0x32
  | .sdClose => 0x34

/-- R81 read the other way; every other value of OPC is reserved, 0x33 on purpose. -/
def opcodeOf (b : Byte) : Option Opcode :=
  if b = 0x01 then some .encgrp
  else if b = 0x02 then some .decq
  else if b = 0x10 then some .benc
  else if b = 0x11 then some .bdec
  else if b = 0x20 then some .openSink
  else if b = 0x21 then some .seWrite
  else if b = 0x22 then some .seWriten
  else if b = 0x23 then some .seFlush
  else if b = 0x24 then some .seClose
  else if b = 0x30 then some .openSource
  else if b = 0x31 then some .sdRead
  else if b = 0x32 then some .sdReadn
  else if b = 0x34 then some .sdClose
  else none

/-- R84(c): a command that uses no field of the word but OPC needs IMM8, CNT and DIR to be 0. -/
def plainCommand (f : Fields) (i : Instr) : Except Illegal Instr :=
  if f.imm8 = 0 ∧ f.cnt = 0 ∧ f.dir = 0 then .ok i else .error .unusedField

/-- R84 (c), (d) and (e) for each operation. -/
def decodeOperands (f : Fields) : Opcode → Except Illegal Instr
  | .encgrp =>
    if f.imm8 = 0 ∧ f.dir = 0 then
      if f.cnt = 0 then .error .zeroCount else .ok (.encgrp f.cnt)
    else .error .unusedField
  | .decq => plainCommand f .decq
  | .benc => plainCommand f .benc
  | .bdec => plainCommand f .bdec
  | .openSink =>
    if f.imm8 = 0 ∧ f.cnt = 0 then
      if f.dir = 0 then .ok .openSink else .error .wrongDirection
    else .error .unusedField
  | .seWrite => if f.cnt = 0 ∧ f.dir = 0 then .ok (.seWrite f.imm8) else .error .unusedField
  | .seWriten => plainCommand f .seWriten
  | .seFlush => plainCommand f .seFlush
  | .seClose => plainCommand f .seClose
  | .openSource =>
    if f.imm8 = 0 ∧ f.cnt = 0 then
      if f.dir = 1 then .ok .openSource else .error .wrongDirection
    else .error .unusedField
  | .sdRead => plainCommand f .sdRead
  | .sdReadn => plainCommand f .sdReadn
  | .sdClose => plainCommand f .sdClose

/-- The command a 32-bit word stands for, or why it is illegal (R81, R84). Which letter of R84 is named first when
several hold is the model's (notes/assumptions/18.md); all give one fault. -/
def decode (w : Word) : Except Illegal Instr :=
  match opcodeOf (fieldsOf w).opc with
  | none => .error .reservedOpcode
  | some op => if (fieldsOf w).reserved = 0 then decodeOperands (fieldsOf w) op else .error .reservedBits

/-- The fields of a command's word (R81, R83, R86). -/
def Instr.fields : Instr → Fields
  | .encgrp cnt => { opc := Opcode.encgrp.byte, imm8 := 0, cnt := cnt, dir := 0, reserved := 0 }
  | .decq => { opc := Opcode.decq.byte, imm8 := 0, cnt := 0, dir := 0, reserved := 0 }
  | .benc => { opc := Opcode.benc.byte, imm8 := 0, cnt := 0, dir := 0, reserved := 0 }
  | .bdec => { opc := Opcode.bdec.byte, imm8 := 0, cnt := 0, dir := 0, reserved := 0 }
  | .openSink => { opc := Opcode.openSink.byte, imm8 := 0, cnt := 0, dir := 0, reserved := 0 }
  | .seWrite b => { opc := Opcode.seWrite.byte, imm8 := b, cnt := 0, dir := 0, reserved := 0 }
  | .seWriten => { opc := Opcode.seWriten.byte, imm8 := 0, cnt := 0, dir := 0, reserved := 0 }
  | .seFlush => { opc := Opcode.seFlush.byte, imm8 := 0, cnt := 0, dir := 0, reserved := 0 }
  | .seClose => { opc := Opcode.seClose.byte, imm8 := 0, cnt := 0, dir := 0, reserved := 0 }
  | .openSource => { opc := Opcode.openSource.byte, imm8 := 0, cnt := 0, dir := 1, reserved := 0 }
  | .sdRead => { opc := Opcode.sdRead.byte, imm8 := 0, cnt := 0, dir := 0, reserved := 0 }
  | .sdReadn => { opc := Opcode.sdReadn.byte, imm8 := 0, cnt := 0, dir := 0, reserved := 0 }
  | .sdClose => { opc := Opcode.sdClose.byte, imm8 := 0, cnt := 0, dir := 0, reserved := 0 }

/-- The CMD word of a command (R80, R86). -/
def encode (i : Instr) : Word := wordOf i.fields

/-- A row of spec/opcode_table.json: which words it takes, and the operand it reads from them. -/
structure Row where
  mnemonic : String
  pattern : Word
  mask : Word
  read : Word → Instr

/-- spec/opcode_table.json, row for row. -/
def opcodeTable : List Row :=
  [ { mnemonic := "ENCGRP", pattern := 0x00000001, mask := 0xFFFCFFFF, read := fun w => .encgrp (w.extractLsb' 16 2) }
  , { mnemonic := "DECQ", pattern := 0x00000002, mask := 0xFFFFFFFF, read := fun _ => .decq }
  , { mnemonic := "BENC", pattern := 0x00000010, mask := 0xFFFFFFFF, read := fun _ => .benc }
  , { mnemonic := "BDEC", pattern := 0x00000011, mask := 0xFFFFFFFF, read := fun _ => .bdec }
  , { mnemonic := "OPEN_SINK", pattern := 0x00000020, mask := 0xFFFFFFFF, read := fun _ => .openSink }
  , { mnemonic := "SE_WRITE", pattern := 0x00000021, mask := 0xFFFF00FF, read := fun w => .seWrite (w.extractLsb' 8 8) }
  , { mnemonic := "SE_WRITEN", pattern := 0x00000022, mask := 0xFFFFFFFF, read := fun _ => .seWriten } ] ++
  [ { mnemonic := "SE_FLUSH", pattern := 0x00000023, mask := 0xFFFFFFFF, read := fun _ => .seFlush }
  , { mnemonic := "SE_CLOSE", pattern := 0x00000024, mask := 0xFFFFFFFF, read := fun _ => .seClose }
  , { mnemonic := "OPEN_SOURCE", pattern := 0x00040030, mask := 0xFFFFFFFF, read := fun _ => .openSource }
  , { mnemonic := "SD_READ", pattern := 0x00000031, mask := 0xFFFFFFFF, read := fun _ => .sdRead }
  , { mnemonic := "SD_READN", pattern := 0x00000032, mask := 0xFFFFFFFF, read := fun _ => .sdReadn }
  , { mnemonic := "SD_CLOSE", pattern := 0x00000034, mask := 0xFFFFFFFF, read := fun _ => .sdClose } ]

/-- Whether a row takes a word: R85's test `(w & mask) == match`. -/
def Row.takes (r : Row) (w : Word) : Bool := w &&& r.mask == r.pattern

/-- R85: the decoder built from the table alone, with ENCGRP's nonzero CNT the one test beside the rows. -/
def decodeByTable (w : Word) : Option Instr :=
  match opcodeTable.find? (fun r => r.takes w) with
  | none => none
  | some r => if (r.read w).wellFormed then some (r.read w) else none

/-- The instruction the decoder reads from an instruction of `nbits` bits whose value is `w`, numbered as
spec/opcode_table.json numbers them (one 32-bit word; R80: "The length of a command is always one word"). -/
def decodeTableWord (nbits w : Nat) : Option Instr :=
  match decode (BitVec.ofNat 32 (w % 2 ^ nbits)) with
  | .ok i => some i
  | .error _ => none

end Sys2Proof
end

