-- ==== Sys2Proof/Config.lean ====
section
/-! DEFINITION. The parameters of 00_scope.md R10 and the free values of the model (values the spec says are
unspecified and constrains by nothing). -/

namespace Sys2Proof

/-- `BULK_TAIL_POLICY` (R10, R128): what the bulk decoder does with 1–3 symbols left at the end of its input. -/
inductive TailPolicy where
  | drop
  | error
deriving DecidableEq, Repr

/-- The open parameters of R10. "The model takes each of these as an argument; no source fixes them":
`State.params` carries them, and no step changes them. -/
structure Params where
  /-- `HB_SIZE`, the size of the host buffer in bytes. -/
  hbSize : Nat
  /-- `UPSTREAM_CODE_W`, the width of the code of a failing sink or source. -/
  upstreamCodeW : Nat
  /-- `BULK_TAIL_POLICY`. -/
  bulkTailPolicy : TailPolicy
deriving DecidableEq, Repr

/-- The ranges R10 gives the parameters: `0 ≤ HB_SIZE ≤ 2^32` and `1 ≤ UPSTREAM_CODE_W ≤ 32`. -/
def Params.inRange (p : Params) : Bool :=
  decide (p.hbSize ≤ 2 ^ 32) && decide (1 ≤ p.upstreamCodeW) && decide (p.upstreamCodeW ≤ 32)

/-- DESIGN CHOICE (notes/assumptions/3.md): the parameters `State.reset` carries. R10 fixes none of them. -/
def Params.chosen : Params :=
  { hbSize := 65536, upstreamCodeW := 32, bulkTailPolicy := .error }

/-- Free value (R46, U15): what a host-buffer byte holds before anything has written it, by offset. -/
opaque Config.hbUnwritten : Nat → Byte

/-- Free value (R223, U17): what the k-th read of a unit register during BUSY returns, "a draw, with no law". -/
opaque Config.busyRead : Nat → Word

end Sys2Proof
end

