-- ==== Sys2Proof/Machine/State.lean ====
section
/-! DEFINITION. The machine's state as plain data (10_state.md R20–R46), the reasons a step can stop, and reset. -/

namespace Sys2Proof.Machine

/-- A significant symbol as the decoders hold it (10_state.md R40): a class value `Val(v)` or `PAD`. -/
inductive Sym where
  | val (v : Sextet)
  | pad
deriving DecidableEq, Repr

/-- A class value (00_scope.md R15): `Val(v)` or `PAD` (a significant symbol, R17), `WS`, `INV`. -/
inductive Cls where
  | sym (c : Sym)
  | ws
  | inv
deriving DecidableEq, Repr

/-- Three bytes: `se_buf[0..2]` (R38) and `sd_out[0..2]` (R40). -/
structure Bytes3 where
  b0 : Byte
  b1 : Byte
  b2 : Byte
deriving DecidableEq, Repr

/-- Four symbols: `sd_acc[0..3]` (R40). -/
structure Syms4 where
  c0 : Sym
  c1 : Sym
  c2 : Sym
  c3 : Sym
deriving DecidableEq, Repr

/-- The values STATUS.CODE can hold (60_exceptions.md R200: "No other value is ever written"). -/
inductive StatusCode where
  | ok
  | eos
  | errMalformed
  | errImproperPadding
  | errUpstream
  | faultIllegalCmd
  | faultNotOpen
  | faultClosed
  | faultUnitFailed
  | faultUnitBusy
  | faultRange
  | faultCmdBusy
deriving DecidableEq, Repr

/-- `se_state` (R38). -/
inductive SeState where
  | idle
  | opened
  | closed
  | failed
deriving DecidableEq, Repr

/-- The Stream Encoder unit (R38). -/
structure SeUnit where
  state : SeState
  buf : Bytes3
  count : BitVec 2
  line : BitVec 7
deriving DecidableEq, Repr

/-- `sd_phase` (R40). -/
inductive SdPhase where
  | idle
  | empty
  | ready
  | exhausted
  | closed
  | failed
deriving DecidableEq, Repr

/-- The Stream Decoder unit (R40). -/
structure SdUnit where
  phase : SdPhase
  acc : Syms4
  count : BitVec 3
  out : Bytes3
  nsig : BitVec 2
  pos : BitVec 2
  padded : Bool
  srcidx : Word
deriving DecidableEq, Repr

/-- The argument registers, and the operands latched from them (R29). -/
structure Args where
  a0 : Word
  a1 : Word
  a2 : Word
  a3 : Word
deriving DecidableEq, Repr

/-- A request on the sink port (20_memory.md R66). -/
inductive SinkReq where
  | write (b : Byte)
  | flush
  | close
deriving DecidableEq, Repr

/-- A request on the source port (R67). -/
inductive SourceReq where
  | read
  | close
deriving DecidableEq, Repr

/-- The answer to a sink request or to `SrcClose()` (R66, R67). A code is a word of which the port carries the low
`UPSTREAM_CODE_W` bits. -/
inductive Ack where
  | ack
  | fail (e : Word)
deriving DecidableEq, Repr

/-- The answer to `SrcRead()` (R67): `Byte(b)`, `End` or `Fail(e)`. -/
inductive ReadAnswer where
  | byte (b : Byte)
  | endOfInput
  | fail (e : Word)
deriving DecidableEq, Repr

/-- One port request with its answer, as the run observes it (R66, 70_reset_and_hazards.md R228); no answer where a
reset abandoned the request (R220). -/
inductive Exchange where
  | sink (q : SinkReq) (a : Option Ack)
  | sourceRead (a : Option ReadAnswer)
  | sourceClose (a : Option Ack)
deriving DecidableEq, Repr

/-- What an SE write command still does once the group it is sending is out: SE_WRITE completes (R144); SE_WRITEN
goes on with the bytes after the one it is at, `done` bytes being fully consumed before that one (R145). -/
inductive SeMore where
  | one
  | many (done : Nat) (rest : List Byte)
deriving DecidableEq, Repr

/-- The sink request a running SE command waits on, and what comes after it. -/
inductive SeWait where
  /-- `SinkWrite(b)` of a full group (R142), with the group's symbols after it. -/
  | group (b : Byte) (rest : List Byte) (more : SeMore)
  /-- `SinkWrite(LF)` (R142). -/
  | lineFeed (more : SeMore)
  /-- `SinkWrite(b)` of the padded group of a flush (R146), with the symbols after it; `closing` in SE_CLOSE. -/
  | pad (b : Byte) (rest : List Byte) (closing : Bool)
  /-- `SinkFlush()` (R146). -/
  | flush (closing : Bool)
  /-- `SinkClose()` (R147). -/
  | close
deriving DecidableEq, Repr

/-- The source request a running SD command waits on. -/
inductive SdWait where
  /-- `SrcRead()` inside SD_READ (R162, R164). -/
  | read
  /-- `SrcRead()` inside SD_READN with `k` bytes obtained (R167). -/
  | readN (k : Nat)
  /-- `SrcClose()` inside SD_CLOSE (R168). -/
  | close
deriving DecidableEq, Repr

/-- A running command that has all it needs to go on and takes its time (70_reset_and_hazards.md R230: "a finite,
unspecified time"): BUSY = 1 with no request pending. -/
inductive Ready where
  /-- The command is issued and has not begun (R202). -/
  | command (i : Instr)
  /-- An illegal word is written to CMD, and its fault has not come yet (R84). -/
  | illegal
  /-- The sink has answered `a` to the request `w`. -/
  | sink (w : SeWait) (a : Ack)
  /-- The source has answered `a` inside SD_READ. -/
  | read (a : ReadAnswer)
  /-- The source has answered `a` inside SD_READN with `k` bytes obtained. -/
  | readN (k : Nat) (a : ReadAnswer)
  /-- SD_READN has stored `k` bytes, and stands before the next (R167). -/
  | storing (k : Nat)
  /-- The source has answered `a` to the close inside SD_CLOSE. -/
  | close (a : Ack)
deriving DecidableEq, Repr

/-- A running command between two steps: it waits on a port, with its pending, unanswered request and how far it has
come (R44(d), (e)), or it is ready to go on. -/
inductive Waiting where
  | se (w : SeWait)
  | sd (w : SdWait)
  | ready (r : Ready)
deriving DecidableEq, Repr

/-- What can reach the block while it takes its time over it (R230): a CMD write, or an answer to its request. -/
inductive Arrival where
  | cmdWrite (w : Word)
  | sinkAnswer (a : Ack)
  | readAnswer (a : ReadAnswer)
  | closeAnswer (a : Ack)
deriving DecidableEq, Repr

/-- What the outside can do to the block (70_reset_and_hazards.md R227). A register is named by its index in the
window, offset divided by 4 (10_state.md R27; only aligned 32-bit accesses exist, R62). -/
inductive Input where
  /-- The platform asserts and releases reset (R220, notes/assumptions/26.md). -/
  | reset
  /-- The host writes `v` to the register at index `r`. Index 0 is CMD: this issues a command. -/
  | regWrite (r : BitVec 6) (v : Word)
  /-- The host reads the register at index `r`. -/
  | regRead (r : BitVec 6)
  /-- The host writes a byte of the host buffer. -/
  | hbWrite (a : Word) (b : Byte)
  /-- The host reads a byte of the host buffer. -/
  | hbRead (a : Word)
  /-- The sink answers its pending request (R66). -/
  | sinkAnswer (a : Ack)
  /-- The source answers its pending `SrcRead()` (R67). -/
  | readAnswer (a : ReadAnswer)
  /-- The source answers its pending `SrcClose()` (R67). -/
  | closeAnswer (a : Ack)
  /-- A port answers a request that a reset abandoned (R220, U25). -/
  | lateAnswer
  /-- `m` comes, and the block does not act on it yet: the command is left ready to go on (R230). -/
  | slowly (m : Arrival)
  /-- The block's time over its ready command ends: the command goes on to its next request or to its end (R230). -/
  | proceed
  /-- The ready SD_READN goes on to its next request or its end, or is ready again once it has stored `n` bytes (R167,
  R230). -/
  | proceedStores (n : Nat)
deriving DecidableEq, Repr

/-- The host buffer (20_memory.md R60): the bytes that something has written, at strictly rising offsets. A byte that
nothing has written is not listed and has no value of the model's (notes/assumptions/4.md). -/
abbrev Memory := List Host.Cell

/-- The state of the machine. -/
structure State where
  /-- The open parameters (00_scope.md R10). -/
  params : Params
  /-- ARG0–ARG3 (10_state.md R29). -/
  arg : Args
  /-- `A0`–`A3`, the latched operands (R29). -/
  latched : Args
  /-- STATUS.BUSY (R30). -/
  busy : Bool
  /-- STATUS.FAULTED (R30). -/
  faulted : Bool
  /-- STATUS.CODE (R30). -/
  code : StatusCode
  /-- RES0 (R31). -/
  res0 : Word
  /-- RES1 (R31). -/
  res1 : Word
  /-- The Stream Encoder unit (R38). -/
  se : SeUnit
  /-- The Stream Decoder unit (R40). -/
  sd : SdUnit
  /-- The host buffer (R60). -/
  hb : Memory
  /-- The running command, where it waits on a port (R44) or takes its time (R230). -/
  running : Option Waiting
  /-- The port requests so far with their answers, oldest first (R228). -/
  log : List Exchange
  /-- What the outside does from here on, in order (R227). -/
  inputs : List Input
  /-- What the host's last read returned (R227). -/
  readData : Word
  /-- How many free values reads during BUSY have taken (R223). -/
  draws : Nat
deriving DecidableEq, Repr

/-- Where the MODEL stops with a fault. No command raises one: the block's own faults are next states (R205). -/
inductive Fault where
  /-- The host reads or writes a host-buffer offset that does not exist (R60: offsets are 0 to `HB_SIZE-1`). Raised by
  the step on `Input.hbWrite` and `Input.hbRead`. Safe: the model stops where the spec says nothing. -/
  | hbOffsetAbsent
deriving DecidableEq, Repr

/-- Where the MODEL has no meaning. No command raises one but an arm not yet modelled, of which there is none. -/
inductive Refusal where
  /-- A command without a meaning yet. Safe. -/
  | notModelled (mnemonic : String)
  /-- The host touches an HB range of the running command while BUSY = 1 (R74, U16: "the model claims nothing").
  Raised by the step on `Input.hbWrite` and `Input.hbRead`. Safe. -/
  | hbRangeInUse
deriving DecidableEq, Repr

/-- The Stream Encoder unit after reset (R46). -/
def SeUnit.afterReset : SeUnit :=
  { state := .idle, buf := ⟨0, 0, 0⟩, count := 0, line := 0 }

/-- The Stream Decoder unit after reset (R46). -/
def SdUnit.afterReset : SdUnit :=
  { phase := .idle, acc := ⟨.val 0, .val 0, .val 0, .val 0⟩, count := 0, out := ⟨0, 0, 0⟩, nsig := 0, pos := 0,
    padded := false, srcidx := 0 }

/-- The machine right after power-on reset (R46, R220). `params` is a DESIGN CHOICE (notes/assumptions/3.md);
`latched`, `readData`, `draws` and the empty `log` are DESIGN CHOICES (notes/assumptions/13.md, 6.md, 5.md, 14.md). -/
def State.reset : State :=
  { params := Params.chosen
    arg := ⟨0, 0, 0, 0⟩
    latched := ⟨0, 0, 0, 0⟩
    busy := false
    faulted := false
    code := .ok
    res0 := 0
    res1 := 0
    se := SeUnit.afterReset
    sd := SdUnit.afterReset
    hb := []
    running := none
    log := []
    inputs := []
    readData := 0
    draws := 0 }

end Sys2Proof.Machine
end

