-- ==== Sys2Proof/Machine/Ops.lean ====
section
/-! DEFINITION. The named operations every command is written over: the host buffer (20_memory.md R60, R61), ending a
command by completion, error or fault (60_exceptions.md R202–R205), a port request (R14), and reset
(70_reset_and_hazards.md R220), the one way back from a fault. -/

namespace Sys2Proof.Machine

/-- What is written at offset `a`, if anything is. -/
def Memory.lookup : Memory → Nat → Option Byte
  | [], _ => none
  | (x, y) :: m, a => if x = a then some y else Memory.lookup m a

/-- The byte at offset `a`: what was written there, else the free value of an unwritten byte (R46, U15). -/
def Memory.read (m : Memory) (a : Nat) : Byte :=
  match Memory.lookup m a with
  | some b => b
  | none => Config.hbUnwritten a

/-- Write byte `b` at offset `a`, keeping offsets strictly rising. -/
def Memory.write : Memory → Nat → Byte → Memory
  | [], a, b => [(a, b)]
  | (x, y) :: m, a, b =>
    if a < x then (a, b) :: (x, y) :: m
    else if a = x then (a, b) :: m
    else (x, y) :: Memory.write m a b

/-- The one form of a memory: offsets strictly rising. (An unlisted byte has no value of the model's, so no entry can
repeat it.) -/
def Memory.wf : Memory → Bool
  | [] => true
  | [_] => true
  | (x, _) :: (x', y') :: m => decide (x < x') && Memory.wf ((x', y') :: m)

/-- Every written offset is below `size`. -/
def Memory.below (size : Nat) : Memory → Bool
  | [] => true
  | (x, _) :: m => decide (x < size) && Memory.below size m

/-- `MemRead(a, n)` (R60): `n` bytes in offset order. -/
def Memory.readRange (m : Memory) (a : Nat) : Nat → List Byte
  | 0 => []
  | n + 1 => Memory.read m a :: Memory.readRange m (a + 1) n

/-- `MemWrite(a, n, s)` (R60): `s[k]` at `a + k`. -/
def Memory.writeRange (m : Memory) (a : Nat) : List Byte → Memory
  | [] => m
  | b :: bs => Memory.writeRange (Memory.write m a b) (a + 1) bs

/-- R61: the range `(a, n)` is admitted when `a + n ≤ HB_SIZE`, in unbounded integers. -/
def admitted (p : Params) (a n : Word) : Bool := decide (a.toNat + n.toNat ≤ p.hbSize)

/-- `complete(code, x, y)` (R202): unless a FAULT_CMD_BUSY came in between, the code and the result words are written;
the command has ended. -/
def complete (c : StatusCode) (x y : Word) (s : State) : State :=
  if s.faulted then { s with busy := false, running := none }
  else { s with code := c, res0 := x, res1 := y, busy := false, running := none }

/-- `raise E(x, y)` in a Stream Encoder command (R203): the unit goes to Failed, and the command completes. -/
def raiseSe (c : StatusCode) (x y : Word) (s : State) : State :=
  complete c x y { s with se := { s.se with state := .failed } }

/-- `raise E(x, y)` in a Stream Decoder command (R203). -/
def raiseSd (c : StatusCode) (x y : Word) (s : State) : State :=
  complete c x y { s with sd := { s.sd with phase := .failed } }

/-- `fault F` (R205): FAULTED and CODE are set, the command ends, nothing else changes. Where a FAULT_CMD_BUSY came
before it in the same command, CODE keeps that first fault's code (R205, notes/assumptions/24.md). -/
def takeFault (c : StatusCode) (s : State) : State :=
  { s with faulted := true, code := if s.faulted then s.code else c, busy := false, running := none }

/-- FAULT_CMD_BUSY (R205): raised by the CMD write and not by the running command, which goes on. -/
def takeCmdBusy (s : State) : State :=
  { s with faulted := true, code := .faultCmdBusy }

/-- The block issues a port request and waits for its answer (R66, R67). -/
def ask (w : Waiting) (s : State) : State := { s with running := some w }

/-- The running command has what it needs, and takes its time (R230). -/
def hold (r : Ready) (s : State) : State := { s with running := some (.ready r) }

/-- A request is answered: the run observes the exchange (R66, 70_reset_and_hazards.md R228). -/
def observe (e : Exchange) (s : State) : State := { s with log := s.log ++ [e] }

/-- `zext_32(e)` of a port's code of `UPSTREAM_CODE_W` bits (R66, R200). -/
def portCode (p : Params) (e : Word) : Word := (e.setWidth p.upstreamCodeW).setWidth 32

/-- The sink request an SE command waits on. -/
def SeWait.request : SeWait → SinkReq
  | .group b _ _ => .write b
  | .lineFeed _ => .write 0x0A
  | .pad b _ _ => .write b
  | .flush _ => .flush
  | .close => .close

/-- The source request an SD command waits on. -/
def SdWait.request : SdWait → SourceReq
  | .read => .read
  | .readN _ => .read
  | .close => .close

/-- The request that a reset leaves unanswered, as the run observes it; a command that is ready to go on has none. -/
def Waiting.abandoned : Waiting → List Exchange
  | .se w => [.sink w.request none]
  | .sd w =>
    match w.request with
    | .read => [.sourceRead none]
    | .close => [.sourceClose none]
  | .ready _ => []

/-- The port log after a reset: a pending request is left unanswered (R220). -/
def logAfterReset (s : State) : List Exchange :=
  match s.running with
  | some w => s.log ++ w.abandoned
  | none => s.log

/-- Reset at any time (R220): every register and unit field takes its value of R46, a running command is abandoned, the
host buffer, the parameters and the world outside stay. The one event that clears FAULTED. Assertion and release of reset
are one input, so no access comes while it is held (notes/assumptions/26.md). -/
def resetBlock (s : State) : State :=
  { State.reset with
    params := s.params
    hb := s.hb
    log := logAfterReset s
    inputs := s.inputs
    readData := s.readData
    draws := s.draws }

/-- The four argument registers are latched into the command's operands, and BUSY is set (R202). -/
def latch (s : State) : State := { s with latched := s.arg, busy := true }

end Sys2Proof.Machine
end

