-- ==== Sys2Proof/Machine/Operands.lean ====
section
/-! DEFINITION. The operands of a command from the latched A0–A3 (30_encoding.md R82, R83) and the packing of bytes into
words (20_memory.md R64). -/

namespace Sys2Proof.Machine

/-- `Ak.byte[0] = Ak[7:0]` (R82). -/
def byte0 (w : Word) : Byte := w.extractLsb' 0 8
/-- `Ak.byte[1] = Ak[15:8]` (R82). -/
def byte1 (w : Word) : Byte := w.extractLsb' 8 8
/-- `Ak.byte[2] = Ak[23:16]` (R82). -/
def byte2 (w : Word) : Byte := w.extractLsb' 16 8
/-- `Ak.byte[3] = Ak[31:24]` (R82). -/
def byte3 (w : Word) : Byte := w.extractLsb' 24 8

/-- R64: bytes packed into a word, the earliest in bits 7:0; bytes not given are 0. -/
def packBytes : List Byte → Word
  | [] => 0
  | b :: bs => (packBytes bs <<< 8) ||| b.setWidth 32

/-- The bytes of a three-byte field as a word, `zext_32(b2 || b1 || b0)` (10_state.md R33, R35). -/
def Bytes3.word (t : Bytes3) : Word := packBytes [t.b0, t.b1, t.b2]

/-- The first `n` bytes, zero-filled to three (44_stream_decoder.md R164). -/
def Bytes3.ofList : List Byte → Bytes3
  | [] => ⟨0, 0, 0⟩
  | [x] => ⟨x, 0, 0⟩
  | [x, y] => ⟨x, y, 0⟩
  | x :: y :: z :: _ => ⟨x, y, z⟩

/-- Byte `i` of a three-byte field. Index 3 does not exist; no state a run reaches asks for it
(notes/assumptions/21.md). -/
def Bytes3.get (t : Bytes3) (i : BitVec 2) : Byte :=
  if i = 0 then t.b0 else if i = 1 then t.b1 else t.b2

/-- The three-byte field with byte `i` replaced; index 3 does not exist, and nothing is replaced there
(notes/assumptions/21.md). -/
def Bytes3.set (t : Bytes3) (i : BitVec 2) (b : Byte) : Bytes3 :=
  if i = 0 then { t with b0 := b }
  else if i = 1 then { t with b1 := b }
  else if i = 2 then { t with b2 := b }
  else t

/-- The accumulator with symbol `i` replaced (R40); indices past 3 do not exist (notes/assumptions/21.md). -/
def Syms4.set (t : Syms4) (i : BitVec 3) (c : Sym) : Syms4 :=
  if i = 0 then { t with c0 := c }
  else if i = 1 then { t with c1 := c }
  else if i = 2 then { t with c2 := c }
  else if i = 3 then { t with c3 := c }
  else t

/-- The data range that an SE write command still in its loop names: SE_WRITEN's, and none for SE_WRITE. -/
def SeWait.range (g : Args) : SeWait → List (Word × Word)
  | .group _ _ (.many _ _) => [(g.a0, g.a1)]
  | .lineFeed (.many _ _) => [(g.a0, g.a1)]
  | .group _ _ .one => []
  | .lineFeed .one => []
  | .pad _ _ _ => []
  | .flush _ => []
  | .close => []

/-- The HB ranges a command's operands name (20_memory.md R74), as offset and length. -/
def rangesOf (g : Args) : Instr → List (Word × Word)
  | .benc => [(g.a0, g.a1), (g.a2, g.a3)]
  | .bdec => [(g.a0, g.a1), (g.a2, g.a3)]
  | .seWriten => [(g.a0, g.a1)]
  | .sdReadn => [(g.a0, g.a1)]
  | .encgrp _ | .decq | .openSink | .seWrite _ | .seFlush | .seClose | .openSource | .sdRead | .sdClose => []

/-- The same for a command that is ready to go on. -/
def Ready.ranges (g : Args) : Ready → List (Word × Word)
  | .command i => rangesOf g i
  | .sink w _ => w.range g
  | .readN _ _ => [(g.a0, g.a1)]
  | .storing _ => [(g.a0, g.a1)]
  | .illegal => []
  | .read _ => []
  | .close _ => []

/-- The HB ranges the running command's operands name (R74). -/
def rangesInUse (s : State) : List (Word × Word) :=
  match s.running with
  | none => []
  | some (.se w) => w.range s.latched
  | some (.sd (.readN _)) => [(s.latched.a0, s.latched.a1)]
  | some (.sd .read) => []
  | some (.sd .close) => []
  | some (.ready r) => r.ranges s.latched

/-- Offset `a` lies in a range the running command's operands name. -/
def inUse (s : State) (a : Nat) : Bool :=
  (rangesInUse s).any fun r => decide (r.1.toNat ≤ a) && decide (a < r.1.toNat + r.2.toNat)

end Sys2Proof.Machine
end

