-- ==== Sys2Proof/Machine/Flags.lean ====
section
/-! DEFINITION. The status codes' values (60_exceptions.md R200) and the words the read-only registers show
(10_state.md R30–R37). -/

namespace Sys2Proof.Machine

/-- R200: the value of each code. -/
def StatusCode.byte : StatusCode → Byte
  | .ok => 0x00
  | .eos => 0x01
  | .errMalformed => 0x10
  | .errImproperPadding => 0x12
  | .errUpstream => 0x13
  | .faultIllegalCmd => 0x80
  | .faultNotOpen => 0x81
  | .faultClosed => 0x82
  | .faultUnitFailed => 0x83
  | .faultUnitBusy => 0x84
  | .faultRange => 0x85
  | .faultCmdBusy => 0x86

/-- R200's class column: which codes are faults. -/
def StatusCode.isFault : StatusCode → Bool
  | .ok => false
  | .eos => false
  | .errMalformed => false
  | .errImproperPadding => false
  | .errUpstream => false
  | .faultIllegalCmd => true
  | .faultNotOpen => true
  | .faultClosed => true
  | .faultUnitFailed => true
  | .faultUnitBusy => true
  | .faultRange => true
  | .faultCmdBusy => true

/-- STATUS (R30): BUSY [0], FAULTED [1], CODE [15:8]. -/
def statusWord (s : State) : Word :=
  (0 : BitVec 16) ++ s.code.byte ++ (0 : BitVec 6) ++ BitVec.ofBool s.faulted ++ BitVec.ofBool s.busy

/-- SE_STAT.STATE (R32). -/
def SeState.bits : SeState → BitVec 2
  | .idle => 0
  | .opened => 1
  | .closed => 2
  | .failed => 3

/-- SE_STAT (R32): STATE [1:0], COUNT [5:4], LINE [14:8]. -/
def seStatWord (u : SeUnit) : Word :=
  (0 : BitVec 17) ++ u.line ++ (0 : BitVec 2) ++ u.count ++ (0 : BitVec 2) ++ u.state.bits

/-- SD_STAT.STATE (R34). -/
def SdPhase.bits : SdPhase → BitVec 3
  | .idle => 0
  | .empty => 1
  | .ready => 2
  | .exhausted => 3
  | .closed => 4
  | .failed => 5

/-- SD_STAT (R34): STATE [2:0], COUNT [6:4], POS [9:8], NSIG [13:12], PADDED [16]. -/
def sdStatWord (u : SdUnit) : Word :=
  (0 : BitVec 15) ++ BitVec.ofBool u.padded ++ (0 : BitVec 2) ++ u.nsig ++ (0 : BitVec 2) ++ u.pos ++
    (0 : BitVec 1) ++ u.count ++ (0 : BitVec 1) ++ u.phase.bits

/-- The registers of R27's map. -/
inductive Reg where
  | cmd | arg0 | arg1 | arg2 | arg3
  | status | res0 | res1
  | seStat | seBuf | sdStat | sdOut | sdSrcidx
deriving DecidableEq, Repr

/-- R27: the register at an index of the window (its byte offset divided by 4); none where the offset is reserved
(0x34–0xFC, R37). -/
def regAt (r : BitVec 6) : Option Reg :=
  if r = 0 then some .cmd
  else if r = 1 then some .arg0
  else if r = 2 then some .arg1
  else if r = 3 then some .arg2
  else if r = 4 then some .arg3
  else if r = 5 then some .status
  else if r = 6 then some .res0
  else if r = 7 then some .res1
  else if r = 8 then some .seStat
  else if r = 9 then some .seBuf
  else if r = 10 then some .sdStat
  else if r = 11 then some .sdOut
  else if r = 12 then some .sdSrcidx
  else none

/-- The registers R223 names: read while BUSY = 1 they return an unspecified value. -/
def Reg.showsUnit : Reg → Bool
  | .cmd | .arg0 | .arg1 | .arg2 | .arg3 | .status | .res0 | .res1 => false
  | .seStat | .seBuf | .sdStat | .sdOut | .sdSrcidx => true

/-- What a register shows (R28–R36); CMD reads 0. -/
def Reg.value (s : State) : Reg → Word
  | .cmd => 0
  | .arg0 => s.arg.a0
  | .arg1 => s.arg.a1
  | .arg2 => s.arg.a2
  | .arg3 => s.arg.a3
  | .status => statusWord s
  | .res0 => s.res0
  | .res1 => s.res1
  | .seStat => seStatWord s.se
  | .seBuf => s.se.buf.word
  | .sdStat => sdStatWord s.sd
  | .sdOut => s.sd.out.word
  | .sdSrcidx => s.sd.srcidx

end Sys2Proof.Machine
end

