-- ==== Sys2Proof/Machine/Tables.lean ====
section
/-! DEFINITION. The Alphabet Tables, constant ROM (10_state.md R20–R24), and the characters the codec itself sends. -/

namespace Sys2Proof.Machine

/-- `LF`, the line-feed byte (00_scope.md R12). -/
def lineFeed : Byte := 0x0A

/-- `=`, the padding character (R22). -/
def padChar : Byte := 0x3D

/-- `MAX_LINE_LENGTH` (00_scope.md R8), in symbols. -/
def maxLineLength : Nat := 76

/-- The Symbol Table, 64 entries (R21): `A`–`Z`, `a`–`z`, `0`–`9`, `+`, `/`. -/
def symTable : List Byte :=
  [0x41, 0x42, 0x43, 0x44, 0x45, 0x46, 0x47, 0x48, 0x49, 0x4A, 0x4B, 0x4C, 0x4D] ++
  [0x4E, 0x4F, 0x50, 0x51, 0x52, 0x53, 0x54, 0x55, 0x56, 0x57, 0x58, 0x59, 0x5A] ++
  [0x61, 0x62, 0x63, 0x64, 0x65, 0x66, 0x67, 0x68, 0x69, 0x6A, 0x6B, 0x6C, 0x6D] ++
  [0x6E, 0x6F, 0x70, 0x71, 0x72, 0x73, 0x74, 0x75, 0x76, 0x77, 0x78, 0x79, 0x7A] ++
  [0x30, 0x31, 0x32, 0x33, 0x34, 0x35, 0x36, 0x37, 0x38, 0x39, 0x2B, 0x2F]

/-- `SYM[v]` (R21). The table has an entry for every 6-bit value. -/
def symOf (v : Sextet) : Byte := symTable.getD v.toNat 0

/-- The entry `Val(n)` of the Inverse Table, which its figure writes as the number. -/
def six (n : Nat) : Cls := .sym (.val (BitVec.ofNat 6 n))

/-- The Inverse Table, 128 entries (R23), in the rows of its figure. -/
def invTable : List Cls :=
  [.inv, .inv, .inv, .inv, .inv, .inv, .inv, .inv] ++          -- 0x00
  [.inv, .ws, .ws, .inv, .inv, .ws, .inv, .inv] ++             -- 0x08
  [.inv, .inv, .inv, .inv, .inv, .inv, .inv, .inv] ++          -- 0x10
  [.inv, .inv, .inv, .inv, .inv, .inv, .inv, .inv] ++          -- 0x18
  [.ws, .inv, .inv, .inv, .inv, .inv, .inv, .inv] ++           -- 0x20
  [.inv, .inv, .inv, six 62, .inv, .inv, .inv, six 63] ++          -- 0x28
  [six 52, six 53, six 54, six 55, six 56, six 57, six 58, six 59] ++          -- 0x30
  [six 60, six 61, .inv, .inv, .inv, .sym .pad, .inv, .inv] ++     -- 0x38
  [.inv, six 0, six 1, six 2, six 3, six 4, six 5, six 6] ++                 -- 0x40
  [six 7, six 8, six 9, six 10, six 11, six 12, six 13, six 14] ++             -- 0x48
  [six 15, six 16, six 17, six 18, six 19, six 20, six 21, six 22] ++          -- 0x50
  [six 23, six 24, six 25, .inv, .inv, .inv, .inv, .inv] ++          -- 0x58
  [.inv, six 26, six 27, six 28, six 29, six 30, six 31, six 32] ++          -- 0x60
  [six 33, six 34, six 35, six 36, six 37, six 38, six 39, six 40] ++          -- 0x68
  [six 41, six 42, six 43, six 44, six 45, six 46, six 47, six 48] ++          -- 0x70
  [six 49, six 50, six 51, .inv, .inv, .inv, .inv, .inv]             -- 0x78

/-- `INVT[c]` for a 7-bit code (R23). -/
def invOf (c : BitVec 7) : Cls := invTable.getD c.toNat .inv

/-- `cls(b) = INVT[b[6:0]]` (R24): bit 7 is ignored, on every path. -/
def cls (b : Byte) : Cls := invOf (b.extractLsb' 0 7)

end Sys2Proof.Machine
end

