-- ==== Sys2Proof/Machine/Group.lean ====
section
/-! DEFINITION. The group codec (41_group_codec.md): `encodeGroup` (R100), `decodeQuartet` (R104), and the commands
ENCGRP (R102) and DECQ (R106). -/

namespace Sys2Proof.Machine

/-- The 24-bit group integer `b0 || b1 || b2` (R63, R100). -/
def groupInt (b0 b1 b2 : Byte) : BitVec 24 := b0 ++ b1 ++ b2

/-- `encodeGroup(b0, b1, b2, n)` (R100): absent bytes are zero-filled, four 6-bit fields go through the Symbol Table,
and the last `3 - n` symbols are padding. `n` is 1, 2 or 3. -/
def encodeGroup (b0 b1 b2 : Byte) (n : BitVec 2) : List Byte :=
  let b1z : Byte := if 2 ≤ n then b1 else 0
  let b2z : Byte := if n = 3 then b2 else 0
  let x := groupInt b0 b1z b2z
  let s0 := symOf (x.extractLsb' 18 6)
  let s1 := symOf (x.extractLsb' 12 6)
  let s2 := if n = 1 then padChar else symOf (x.extractLsb' 6 6)
  let s3 := if n ≤ 2 then padChar else symOf (x.extractLsb' 0 6)
  [s0, s1, s2, s3]

/-- What `decodeQuartet` answers (R104). -/
inductive Quartet where
  | ok (bytes : List Byte) (n : BitVec 2)
  | badPad
deriving DecidableEq, Repr

/-- `decodeQuartet(c0, c1, c2, c3)` (R104), case by case of its pseudocode. -/
def decodeQuartet (c0 c1 c2 c3 : Sym) : Quartet :=
  match c0, c1, c2, c3 with
  | .pad, _, _, _ => .badPad
  | .val _, .pad, _, _ => .badPad
  | .val _, .val _, .pad, .val _ => .badPad
  | .val v0, .val v1, .pad, .pad =>
    let x : BitVec 24 := (v0.setWidth 24 <<< 18) ||| (v1.setWidth 24 <<< 12)
    .ok [x.extractLsb' 16 8] 1
  | .val v0, .val v1, .val v2, .pad =>
    let x : BitVec 24 := (v0.setWidth 24 <<< 18) ||| (v1.setWidth 24 <<< 12) ||| (v2.setWidth 24 <<< 6)
    .ok [x.extractLsb' 16 8, x.extractLsb' 8 8] 2
  | .val v0, .val v1, .val v2, .val v3 =>
    let x : BitVec 24 :=
      (v0.setWidth 24 <<< 18) ||| (v1.setWidth 24 <<< 12) ||| (v2.setWidth 24 <<< 6) ||| v3.setWidth 24
    .ok [x.extractLsb' 16 8, x.extractLsb' 8 8, x.extractLsb' 0 8] 3

/-- The RES1 value that marks a padding error at raw byte `r`: `zext_32(r) | 0x100` (R106, R200). -/
def padCause (r : Byte) : Word := r.setWidth 32 ||| 0x100

/-- How DECQ ends on four raw bytes: code, RES0, RES1 (R106). The lowest index that is no symbol decides, and only then
the padding. -/
def decqResult (r0 r1 r2 r3 : Byte) : StatusCode × Word × Word :=
  match cls r0, cls r1, cls r2, cls r3 with
  | .sym c0, .sym c1, .sym c2, .sym c3 =>
    match decodeQuartet c0 c1 c2 c3 with
    | .ok bytes n => (.ok, packBytes bytes, n.setWidth 32)
    | .badPad => (.errMalformed, 3, padCause r3)
  | .sym _, .sym _, .sym _, _ => (.errMalformed, 3, r3.setWidth 32)
  | .sym _, .sym _, _, _ => (.errMalformed, 2, r2.setWidth 32)
  | .sym _, _, _, _ => (.errMalformed, 1, r1.setWidth 32)
  | _, _, _, _ => (.errMalformed, 0, r0.setWidth 32)

/-- ENCGRP (R102). CNT = 0 is an illegal word (R84(d)) that no decoded command has; written as the syntax allows it,
it takes that fault (notes/assumptions/19.md). -/
def execEncgrp (cnt : BitVec 2) (s : State) : Host.Outcome State Fault Refusal :=
  if cnt = 0 then .next (takeFault .faultIllegalCmd s)
  else
    .next (complete .ok
      (packBytes (encodeGroup (byte0 s.latched.a0) (byte1 s.latched.a0) (byte2 s.latched.a0) cnt)) 0 s)

/-- DECQ (R106). It is no unit command, so its error changes no unit (R203). -/
def execDecq (s : State) : Host.Outcome State Fault Refusal :=
  match decqResult (byte0 s.latched.a0) (byte1 s.latched.a0) (byte2 s.latched.a0) (byte3 s.latched.a0) with
  | (c, x, y) => .next (complete c x y s)

end Sys2Proof.Machine
end

