-- ==== Sys2Proof/Machine/Bulk.lean ====
section
/-! DEFINITION. The bulk codec (42_bulk_codec.md): `bulkEncode` (R120, R121), `bulkDecode` (R124), and the commands BENC
(R122) and BDEC (R130). -/

namespace Sys2Proof.Machine

/-- `bulkEncode` from a line count on (R120): every full triple is a group; a line-feed follows the group that brings
the line to 76 symbols, the last group of the input included (R121); the partial group gets none. -/
def bulkEncodeFrom (line : Nat) : List Byte → List Byte
  | [] => []
  | [x] => encodeGroup x 0 0 1
  | [x, y] => encodeGroup x y 0 2
  | x :: y :: z :: rest =>
    if line + 4 = maxLineLength then
      encodeGroup x y z 3 ++ lineFeed :: bulkEncodeFrom 0 rest
    else encodeGroup x y z 3 ++ bulkEncodeFrom (line + 4) rest

/-- `bulkEncode(src)` (R120). -/
def bulkEncode (src : List Byte) : List Byte := bulkEncodeFrom 0 src

/-- What `bulkDecode` answers (R124). -/
inductive BulkResult where
  | ok (out : List Byte)
  | err (code : StatusCode) (x y : Word)
deriving DecidableEq, Repr

/-- The end of `bulkDecode`'s input with the symbols `acc` held (R124, R128). -/
def bulkTail (policy : TailPolicy) (acc : List Sym) (out : List Byte) : BulkResult :=
  match policy with
  | .drop => .ok out
  | .error =>
    if acc.length = 0 then .ok out else .err .errImproperPadding (BitVec.ofNat 32 acc.length) 0

/-- `bulkDecode` from position `i` on (R124), with the symbols `acc` of the current quartet and the bytes `out` so far. -/
def bulkDecodeFrom (policy : TailPolicy) (i : Nat) (acc : List Sym) (out : List Byte) : List Byte → BulkResult
  | [] => bulkTail policy acc out
  | b :: bs =>
    match cls b with
    | .inv => .err .errMalformed (BitVec.ofNat 32 i) (b.setWidth 32)
    | .ws => bulkDecodeFrom policy (i + 1) acc out bs
    | .sym c =>
      match acc with
      | [c0, c1, c2] =>
        match decodeQuartet c0 c1 c2 c with
        | .badPad => .err .errMalformed (BitVec.ofNat 32 i) (padCause b)
        | .ok bytes _ =>
          if c = .pad then .ok (out ++ bytes)
          else bulkDecodeFrom policy (i + 1) [] (out ++ bytes) bs
      | _ => bulkDecodeFrom policy (i + 1) (acc ++ [c]) out bs

/-- `bulkDecode(src)` under a `BULK_TAIL_POLICY` (R124). -/
def bulkDecode (policy : TailPolicy) (src : List Byte) : BulkResult := bulkDecodeFrom policy 0 [] [] src

/-- The source range and the destination range of BENC and BDEC are checked together (R206.5). -/
def bulkRangesAdmitted (s : State) : Bool :=
  admitted s.params s.latched.a0 s.latched.a1 && admitted s.params s.latched.a2 s.latched.a3

/-- `MemRead(A0, A1)` (R122, R130). -/
def bulkSource (s : State) : List Byte := Memory.readRange s.hb s.latched.a0.toNat s.latched.a1.toNat

/-- The end of BENC and BDEC with the output `out` (R122, R130): FAULT_RANGE where it is longer than the capacity A3,
nothing written; else it is written at A2 in one step and its length is the result. -/
def bulkFinish (out : List Byte) (s : State) : State :=
  if out.length ≤ s.latched.a3.toNat then
    complete .ok (BitVec.ofNat 32 out.length) 0
      { s with hb := Memory.writeRange s.hb s.latched.a2.toNat out }
  else takeFault .faultRange s

/-- BENC (R122). -/
def execBenc (s : State) : Host.Outcome State Fault Refusal :=
  if bulkRangesAdmitted s then .next (bulkFinish (bulkEncode (bulkSource s)) s)
  else .next (takeFault .faultRange s)

/-- BDEC (R130). A decode error comes before the capacity fault (R206.6), and HB is not written. -/
def execBdec (s : State) : Host.Outcome State Fault Refusal :=
  if bulkRangesAdmitted s then
    match bulkDecode s.params.bulkTailPolicy (bulkSource s) with
    | .err c x y => .next (complete c x y s)
    | .ok out => .next (bulkFinish out s)
  else .next (takeFault .faultRange s)

end Sys2Proof.Machine
end

