-- ==== Sys2Proof/Machine/SinkTasks.lean ====
section
/-! DEFINITION. How a Stream Encoder command proceeds over its sink requests (43_stream_encoder.md R142–R148). A command
runs to its next `SinkWrite`, `SinkFlush` or `SinkClose`, waits there, and goes on with the answer. -/

namespace Sys2Proof.Machine

/-- `zext_32` of how many bytes SE_WRITEN fully consumed before the failing one; 0 in every other SE command (R200). -/
def SeMore.consumed : SeMore → Word
  | .one => 0
  | .many k _ => BitVec.ofNat 32 k

/-- RES1 of the ERR_UPSTREAM a failing request raises (R144–R147, R200). -/
def SeWait.consumed : SeWait → Word
  | .group _ _ m => m.consumed
  | .lineFeed m => m.consumed
  | .pad _ _ _ => 0
  | .flush _ => 0
  | .close => 0

/-- `se_buf[se_count] <- b; se_count <- se_count + 1` (R143). -/
def sePush (b : Byte) (s : State) : State :=
  { s with se := { s.se with buf := s.se.buf.set s.se.count b, count := s.se.count + 1 } }

/-- `encodeGroup` of the accumulation buffer with significant count `n` (R142, R146). -/
def seGroupSymbols (n : BitVec 2) (s : State) : List Byte :=
  encodeGroup s.se.buf.b0 s.se.buf.b1 s.se.buf.b2 n

/-- The first request of `seEmitGroup()` (R142): the group's four symbols are sent in order. -/
def seEmitGroup (m : SeMore) (s : State) : State :=
  match seGroupSymbols 3 s with
  | [] => s
  | b :: rest => ask (.se (.group b rest m)) s

/-- SE_WRITE's byte (R143, R144): the third byte of a group sends the group, any other completes at once. -/
def seWriteOne (b : Byte) (s : State) : State :=
  if (sePush b s).se.count = 3 then seEmitGroup .one (sePush b s)
  else complete .ok 0 0 (sePush b s)

/-- SE_WRITEN's loop (R145) from byte `k` on, over the bytes still to write. -/
def seWriteMany (k : Nat) (bytes : List Byte) (s : State) : State :=
  match bytes with
  | [] => complete .ok (BitVec.ofNat 32 k) 0 s
  | b :: rest =>
    if (sePush b s).se.count = 3 then seEmitGroup (.many k rest) (sePush b s)
    else seWriteMany (k + 1) rest (sePush b s)

/-- The end of `seWriteByte` after its group went out: the buffer is cleared (R143), and the command goes on. -/
def seGroupDone (m : SeMore) (s : State) : State :=
  match m with
  | .one => complete .ok 0 0 { s with se := { s.se with count := 0 } }
  | .many k rest => seWriteMany (k + 1) rest { s with se := { s.se with count := 0 } }

/-- After the fourth symbol of a full group is answered (R142): the line counter goes up by 4, and on reaching 76 a
line-feed is sent. -/
def seSymbolsSent (m : SeMore) (s : State) : State :=
  if (s.se.line + 4).toNat = maxLineLength then
    ask (.se (.lineFeed m)) { s with se := { s.se with line := s.se.line + 4 } }
  else seGroupDone m { s with se := { s.se with line := s.se.line + 4 } }

/-- `seFlushBody()` (R146) up to its first request: the padded group where 1 or 2 bytes are held, then `SinkFlush()`.
No SE field changes. -/
def seFlushBody (closing : Bool) (s : State) : State :=
  if s.se.count = 1 ∨ s.se.count = 2 then
    match seGroupSymbols s.se.count s with
    | [] => s
    | b :: rest => ask (.se (.pad b rest closing)) s
  else ask (.se (.flush closing)) s

/-- An SE command goes on after its request was answered `Ack` (R142–R147). -/
def seAcked (w : SeWait) (s : State) : State :=
  match w with
  | .group _ (b :: rest) m => ask (.se (.group b rest m)) s
  | .group _ [] m => seSymbolsSent m s
  | .lineFeed m => seGroupDone m { s with se := { s.se with line := 0 } }
  | .pad _ (b :: rest) closing => ask (.se (.pad b rest closing)) s
  | .pad _ [] closing => ask (.se (.flush closing)) s
  | .flush true => ask (.se .close) s
  | .flush false => complete .ok 0 0 s
  | .close => complete .ok 0 0 { s with se := { s.se with state := .closed } }

/-- An SE command goes on with the answer `a` to its request `w`, or ends in ERR_UPSTREAM at that request (R148). -/
def seGoesOn (w : SeWait) (a : Ack) (s : State) : State :=
  match a with
  | .ack => seAcked w s
  | .fail e => raiseSe .errUpstream (portCode s.params e) w.consumed s

/-- An SE command's request is answered: the exchange is observed (R66), and the command goes on. -/
def seAnswered (w : SeWait) (a : Ack) (s : State) : State :=
  seGoesOn w a (observe (.sink w.request (some a)) s)

end Sys2Proof.Machine
end

