-- ==== Sys2Proof/Machine/SourceTasks.lean ====
section
/-! DEFINITION. How a Stream Decoder command proceeds over its source requests (44_stream_decoder.md R162–R168). -/

namespace Sys2Proof.Machine

/-- `sdServe()` (R163): the next cached byte, and the unit after it is served. -/
def sdServe (u : SdUnit) : Byte × SdUnit :=
  (u.out.get u.pos,
    { u with
      pos := u.pos + 1
      phase := if u.pos + 1 = u.nsig then (if u.padded then .exhausted else .empty) else u.phase })

/-- How one answer to `SrcRead()` leaves `sdFill()` (R164–R166). -/
inductive FillStep where
  /-- The loop asks for another byte. -/
  | more
  /-- A quartet is decoded and cached. -/
  | filled
  /-- End-of-stream. -/
  | eos
  /-- An error with its code and result words. -/
  | error (c : StatusCode) (x y : Word)
deriving DecidableEq, Repr

/-- `sdAtEnd()` (R166). -/
def sdAtEnd (u : SdUnit) : FillStep × SdUnit :=
  if u.count = 0 then (.eos, { u with phase := .exhausted })
  else (.error .errImproperPadding (u.count.setWidth 32) 0, { u with phase := .failed })

/-- `sdAtFail(e)` (R166), `e` already zero-extended. -/
def sdAtFail (e : Word) (u : SdUnit) : FillStep × SdUnit :=
  if u.count = 0 then (.error .errUpstream e 0, { u with phase := .failed })
  else (.error .errImproperPadding (u.count.setWidth 32) 0, { u with phase := .failed })

/-- The quartet is complete with the symbol of raw byte `raw` at source position `idx` (R164, R165). -/
def sdQuartet (idx : Word) (raw : Byte) (u : SdUnit) : FillStep × SdUnit :=
  match decodeQuartet u.acc.c0 u.acc.c1 u.acc.c2 u.acc.c3 with
  | .badPad => (.error .errMalformed idx (padCause raw), { u with phase := .failed })
  | .ok bytes n =>
    (.filled,
      { u with
        out := Bytes3.ofList bytes
        nsig := n
        pos := 0
        padded := decide (u.acc.c3 = .pad)
        count := 0
        phase := .ready })

/-- `sdFill()`'s loop body on `Byte(raw)` (R164). `sd_srcidx` counts it first, modulo 2^32 (R36). -/
def sdByte (raw : Byte) (u : SdUnit) : FillStep × SdUnit :=
  match cls raw with
  | .inv => (.error .errMalformed u.srcidx (raw.setWidth 32), { u with srcidx := u.srcidx + 1, phase := .failed })
  | .ws => (.more, { u with srcidx := u.srcidx + 1 })
  | .sym c =>
    if u.count + 1 = 4 then
      sdQuartet u.srcidx raw { u with srcidx := u.srcidx + 1, acc := u.acc.set u.count c, count := u.count + 1 }
    else (.more, { u with srcidx := u.srcidx + 1, acc := u.acc.set u.count c, count := u.count + 1 })

/-- `sdFill()` on one answer of the source (R164). -/
def sdFillStep (p : Params) (a : ReadAnswer) (u : SdUnit) : FillStep × SdUnit :=
  match a with
  | .byte raw => sdByte raw u
  | .endOfInput => sdAtEnd u
  | .fail e => sdAtFail (portCode p e) u

/-- SD_READ serves a cached byte and completes (R162, R163). -/
def sdReadServe (s : State) : State :=
  complete .ok ((sdServe s.sd).1.setWidth 32) 0 { s with sd := (sdServe s.sd).2 }

/-- The end of SD_READN at end-of-stream with `k` bytes obtained (R167): EOS where none was, else OK with the count. -/
def sdReadNEos (k : Nat) (s : State) : State :=
  if k = 0 then complete .eos 0 0 s else complete .ok (BitVec.ofNat 32 k) 0 s

/-- SD_READN stores byte number `k`: `MemWrite(A0 + k, 1, [b])` (R167). -/
def sdStore (k : Nat) (s : State) : State :=
  { s with
    hb := Memory.write s.hb (s.latched.a0.toNat + k) (sdServe s.sd).1
    sd := (sdServe s.sd).2 }

/-- SD_READN's loop (R167) with `k` bytes obtained and `left` still wanted, up to its next source request; where `n`
more bytes are stored before that request is made, up to the next byte (R230). -/
def sdReadUpTo (n left k : Nat) (s : State) : State :=
  match left with
  | 0 => complete .ok (BitVec.ofNat 32 k) 0 s
  | left + 1 =>
    match n with
    | 0 => hold (.storing k) s
    | n + 1 =>
      if s.sd.phase = .exhausted then sdReadNEos k s
      else if s.sd.phase = .empty then ask (.sd (.readN k)) s
      else sdReadUpTo n left (k + 1) (sdStore k s)

/-- SD_READN's loop (R167) with `k` bytes obtained and `left` still wanted, up to its next source request. -/
def sdReadMany (left k : Nat) (s : State) : State := sdReadUpTo left left k s

/-- An SD_READ goes on after a source answer (R162). -/
def sdReadOn (r : FillStep × SdUnit) (s : State) : State :=
  match r.1 with
  | .more => ask (.sd .read) { s with sd := r.2 }
  | .filled => sdReadServe { s with sd := r.2 }
  | .eos => complete .eos 0 0 { s with sd := r.2 }
  | .error c x y => raiseSd c x y { s with sd := r.2 }

/-- An SD_READN with `k` bytes obtained goes on after a source answer (R167), up to its next request or
`n` bytes stored. Bytes already stored stay. -/
def sdReadNOn (n k : Nat) (r : FillStep × SdUnit) (s : State) : State :=
  match r.1 with
  | .more => ask (.sd (.readN k)) { s with sd := r.2 }
  | .filled => sdReadUpTo n (s.latched.a1.toNat - k) k { s with sd := r.2 }
  | .eos => sdReadNEos k { s with sd := r.2 }
  | .error c x y => raiseSd c x y { s with sd := r.2 }

/-- SD_READ goes on with the answer `a` (R162, R164). -/
def sdReadGoesOn (a : ReadAnswer) (s : State) : State := sdReadOn (sdFillStep s.params a s.sd) s

/-- SD_READN with `k` bytes obtained goes on with the answer `a`, up to its next request or `n` bytes stored (R164,
R167). -/
def sdReadNGoesOn (n k : Nat) (a : ReadAnswer) (s : State) : State :=
  sdReadNOn n k (sdFillStep s.params a s.sd) s

/-- SD_CLOSE goes on with the answer `a` (R168). -/
def sdCloseGoesOn (a : Ack) (s : State) : State :=
  match a with
  | .ack => complete .ok 0 0 { s with sd := { s.sd with phase := .closed } }
  | .fail e => raiseSd .errUpstream (portCode s.params e) 0 s

/-- SD_READ's pending `SrcRead()` is answered. -/
def sdReadAnswered (a : ReadAnswer) (s : State) : State :=
  sdReadGoesOn a (observe (.sourceRead (some a)) s)

/-- SD_READN's pending `SrcRead()` is answered, with `k` bytes obtained: it stores what it obtains, as many as it still
wants. -/
def sdReadNAnswered (k : Nat) (a : ReadAnswer) (s : State) : State :=
  sdReadNGoesOn (s.latched.a1.toNat - k) k a (observe (.sourceRead (some a)) s)

/-- SD_CLOSE's pending `SrcClose()` is answered (R168). -/
def sdCloseAnswered (a : Ack) (s : State) : State :=
  sdCloseGoesOn a (observe (.sourceClose (some a)) s)

end Sys2Proof.Machine
end

