-- ==== Sys2Proof/Machine/Ports.lean ====
section
/-! DEFINITION. A waiting command takes the answers of its port (20_memory.md R66–R68; notes/assumptions/2.md). -/

namespace Sys2Proof.Machine

/-- The state after input `i`, where `i` answers the pending request; none where it answers no pending request. -/
def answered (i : Input) (s : State) : Option State :=
  match s.running with
  | none => none
  | some (.se w) =>
    match i with
    | .sinkAnswer a => some (seAnswered w a s)
    | _ => none
  | some (.sd .read) =>
    match i with
    | .readAnswer a => some (sdReadAnswered a s)
    | _ => none
  | some (.sd (.readN k)) =>
    match i with
    | .readAnswer a => some (sdReadNAnswered k a s)
    | _ => none
  | some (.sd .close) =>
    match i with
    | .closeAnswer a => some (sdCloseAnswered a s)
    | _ => none
  | some (.ready _) => none

/-- The running command takes answers from `is` for as long as each next input is the answer it waits on; the rest
stay the inputs to come. -/
def driveOn (is : List Input) (s : State) : State :=
  match is with
  | [] => { s with inputs := [] }
  | i :: rest =>
    match answered i s with
    | some s' => driveOn rest s'
    | none => { s with inputs := i :: rest }

/-- A command runs on over the answers that stand next in the inputs, to its end or to a request whose answer has not
come. -/
def drive (s : State) : State := driveOn s.inputs s

end Sys2Proof.Machine
end

