-- ==== Sys2Proof/Machine/StreamDecoder.lean ====
section
/-! DEFINITION. The Stream Decoder's commands (44_stream_decoder.md): OPEN_SOURCE, SD_READ, SD_READN, SD_CLOSE. -/

namespace Sys2Proof.Machine

/-- `requireOpenSD` (R161), around what the command does on a bound unit. -/
def requireOpenSd (s : State) (body : State) : State :=
  match s.sd.phase with
  | .idle => takeFault .faultNotOpen s
  | .closed => takeFault .faultClosed s
  | .failed => takeFault .faultUnitFailed s
  | .empty => body
  | .ready => body
  | .exhausted => body

/-- The Stream Decoder unit just bound (R160). -/
def sdOpened : SdUnit :=
  { phase := .empty, acc := ⟨.val 0, .val 0, .val 0, .val 0⟩, count := 0, out := ⟨0, 0, 0⟩, nsig := 0, pos := 0,
    padded := false, srcidx := 0 }

/-- OPEN_SOURCE (R160). No source request is made. -/
def execOpenSource (s : State) : Host.Outcome State Fault Refusal :=
  match s.sd.phase with
  | .empty => .next (takeFault .faultUnitBusy s)
  | .ready => .next (takeFault .faultUnitBusy s)
  | .exhausted => .next (takeFault .faultUnitBusy s)
  | .idle => .next (complete .ok 0 0 { s with sd := sdOpened })
  | .closed => .next (complete .ok 0 0 { s with sd := sdOpened })
  | .failed => .next (complete .ok 0 0 { s with sd := sdOpened })

/-- SD_READ on a bound unit (R162): EOS when Exhausted, a source request when Empty, else a cached byte. -/
def sdReadBody (s : State) : State :=
  if s.sd.phase = .exhausted then complete .eos 0 0 s
  else if s.sd.phase = .empty then drive (ask (.sd .read) s)
  else sdReadServe s

/-- SD_READ (R162). -/
def execSdRead (s : State) : Host.Outcome State Fault Refusal :=
  .next (requireOpenSd s (sdReadBody s))

/-- SD_READN on a bound unit (R167), up to its first source request or `n` bytes stored: the range first;
length 0 completes at once, without a source request, even when Exhausted. -/
def sdReadnBegin (n : Nat) (s : State) : State :=
  if admitted s.params s.latched.a0 s.latched.a1 then
    if s.latched.a1 = 0 then complete .ok 0 0 s
    else sdReadUpTo n s.latched.a1.toNat 0 s
  else takeFault .faultRange s

/-- SD_READN on a bound unit (R167). -/
def sdReadnBody (s : State) : State := drive (sdReadnBegin s.latched.a1.toNat s)

/-- SD_READN (R167). -/
def execSdReadn (s : State) : Host.Outcome State Fault Refusal :=
  .next (requireOpenSd s (sdReadnBody s))

/-- SD_CLOSE on a bound unit (R168): §7's check of a partial quartet, which no command leaves at rest, then
`SrcClose()`. -/
def sdCloseBody (s : State) : State :=
  if s.sd.count = 0 then drive (ask (.sd .close) s)
  else raiseSd .errImproperPadding (s.sd.count.setWidth 32) 0 s

/-- SD_CLOSE (R168). -/
def execSdClose (s : State) : Host.Outcome State Fault Refusal :=
  .next (requireOpenSd s (sdCloseBody s))

end Sys2Proof.Machine
end

