-- ==== Sys2Proof/Machine/StreamEncoder.lean ====
section
/-! DEFINITION. The Stream Encoder's commands (43_stream_encoder.md): OPEN_SINK, SE_WRITE, SE_WRITEN, SE_FLUSH,
SE_CLOSE. -/

namespace Sys2Proof.Machine

/-- `requireOpenSE` (R141), around what the command does on an Open unit. -/
def requireOpenSe (s : State) (body : State) : State :=
  match s.se.state with
  | .idle => takeFault .faultNotOpen s
  | .closed => takeFault .faultClosed s
  | .failed => takeFault .faultUnitFailed s
  | .opened => body

/-- OPEN_SINK (R140). No sink request is made. -/
def execOpenSink (s : State) : Host.Outcome State Fault Refusal :=
  if s.se.state = .opened then .next (takeFault .faultUnitBusy s)
  else .next (complete .ok 0 0 { s with se := { state := .opened, buf := ⟨0, 0, 0⟩, count := 0, line := 0 } })

/-- SE_WRITE (R144). -/
def execSeWrite (b : Byte) (s : State) : Host.Outcome State Fault Refusal :=
  .next (requireOpenSe s (drive (seWriteOne b s)))

/-- SE_WRITEN on an Open unit (R145): the range first, then the whole of the data, then byte for byte. -/
def seWritenBody (s : State) : State :=
  if admitted s.params s.latched.a0 s.latched.a1 then
    drive (seWriteMany 0 (Memory.readRange s.hb s.latched.a0.toNat s.latched.a1.toNat) s)
  else takeFault .faultRange s

/-- SE_WRITEN (R145). -/
def execSeWriten (s : State) : Host.Outcome State Fault Refusal :=
  .next (requireOpenSe s (seWritenBody s))

/-- SE_FLUSH (R146). -/
def execSeFlush (s : State) : Host.Outcome State Fault Refusal :=
  .next (requireOpenSe s (drive (seFlushBody false s)))

/-- SE_CLOSE (R147): the flush's requests, then `SinkClose()`. -/
def execSeClose (s : State) : Host.Outcome State Fault Refusal :=
  .next (requireOpenSe s (drive (seFlushBody true s)))

end Sys2Proof.Machine
end

