-- ==== Sys2Proof/Machine/Dispatch.lean ====
section
/-! DEFINITION. One arm for each command of 30_encoding.md R81: the run of a command after its CMD write (R202). -/

namespace Sys2Proof.Machine

def exec (i : Instr) (s : State) : Host.Outcome State Fault Refusal :=
  match i with
  | .encgrp cnt => Sys2Proof.Machine.execEncgrp cnt s
  | .decq => Sys2Proof.Machine.execDecq s
  | .benc => Sys2Proof.Machine.execBenc s
  | .bdec => Sys2Proof.Machine.execBdec s
  | .openSink => Sys2Proof.Machine.execOpenSink s
  | .seWrite imm8 => Sys2Proof.Machine.execSeWrite imm8 s
  | .seWriten => Sys2Proof.Machine.execSeWriten s
  | .seFlush => Sys2Proof.Machine.execSeFlush s
  | .seClose => Sys2Proof.Machine.execSeClose s
  | .openSource => Sys2Proof.Machine.execOpenSource s
  | .sdRead => Sys2Proof.Machine.execSdRead s
  | .sdReadn => Sys2Proof.Machine.execSdReadn s
  | .sdClose => Sys2Proof.Machine.execSdClose s

end Sys2Proof.Machine
end

