-- ==== Sys2Proof/Machine/Issue.lean ====
section
/-! DEFINITION. What each input does to the block (70_reset_and_hazards.md R227): the CMD write (60_exceptions.md R202,
R205, R206), the other register accesses (10_state.md R27, R37), the host's own access to the host buffer (20_memory.md
R60, R74), the ports' answers, the time the block takes (R230), reset. -/

namespace Sys2Proof.Machine

/-- A host write of `w` to CMD (R202), in the priority of R206: ignored while FAULTED; FAULT_CMD_BUSY while BUSY;
FAULT_ILLEGAL_CMD for an illegal word, which reads no operand (R84); else the operands are latched and the command
runs, in this same step. Where it takes longer, the input is `Input.slowly (.cmdWrite w)` (R230,
notes/assumptions/2.md). -/
def cmdWrite (w : Word) (s : State) : Host.Outcome State Fault Refusal :=
  if s.faulted then .next s
  else if s.busy then .next (takeCmdBusy s)
  else
    match decode w with
    | .error _ => .next (takeFault .faultIllegalCmd s)
    | .ok i => exec i (latch s)

/-- A host write to the register at index `r` (R27, R29, R37): writes to read-only and reserved offsets do nothing. -/
def writeReg (r : BitVec 6) (w : Word) (s : State) : Host.Outcome State Fault Refusal :=
  match regAt r with
  | some .cmd => cmdWrite w s
  | some .arg0 => .next { s with arg := { s.arg with a0 := w } }
  | some .arg1 => .next { s with arg := { s.arg with a1 := w } }
  | some .arg2 => .next { s with arg := { s.arg with a2 := w } }
  | some .arg3 => .next { s with arg := { s.arg with a3 := w } }
  | some .status => .next s
  | some .res0 => .next s
  | some .res1 => .next s
  | some .seStat => .next s
  | some .seBuf => .next s
  | some .sdStat => .next s
  | some .sdOut => .next s
  | some .sdSrcidx => .next s
  | none => .next s

/-- A host read of the register at index `r` (R27, R37): a reserved offset reads 0; a unit register read during BUSY
returns a free value (R223). -/
def readReg (r : BitVec 6) (s : State) : State :=
  match regAt r with
  | none => { s with readData := 0 }
  | some g =>
    if s.busy && g.showsUnit then { s with readData := Config.busyRead s.draws, draws := s.draws + 1 }
    else { s with readData := g.value s }

/-- The host writes a byte of HB: not past its end (R60), not in a range the running command uses (R74). -/
def hostWriteHb (a : Word) (b : Byte) (s : State) : Host.Outcome State Fault Refusal :=
  if s.params.hbSize ≤ a.toNat then .fault .hbOffsetAbsent
  else if inUse s a.toNat then .refused .hbRangeInUse
  else .next { s with hb := Memory.write s.hb a.toNat b }

/-- The host reads a byte of HB, under the same two conditions. -/
def hostReadHb (a : Word) (s : State) : Host.Outcome State Fault Refusal :=
  if s.params.hbSize ≤ a.toNat then .fault .hbOffsetAbsent
  else if inUse s a.toNat then .refused .hbRangeInUse
  else .next { s with readData := (Memory.read s.hb a.toNat).setWidth 32 }

/-- A port's answer `i` arrives: the command that waits on it goes on, over the answers that follow it too. An answer
that no pending request waits for has no effect (U25, notes/assumptions/11.md). -/
def portAnswer (i : Input) (s : State) : State :=
  match answered i s with
  | some s' => drive s'
  | none => s

/-- A host write of `w` to CMD that the block takes its time over (R202, R230), in the same priority of R206: the command
is issued, BUSY is set, and it has not begun. An illegal word latches no operands (R84, notes/assumptions/12.md). -/
def cmdWriteSlowly (w : Word) (s : State) : State :=
  if s.faulted then s
  else if s.busy then takeCmdBusy s
  else
    match decode w with
    | .error _ => hold .illegal { s with busy := true }
    | .ok i => hold (.command i) (latch s)

/-- `m` comes and the block takes its time over it (R230): an answer is observed, and the command it goes to is ready to
go on. An answer that no pending request waits for has no effect. -/
def arriveSlowly (m : Arrival) (s : State) : State :=
  match m with
  | .cmdWrite w => cmdWriteSlowly w s
  | .sinkAnswer a =>
    match s.running with
    | some (.se w) => hold (.sink w a) (observe (.sink w.request (some a)) s)
    | _ => s
  | .readAnswer a =>
    match s.running with
    | some (.sd .read) => hold (.read a) (observe (.sourceRead (some a)) s)
    | some (.sd (.readN k)) => hold (.readN k a) (observe (.sourceRead (some a)) s)
    | _ => s
  | .closeAnswer a =>
    match s.running with
    | some (.sd .close) => hold (.close a) (observe (.sourceClose (some a)) s)
    | _ => s

/-- A ready command goes on (R230): a command just issued runs (R202), an illegal word faults (R84), and a command that
was answered goes on with its answer; over the answers that stand next. -/
def goOn (r : Ready) (s : State) : Host.Outcome State Fault Refusal :=
  match r with
  | .command i => exec i s
  | .illegal => .next (takeFault .faultIllegalCmd s)
  | .sink w a => .next (drive (seGoesOn w a s))
  | .read a => .next (drive (sdReadGoesOn a s))
  | .readN k a => .next (drive (sdReadNGoesOn (s.latched.a1.toNat - k) k a s))
  | .storing k => .next (drive (sdReadMany (s.latched.a1.toNat - k) k s))
  | .close a => .next (drive (sdCloseGoesOn a s))

/-- The time over the ready command ends (R230); nothing where no command is ready. Where no input says when, it ends once
the inputs are used up (`nextInput`, notes/assumptions/22.md). -/
def proceed (s : State) : Host.Outcome State Fault Refusal :=
  match s.running with
  | some (.ready r) => goOn r { s with running := none }
  | _ => .next s

/-- The ready SD_READN goes on, and is ready again where it stores `n` bytes before its next request and its end (R167,
R230); nothing where no SD_READN is ready. -/
def proceedStores (n : Nat) (s : State) : State :=
  match s.running with
  | some (.ready (.command .sdReadn)) =>
    drive (requireOpenSd { s with running := none } (sdReadnBegin n { s with running := none }))
  | some (.ready (.readN k a)) => drive (sdReadNGoesOn n k a { s with running := none })
  | some (.ready (.storing k)) => drive (sdReadUpTo n (s.latched.a1.toNat - k) k { s with running := none })
  | _ => s

/-- The state after one input `i`, in a state whose inputs are those that follow it. -/
def takeInput (i : Input) (s : State) : Host.Outcome State Fault Refusal :=
  match i with
  | .reset => .next (resetBlock s)
  | .regWrite r w => writeReg r w s
  | .regRead r => .next (readReg r s)
  | .hbWrite a b => hostWriteHb a b s
  | .hbRead a => hostReadHb a s
  | .sinkAnswer a => .next (portAnswer (.sinkAnswer a) s)
  | .readAnswer a => .next (portAnswer (.readAnswer a) s)
  | .closeAnswer a => .next (portAnswer (.closeAnswer a) s)
  | .lateAnswer => .next s
  | .slowly m => .next (arriveSlowly m s)
  | .proceed => proceed s
  | .proceedStores n => .next (proceedStores n s)

/-- One step: the next input. Where none is left, the command that takes its time goes on, since that time is finite
(R230; that it ends there is the model's choice, notes/assumptions/22.md), and else nothing happens (R18, R207). -/
def nextInput (s : State) : Host.Outcome State Fault Refusal :=
  match s.inputs with
  | [] => proceed s
  | i :: rest => takeInput i { s with inputs := rest }

/-- The CMD word of `nbits` bits whose value is `w` put first among the inputs, where the step takes its next command. -/
def placeCommand (nbits w : Nat) (s : State) : State :=
  { s with inputs := .regWrite 0 (BitVec.ofNat 32 (w % 2 ^ nbits)) :: s.inputs }

end Sys2Proof.Machine
end

