-- ==== Sys2Proof/Machine/Step.lean ====
section
/-! DEFINITION. One step of the machine: the next input of the host, the ports or the platform (00_scope.md R18). -/

namespace Sys2Proof.Machine

/-- One step: the next input. A command runs in the step of its CMD write, over the port answers that stand next (R202), or
after a time (R230, notes/assumptions/2.md), at the latest when the inputs are used up (notes/assumptions/22.md). -/
def step (s : State) : Host.Outcome State Fault Refusal := nextInput s

/-- The block has no program counter and fetches nothing (10_state.md R26): a command comes from the host's CMD write,
so this puts that write first among the inputs (notes/assumptions/1.md). -/
def State.withFetchWord (s : State) (nbits w : Nat) : State := placeCommand nbits w s

end Sys2Proof.Machine
end

