-- ==== Sys2Proof/Machine/HostProgram.lean ====
section
/-! DEFINITION. A host program (30_encoding.md R86, R87; 70_reset_and_hazards.md R222, R228): a line is ARG writes, a CMD
write, and a wait for BUSY = 0. The port answers stand in the state's inputs. -/

namespace Sys2Proof.Machine

/-- One assembly line (R86), its numbers of the width of the fields they go to (notes/assumptions/25.md). -/
inductive Line where
  | encgrp (cnt : BitVec 2) (b0 b1 b2 : Byte)
  | decq (s0 s1 s2 s3 : Byte)
  | benc (src len dst cap : Word)
  | bdec (src len dst cap : Word)
  | openSink
  | seWrite (b : Byte)
  | seWriten (src len : Word)
  | seFlush
  | seClose
  | openSource
  | sdRead
  | sdReadn (dst len : Word)
  | sdClose
deriving DecidableEq, Repr

/-- A line or a pseudo-instruction (R87). -/
inductive ProgramLine where
  | line (l : Line)
  /-- `SE_PUTS "text"`: one SE_WRITE for each byte. -/
  | sePuts (text : List Byte)
  /-- `SD_GETS n`: `n` lines of SD_READ. -/
  | sdGets (n : Nat)
deriving DecidableEq, Repr

/-- The command a line issues (R86). -/
def Line.instr : Line → Instr
  | .encgrp cnt _ _ _ => .encgrp cnt
  | .decq _ _ _ _ => .decq
  | .benc _ _ _ _ => .benc
  | .bdec _ _ _ _ => .bdec
  | .openSink => .openSink
  | .seWrite b => .seWrite b
  | .seWriten _ _ => .seWriten
  | .seFlush => .seFlush
  | .seClose => .seClose
  | .openSource => .openSource
  | .sdRead => .sdRead
  | .sdReadn _ _ => .sdReadn
  | .sdClose => .sdClose

/-- A write of ARG`k`, `k` from 0 to 3 (10_state.md R27). -/
def argWrite (k : BitVec 6) (w : Word) : Input := .regWrite (k + 1) w

/-- The ARG writes of a line (R86); an ARG the table does not list is not written. -/
def Line.argWrites : Line → List Input
  | .encgrp _ b0 b1 b2 => [argWrite 0 (packBytes [b0, b1, b2])]
  | .decq s0 s1 s2 s3 => [argWrite 0 (packBytes [s0, s1, s2, s3])]
  | .benc src len dst cap => [argWrite 0 src, argWrite 1 len, argWrite 2 dst, argWrite 3 cap]
  | .bdec src len dst cap => [argWrite 0 src, argWrite 1 len, argWrite 2 dst, argWrite 3 cap]
  | .openSink => []
  | .seWrite _ => []
  | .seWriten src len => [argWrite 0 src, argWrite 1 len]
  | .seFlush => []
  | .seClose => []
  | .openSource => []
  | .sdRead => []
  | .sdReadn dst len => [argWrite 0 dst, argWrite 1 len]
  | .sdClose => []

/-- The host's moves for a line: its ARG writes, then its CMD write (R86, R222). -/
def Line.moves (l : Line) : List Input := l.argWrites ++ [.regWrite 0 (encode l.instr)]

/-- How a line, or a program, ends (R228). -/
inductive LineEnd where
  /-- STATUS.BUSY reads 0. -/
  | ended (s : State)
  /-- The command waits for an answer that no input gives: the run does not end. -/
  | waiting (s : State)
  /-- The model stopped on a host move. -/
  | fault (r : Fault)
  | refused (r : Refusal)
deriving DecidableEq, Repr

/-- The host makes its moves now, ahead of the inputs that are to come. -/
def makeMoves : List Input → State → Host.Outcome State Fault Refusal
  | [], s => .next s
  | i :: is, s =>
    match takeInput i s with
    | .next t => makeMoves is t
    | .fault r => .fault r
    | .refused r => .refused r

/-- The host waits until BUSY = 0 (R222), `n` bounding the steps it takes. -/
def awaitIdle : Nat → State → LineEnd
  | 0, s => if s.busy then .waiting s else .ended s
  | n + 1, s =>
    if s.busy then
      match step s with
      | .next t => awaitIdle n t
      | .fault r => .fault r
      | .refused r => .refused r
    else .ended s

/-- One line (R86). After the inputs that stand one more step may be needed, for a command that takes its time (R230). -/
def runLine (l : Line) (s : State) : LineEnd :=
  match makeMoves l.moves s with
  | .next t => awaitIdle (t.inputs.length + 1) t
  | .fault r => .fault r
  | .refused r => .refused r

/-- A pseudo-instruction's expansion: it stops after the first line whose STATUS.CODE is not OK (R87). -/
def runWhileOk : List Line → State → LineEnd
  | [], s => .ended s
  | l :: ls, s =>
    match runLine l s with
    | .ended t => if t.code = .ok then runWhileOk ls t else .ended t
    | e => e

/-- A line or a pseudo-instruction (R86, R87). -/
def ProgramLine.run : ProgramLine → State → LineEnd
  | .line l, s => runLine l s
  | .sePuts text, s => runWhileOk (text.map Line.seWrite) s
  | .sdGets n, s => runWhileOk (List.replicate n Line.sdRead) s

/-- A program: its lines in order, to the completion of the last (R228). -/
def runProgram : List ProgramLine → State → LineEnd
  | [], s => .ended s
  | p :: ps, s =>
    match p.run s with
    | .ended t => runProgram ps t
    | e => e

end Sys2Proof.Machine
end

