-- ==== Sys2Proof/Safety.lean ====
section
/-! DEFINITION. The terms claims are stated in: R84's illegal words, the invariant of the states a run can reach
(10_state.md R38, R41; 60_exceptions.md R200, R202), and runs of several commands. -/

namespace Sys2Proof.Machine

/-- R84, letter for letter: (a) the opcode is reserved, (b) reserved bits, (c) a field the opcode does not use is not 0,
(d) ENCGRP with CNT = 0, (e) the wrong direction. -/
def illegalWord (w : Word) : Prop :=
  opcodeOf (fieldsOf w).opc = none
  ∨ (fieldsOf w).reserved ≠ 0
  ∨ ((fieldsOf w).imm8 ≠ 0 ∧ (fieldsOf w).opc ≠ 0x21)
  ∨ ((fieldsOf w).cnt ≠ 0 ∧ (fieldsOf w).opc ≠ 0x01)
  ∨ ((fieldsOf w).dir ≠ 0 ∧ (fieldsOf w).opc ≠ 0x20 ∧ (fieldsOf w).opc ≠ 0x30)
  ∨ ((fieldsOf w).opc = 0x01 ∧ (fieldsOf w).cnt = 0)
  ∨ ((fieldsOf w).opc = 0x20 ∧ (fieldsOf w).dir = 1)
  ∨ ((fieldsOf w).opc = 0x30 ∧ (fieldsOf w).dir = 0)

/-- The line counter of an Open unit between full groups (R38): a multiple of 4, at most 72. -/
abbrev lineAtRest (u : SeUnit) : Prop := u.line.toNat % 4 = 0 ∧ u.line.toNat ≤ 72

/-- R38: whenever the Stream Encoder is Open and no SE command runs, the count is 0, 1 or 2 and the line counter is a
multiple of 4 and at most 72. -/
abbrev SeUnit.atRest (u : SeUnit) : Prop := u.state = .opened → (u.count ≠ 3 ∧ lineAtRest u)

/-- The phases in which the Stream Decoder is bound (R161). -/
abbrev SdUnit.bound (u : SdUnit) : Prop := u.phase = .empty ∨ u.phase = .ready ∨ u.phase = .exhausted

/-- R41: between commands a bound Stream Decoder holds no symbol, and a Ready one has a byte left to serve. -/
abbrev SdUnit.atRest (u : SdUnit) : Prop :=
  (u.bound → u.count = 0) ∧ (u.phase = .ready → u.pos.toNat < u.nsig.toNat)

/-- What an SE write command still has to do agrees with its length operand A1 (R145). -/
def SeMore.fits (len : Nat) : SeMore → Prop
  | .one => True
  | .many k rest => k + 1 + rest.length = len

/-- The Stream Encoder while its command waits on the sink (R142–R147). -/
def SeWait.agrees (len : Nat) (u : SeUnit) : SeWait → Prop
  | .group _ rest m => u.count = 3 ∧ lineAtRest u ∧ rest.length ≤ 3 ∧ m.fits len
  | .lineFeed m => u.count = 3 ∧ u.line = 76 ∧ m.fits len
  | .pad _ rest _ => u.count ≠ 3 ∧ lineAtRest u ∧ rest.length ≤ 3
  | .flush _ => u.count ≠ 3 ∧ lineAtRest u
  | .close => u.count ≠ 3 ∧ lineAtRest u

/-- The Stream Decoder while its command waits on the source (R164, R167, R168). -/
def SdWait.agrees (s : State) : SdWait → Prop
  | .read => s.sd.phase = .empty ∧ s.sd.count.toNat ≤ 3
  | .readN k =>
    s.sd.phase = .empty ∧ s.sd.count.toNat ≤ 3 ∧ k < s.latched.a1.toNat ∧
      s.latched.a0.toNat + s.latched.a1.toNat ≤ s.params.hbSize
  | .close => s.sd.bound ∧ s.sd.atRest

/-- Both units while a command is ready to go on (R230): at rest before it begins, and else as the answer found them. -/
def Ready.agrees (s : State) : Ready → Prop
  | .command _ => s.se.atRest ∧ s.sd.atRest
  | .illegal => s.se.atRest ∧ s.sd.atRest
  | .sink w _ => s.se.state = .opened ∧ w.agrees s.latched.a1.toNat s.se ∧ s.sd.atRest
  | .read _ => SdWait.read.agrees s ∧ s.se.atRest
  | .readN k _ => (SdWait.readN k).agrees s ∧ s.se.atRest
  | .storing k =>
    s.sd.bound ∧ s.sd.atRest ∧ k < s.latched.a1.toNat ∧
      s.latched.a0.toNat + s.latched.a1.toNat ≤ s.params.hbSize ∧ s.se.atRest
  | .close _ => SdWait.close.agrees s ∧ s.se.atRest

/-- Both units agree with the running command, or are at rest. -/
def State.unitsAgree (s : State) : Prop :=
  match s.running with
  | none => s.se.atRest ∧ s.sd.atRest
  | some (.se w) => s.se.state = .opened ∧ w.agrees s.latched.a1.toNat s.se ∧ s.sd.atRest
  | some (.sd w) => w.agrees s ∧ s.se.atRest
  | some (.ready r) => r.agrees s

/-- The invariant of the machine: BUSY shows that a command runs (R30, R202); FAULTED goes with a fault's
code (R200, R205); the host buffer keeps its form and lies below HB_SIZE (R60, R61); the units agree with what runs
(R38, R41). -/
structure State.Inv (s : State) : Prop where
  busy_eq : s.busy = s.running.isSome
  faulted_eq : s.faulted = s.code.isFault
  hb_wf : Memory.wf s.hb = true
  hb_below : Memory.below s.params.hbSize s.hb = true
  units : s.unitsAgree

/-- R46's table: the value of every register and unit field after reset. -/
structure State.HasResetValues (s : State) : Prop where
  arg : s.arg = ⟨0, 0, 0, 0⟩
  busy : s.busy = false
  faulted : s.faulted = false
  code : s.code = .ok
  res0 : s.res0 = 0
  res1 : s.res1 = 0
  se : s.se = { state := .idle, buf := ⟨0, 0, 0⟩, count := 0, line := 0 }
  sd : s.sd = { phase := .idle, acc := ⟨.val 0, .val 0, .val 0, .val 0⟩, count := 0, out := ⟨0, 0, 0⟩, nsig := 0,
                pos := 0, padded := false, srcidx := 0 }

/-- Input `i` answers the request a command waits on: the sink's answer to a sink request (20_memory.md R66), the source's
answer to a read and to a close (R67). -/
def Input.answers : Input → Waiting → Prop
  | .sinkAnswer _, .se _ => True
  | .readAnswer _, .sd w => w.request = .read
  | .closeAnswer _, .sd w => w.request = .close
  | _, _ => False

/-- Input `i` answers the pending request of `s`. -/
def State.awaits (s : State) (i : Input) : Prop := ∃ w, s.running = some w ∧ i.answers w

/-- The same arrival where the block acts on it at once. -/
def Arrival.atOnce : Arrival → Input
  | .cmdWrite w => .regWrite 0 w
  | .sinkAnswer a => .sinkAnswer a
  | .readAnswer a => .readAnswer a
  | .closeAnswer a => .closeAnswer a

/-- The ready command is an SD_READN, about to store bytes it has in its cache or about to take an answer, with `k` bytes
stored so far (44_stream_decoder.md R167). -/
def Ready.isReadN (k : Nat) : Ready → Prop
  | .command i => i = .sdReadn ∧ k = 0
  | .readN k' _ => k = k'
  | .storing k' => k = k'
  | _ => False

/-- `n` steps one after another. -/
def runSteps : Nat → State → Host.Outcome State Fault Refusal
  | 0, s => .next s
  | n + 1, s =>
    match step s with
    | .next t => runSteps n t
    | .fault r => .fault r
    | .refused r => .refused r

/-- The commands that make no port request (70_reset_and_hazards.md R230). -/
def portless : Instr → Prop
  | .encgrp _ | .decq | .benc | .bdec | .openSink | .openSource => True
  | .seWrite _ | .seWriten | .seFlush | .seClose | .sdRead | .sdReadn | .sdClose => False

/-- SE_WRITEN stands at a request of its loop (43_stream_encoder.md R145). -/
def SeWait.inWriteN : SeWait → Prop
  | .group _ _ (.many _ _) => True
  | .lineFeed (.many _ _) => True
  | _ => False

/-- Commands run one after another, each to its end (R68). -/
def runCommands : List Instr → State → Host.Outcome State Fault Refusal
  | [], s => .next s
  | i :: is, s =>
    match exec i s with
    | .next t => runCommands is t
    | .fault r => .fault r
    | .refused r => .refused r

/-- SD_READ, at most `n` times, until one completes with something other than OK: the words the earlier ones returned in
RES0, and the state at the end (44_stream_decoder.md R169). -/
def readWhileOk : Nat → State → List Word × State
  | 0, s => ([], s)
  | n + 1, s =>
    match exec .sdRead s with
    | .next t => if t.code = .ok then (t.res0 :: (readWhileOk n t).1, (readWhileOk n t).2) else ([], t)
    | .fault _ => ([], s)
    | .refused _ => ([], s)

/-- SE_WRITE of each byte in turn, until one completes with something other than OK: how many bytes the earlier ones
wrote, and the state at the end (43_stream_encoder.md R145). -/
def writeWhileOk : List Byte → State → Nat × State
  | [], s => (0, s)
  | b :: bs, s =>
    match exec (.seWrite b) s with
    | .next t => if t.code = .ok then ((writeWhileOk bs t).1 + 1, (writeWhileOk bs t).2) else (0, t)
    | .fault _ => (0, s)
    | .refused _ => (0, s)

/-- A byte the decoders skip (R125). -/
def isWhitespace (b : Byte) : Bool := cls b = .ws

/-- The bytes of a text that the decoders do not skip (R125). -/
def significant (text : List Byte) : List Byte := text.filter (fun c => !isWhitespace c)

/-- The symbol exchanges of a text sent to the sink with every request answered `Ack`. -/
def sent (text : List Byte) : List Exchange := text.map (fun b => .sink (.write b) (some .ack))

end Sys2Proof.Machine
end

