-- ==== Sys2Proof/Certificates/Slice0/Obligations.lean ====
section
/-! DEFINITION. The statements for the provers, each from a numbered rule of spec/. -/

open Sys2Proof Sys2Proof.Machine

/-! ## Command words -/

/-- R86's CMD words, line for line (the words written out there), stand for their commands. -/
def Obligations.SpecWordsDecodeToTheirCommands : Prop :=
  decode 0x00010001 = .ok (.encgrp 1) ∧ decode 0x00020001 = .ok (.encgrp 2) ∧ decode 0x00030001 = .ok (.encgrp 3) ∧
  decode 0x00000002 = .ok .decq ∧ decode 0x00000010 = .ok .benc ∧ decode 0x00000011 = .ok .bdec ∧
  decode 0x00000020 = .ok .openSink ∧ decode 0x00006121 = .ok (.seWrite 0x61) ∧ decode 0x00000022 = .ok .seWriten ∧
  decode 0x00000023 = .ok .seFlush ∧ decode 0x00000024 = .ok .seClose ∧ decode 0x00040030 = .ok .openSource ∧
  decode 0x00000031 = .ok .sdRead ∧ decode 0x00000032 = .ok .sdReadn ∧ decode 0x00000034 = .ok .sdClose

/-- R80–R83: no bit of a command's word is lost; decoding the word of a well-formed command gives it back. -/
def Obligations.DecodeOfEncodeIsTheCommand : Prop :=
  ∀ i : Instr, i.wellFormed = true → decode (encode i) = .ok i

/-- R80, R84: a word the decoder takes is well formed and is the one word of its command. -/
def Obligations.EncodeOfDecodeIsTheWord : Prop :=
  ∀ (w : Word) (i : Instr), decode w = .ok i → i.wellFormed = true ∧ encode i = w

/-- R85: at most one row of the table takes a word; a word no row takes is illegal, under a letter of R84 other than
(d); a word ENCGRP's row takes with CNT = 0 is illegal under (d); any other word that a row takes is that row's
command. -/
def Obligations.TableDecoderIsTheDecoder : Prop :=
  (∀ (w : Word) (r r' : Row), r ∈ opcodeTable → r' ∈ opcodeTable → r.takes w = true → r'.takes w = true →
    r.mnemonic = r'.mnemonic) ∧
  (∀ w : Word, (∀ r ∈ opcodeTable, r.takes w = false) ↔ ∃ e, decode w = .error e ∧ e ≠ .zeroCount) ∧
  (∀ (w : Word) (r : Row), r ∈ opcodeTable → r.takes w = true →
    if r.mnemonic = "ENCGRP" ∧ w.extractLsb' 16 2 = 0 then decode w = .error .zeroCount
    else decode w = .ok (r.read w)) ∧
  (∀ w : Word, decodeByTable w = (decode w).toOption)

/-- R84: a word is illegal exactly under its letters (a) to (e); writing one to CMD faults, and nothing but STATUS
changes, whether the fault comes at once or the block takes its time. That it may take its time, and that BUSY shows then and nothing
is latched, are the model's (logs 2 and 12). -/
def Obligations.IllegalWordsFaultAndChangeOnlyStatus : Prop :=
  (∀ w : Word, (∃ e, decode w = .error e) ↔ illegalWord w) ∧
  ∀ (w : Word) (s : State) (rest : List Input), illegalWord w → s.faulted = false → s.busy = false →
    s.running = none →
    (s.inputs = .regWrite 0 w :: rest →
      step s = .next { s with inputs := rest, faulted := true, code := .faultIllegalCmd }) ∧
    (s.inputs = .slowly (.cmdWrite w) :: .proceed :: rest →
      ∃ t, step s = .next t ∧
        t = { s with inputs := .proceed :: rest, busy := true, running := some (.ready .illegal) } ∧
        step t = .next { s with inputs := rest, faulted := true, code := .faultIllegalCmd })

/-! ## Issue, status, registers, reset -/

/-- R202, R230: the step of a CMD write on an idle block runs the decoded command, with ARG0–ARG3 latched and BUSY set.
Where the block takes its time, the command is issued, with its operands latched and BUSY set, and runs later, on those
operands (log 2). -/
def Obligations.StepRunsTheDecodedCommand : Prop :=
  (∀ (w : Word) (i : Instr) (s : State) (rest : List Input), decode w = .ok i → s.faulted = false → s.busy = false →
    (s.inputs = .regWrite 0 w :: rest → step s = exec i { s with inputs := rest, latched := s.arg, busy := true }) ∧
    (s.inputs = .slowly (.cmdWrite w) :: rest →
      step s = .next { s with
        inputs := rest, latched := s.arg, busy := true, running := some (.ready (.command i)) })) ∧
  ∀ (i : Instr) (s : State) (rest : List Input), s.running = some (.ready (.command i)) →
    s.inputs = .proceed :: rest → step s = exec i { s with inputs := rest, running := none }

/-- No command stops the model: every one answers a next state in every state. -/
def Obligations.EveryCommandAnswersNext : Prop :=
  ∀ (i : Instr) (s : State), ∃ t, exec i s = .next t

/-- R205, R206 (1, 2), R222: while FAULTED a CMD write is ignored; else, while BUSY, it raises FAULT_CMD_BUSY and leaves
the running command and BUSY alone, whether that command waits on a port or has still to run. -/
def Obligations.CmdWriteWhileFaultedOrBusy : Prop :=
  ∀ (w : Word) (s : State) (rest : List Input),
    s.inputs = .regWrite 0 w :: rest ∨ s.inputs = .slowly (.cmdWrite w) :: rest →
    (s.faulted = true → step s = .next { s with inputs := rest }) ∧
    (s.faulted = false → s.busy = true →
      step s = .next { s with inputs := rest, faulted := true, code := .faultCmdBusy })

/-- R205: a fault is sticky. Whatever input comes but reset, and where none comes, FAULTED stays set, and CODE, RES0 and
RES1 keep their values, also where a command that was running completes. That CODE keeps FAULT_CMD_BUSY also where the
running command then takes a fault of its own is the model's reading (log 24). -/
def Obligations.FaultIsStickyUntilReset : Prop :=
  ∀ (s t : State), s.faulted = true → (∀ rest, s.inputs ≠ .reset :: rest) → step s = .next t → t.faulted = true ∧ t.code = s.code ∧ t.res0 = s.res0 ∧ t.res1 = s.res1

/-- R46: what reset leaves, from any state and in `State.reset`: every register and unit field has its value of the
table, every register of the map reads 0, and the host buffer is unchanged. -/
def Obligations.ResetLeavesTheValuesOfTheTable : Prop :=
  (∀ (s : State) (rest : List Input), s.inputs = .reset :: rest →
    ∃ t, step s = .next t ∧ t.HasResetValues ∧ (∀ g : Reg, g.value t = 0) ∧ t.hb = s.hb) ∧
  State.reset.HasResetValues ∧ ∀ g : Reg, g.value State.reset = 0

/-- R220, R226: reset abandons a running command at once. The ports get no request; the exchanges that happened stay, and
a pending request stays unanswered; a command that takes its time has none. How the log records that, the operands' value 0
and what the other fields keep are the model's (log 3, 5, 6, 13, 14). -/
def Obligations.ResetAbandonsTheRunningCommand : Prop :=
  ∀ (s t : State) (rest : List Input), s.inputs = .reset :: rest → step s = .next t →
    t = { t with params := s.params, latched := ⟨0, 0, 0, 0⟩, hb := s.hb, running := none, log := t.log,
                 inputs := rest, readData := s.readData, draws := s.draws } ∧
    (s.running = none ∨ (∃ r, s.running = some (.ready r)) → t.log = s.log) ∧
    (∀ w, s.running = some (.se w) → t.log = s.log ++ [.sink w.request none]) ∧
    (s.running = some (.sd .read) ∨ (∃ k, s.running = some (.sd (.readN k))) → t.log = s.log ++ [.sourceRead none]) ∧
    (s.running = some (.sd .close) → t.log = s.log ++ [.sourceClose none])

/-- R29: an ARG write stores the word and nothing else, at any time, and a read returns the last value written. R37: the
reserved offsets 0x34–0xFC read 0, and writes to them and to the read-only registers (offsets 0x14–0x30) change nothing. -/
def Obligations.RegisterWritesByTheHost : Prop :=
  (∀ (s : State) (k : BitVec 6) (w : Word) (rest : List Input), 1 ≤ k → k ≤ 4 →
    s.inputs = .regWrite k w :: .regRead k :: rest →
    ∃ t, step s = .next t ∧
      t = { s with
            inputs := .regRead k :: rest
            arg := { a0 := if k = 1 then w else s.arg.a0
                     a1 := if k = 2 then w else s.arg.a1
                     a2 := if k = 3 then w else s.arg.a2
                     a3 := if k = 4 then w else s.arg.a3 } } ∧
      step t = .next { t with inputs := rest, readData := w }) ∧
  ∀ (s : State) (k : BitVec 6) (w : Word) (rest : List Input), 5 ≤ k →
    (s.inputs = .regWrite k w :: rest → step s = .next { s with inputs := rest }) ∧
    (13 ≤ k → s.inputs = .regRead k :: rest → step s = .next { s with inputs := rest, readData := 0 })

/-- R33, R35: SE_BUF and SD_OUT; and the fields of SE_STAT, SD_STAT and SD_SRCIDX (R32, R34, R36): what a read returns when
no command runs. CMD, STATUS with the codes' values of R200, RES0 and RES1 (R28, R30, R31) read so at any time: while
BUSY = 1, STATUS shows BUSY, and CODE, RES0 and RES1 are still the previous command's (R222). A read of a unit register
while BUSY = 1 returns a free value, a new one each time, and changes nothing else (R223); the counter is the model's
(log 5). -/
def Obligations.RegisterReadsShowTheirFields : Prop :=
  (∀ (s : State) (k : BitVec 6) (rest : List Input), s.inputs = .regRead k :: rest → k < 8 ∨ s.busy = false →
    ∃ t, step s = .next t ∧ t = { s with inputs := rest, readData := t.readData } ∧
      (k = 0 → t.readData = 0) ∧
      (k = 5 → t.readData.getLsbD 0 = s.busy ∧ t.readData.getLsbD 1 = s.faulted ∧ t.readData.extractLsb' 2 6 = 0 ∧
        t.readData.extractLsb' 16 16 = 0 ∧
        t.readData.extractLsb' 8 8 = match s.code with
          | .ok => 0x00 | .eos => 0x01 | .errMalformed => 0x10 | .errImproperPadding => 0x12 | .errUpstream => 0x13
          | .faultIllegalCmd => 0x80 | .faultNotOpen => 0x81 | .faultClosed => 0x82 | .faultUnitFailed => 0x83
          | .faultUnitBusy => 0x84 | .faultRange => 0x85 | .faultCmdBusy => 0x86) ∧
      (k = 6 → t.readData = s.res0) ∧ (k = 7 → t.readData = s.res1) ∧
      (k = 8 → (t.readData.extractLsb' 0 2 = match s.se.state with
          | .idle => 0 | .opened => 1 | .closed => 2 | .failed => 3) ∧ t.readData.extractLsb' 2 2 = 0 ∧
        t.readData.extractLsb' 4 2 = s.se.count ∧ t.readData.extractLsb' 6 2 = 0 ∧
        t.readData.extractLsb' 8 7 = s.se.line ∧ t.readData.extractLsb' 15 17 = 0) ∧
      (k = 9 → t.readData = (0 : BitVec 8) ++ s.se.buf.b2 ++ s.se.buf.b1 ++ s.se.buf.b0) ∧
      (k = 10 → (t.readData.extractLsb' 0 3 = match s.sd.phase with
          | .idle => 0 | .empty => 1 | .ready => 2 | .exhausted => 3 | .closed => 4 | .failed => 5) ∧
        t.readData.extractLsb' 3 1 = 0 ∧
        t.readData.extractLsb' 4 3 = s.sd.count ∧ t.readData.extractLsb' 7 1 = 0 ∧
        t.readData.extractLsb' 8 2 = s.sd.pos ∧ t.readData.extractLsb' 10 2 = 0 ∧
        t.readData.extractLsb' 12 2 = s.sd.nsig ∧ t.readData.extractLsb' 14 2 = 0 ∧
        t.readData.getLsbD 16 = s.sd.padded ∧ t.readData.extractLsb' 17 15 = 0) ∧
      (k = 11 → t.readData = (0 : BitVec 8) ++ s.sd.out.b2 ++ s.sd.out.b1 ++ s.sd.out.b0) ∧
      (k = 12 → t.readData = s.sd.srcidx)) ∧
  ∀ (s : State) (k : BitVec 6) (rest : List Input), s.busy = true → 8 ≤ k → k ≤ 12 → s.inputs = .regRead k :: rest →
    step s = .next { s with inputs := rest, readData := Config.busyRead s.draws, draws := s.draws + 1 }

/-- R60: a byte the host writes to HB is read back, and every other byte stays. R74: the ranges in use are exactly
those the running command's operands name, from its CMD write on, whether it has begun or not, waits on a port or takes its
time: SE_WRITEN's and SD_READN's data range, BENC's and BDEC's source and destination. No other command has a range, and
where none runs no byte is in use. The two stops are the model's, on host moves that do not
exist (log 8, log 9). -/
def Obligations.HostBufferAccessByTheHost : Prop :=
  (∀ (s : State) (a : Word) (b : Byte) (rest : List Input),
    (s.inputs = .hbWrite a b :: rest → a.toNat < s.params.hbSize → inUse s a.toNat = false →
      ∃ t, step s = .next t ∧ t = { s with inputs := rest, hb := t.hb } ∧ Memory.read t.hb a.toNat = b ∧
        ∀ x, x ≠ a.toNat → Memory.read t.hb x = Memory.read s.hb x) ∧
    (s.inputs = .hbRead a :: rest → a.toNat < s.params.hbSize → inUse s a.toNat = false →
      step s = .next { s with inputs := rest, readData := (Memory.read s.hb a.toNat).setWidth 32 }) ∧
    (s.inputs = .hbWrite a b :: rest ∨ s.inputs = .hbRead a :: rest → s.params.hbSize ≤ a.toNat →
      step s = .fault .hbOffsetAbsent) ∧
    (s.inputs = .hbWrite a b :: rest ∨ s.inputs = .hbRead a :: rest → a.toNat < s.params.hbSize →
      inUse s a.toNat = true → step s = .refused .hbRangeInUse)) ∧
  ∀ (s : State) (a : Nat), inUse s a = true ↔
    (((∃ i, s.running = some (.ready (.command i)) ∧ (i = .benc ∨ i = .bdec ∨ i = .seWriten ∨ i = .sdReadn)) ∨
        (∃ w, (s.running = some (.se w) ∨ ∃ x, s.running = some (.ready (.sink w x))) ∧ w.inWriteN) ∨
        (∃ k, s.running = some (.sd (.readN k)) ∨ (∃ x, s.running = some (.ready (.readN k x))) ∨
          s.running = some (.ready (.storing k)))) ∧
      s.latched.a0.toNat ≤ a ∧ a < s.latched.a0.toNat + s.latched.a1.toNat) ∨
    ((∃ i, s.running = some (.ready (.command i)) ∧ (i = .benc ∨ i = .bdec)) ∧
      s.latched.a2.toNat ≤ a ∧ a < s.latched.a2.toNat + s.latched.a3.toNat)

/-! ## The invariant -/

/-- The machine right after reset meets the invariant, whatever the parameters. -/
def Obligations.ResetMeetsTheInvariant : Prop :=
  ∀ p : Params, State.Inv { State.reset with params := p }

/-- R38, R41, R200, R202, R60: every step keeps the invariant: BUSY shows a waiting command, FAULTED goes with a fault
code, HB keeps its form below HB_SIZE, an Open encoder at rest holds 0–2 bytes and a line count 0, 4, …, 72, a bound
decoder at rest holds no symbol, and a Ready one has a byte to serve. -/
def Obligations.StepKeepsTheInvariant : Prop :=
  ∀ s t : State, s.Inv → step s = .next t → t.Inv

/-! ## Alphabet tables -/

/-- R21: the ranges that fix the Symbol Table. R23, R24: a byte's class is read from its low 7 bits: `Val(v)` exactly for
SYM[v], PAD exactly for `=`, WS exactly for tab, line-feed, carriage return and space, INV for every other code. -/
def Obligations.AlphabetTablesByTheirRanges : Prop :=
  (∀ v : Sextet,
    (v.toNat < 26 → symOf v = 0x41 + v.setWidth 8) ∧
    (26 ≤ v.toNat → v.toNat < 52 → symOf v = 0x61 + (v.setWidth 8 - 26)) ∧
    (52 ≤ v.toNat → v.toNat < 62 → symOf v = 0x30 + (v.setWidth 8 - 52)) ∧
    (v.toNat = 62 → symOf v = 0x2B) ∧ (v.toNat = 63 → symOf v = 0x2F)) ∧
  (∀ (b : Byte) (v : Sextet), cls b = .sym (.val v) ↔ b &&& 0x7F = symOf v) ∧
  (∀ b : Byte, cls b = .sym .pad ↔ b &&& 0x7F = 0x3D) ∧
  (∀ b : Byte, cls b = .ws ↔ (b &&& 0x7F = 0x09 ∨ b &&& 0x7F = 0x0A ∨ b &&& 0x7F = 0x0D ∨ b &&& 0x7F = 0x20)) ∧
  (∀ b : Byte, cls b = .inv ↔
    ((∀ v, b &&& 0x7F ≠ symOf v) ∧ b &&& 0x7F ≠ 0x3D ∧ b &&& 0x7F ≠ 0x09 ∧ b &&& 0x7F ≠ 0x0A ∧
      b &&& 0x7F ≠ 0x0D ∧ b &&& 0x7F ≠ 0x20))

/-! ## Group codec -/

/-- R102, R103, R100: what ENCGRP leaves in RES0 for each CNT, bit for bit from A0: s0 = SYM[b0[7:2]],
s1 = SYM[b0[1:0] || b1[7:4]], s2 = SYM[b1[3:0] || b2[7:6]], s3 = SYM[b2[5:0]], absent bytes zero, the last 3 − CNT
symbols `=`; nothing else changes. -/
def Obligations.EncgrpPacksTheGroup : Prop :=
  (decode 0x00010001 = .ok (.encgrp 1) ∧ decode 0x00020001 = .ok (.encgrp 2) ∧ decode 0x00030001 = .ok (.encgrp 3)) ∧
  ∀ (s : State) (n : BitVec 2), s.faulted = false → n ≠ 0 →
    exec (.encgrp n) s = .next { s with
      code := .ok
      res0 :=
        (if n = 3 then symOf (s.latched.a0.extractLsb' 16 6) else 0x3D) ++
        (if n = 3 then symOf (s.latched.a0.extractLsb' 8 4 ++ s.latched.a0.extractLsb' 22 2)
         else if n = 2 then symOf (s.latched.a0.extractLsb' 8 4 ++ (0 : BitVec 2)) else 0x3D) ++
        (if n = 1 then symOf (s.latched.a0.extractLsb' 0 2 ++ (0 : BitVec 4))
         else symOf (s.latched.a0.extractLsb' 0 2 ++ s.latched.a0.extractLsb' 12 4)) ++
        symOf (s.latched.a0.extractLsb' 2 6)
      res1 := 0
      busy := false
      running := none }

/-- R104: the quartets that are misplaced padding, and the bytes of the three legal forms, each byte named by the bits
of the symbols it comes from. -/
def Obligations.DecodeQuartetByItsForms : Prop :=
  (∀ c0 c1 c2 c3 : Sym, decodeQuartet c0 c1 c2 c3 = .badPad ↔ (c0 = .pad ∨ c1 = .pad ∨ (c2 = .pad ∧ c3 ≠ .pad))) ∧
  (∀ v0 v1 : Sextet, decodeQuartet (.val v0) (.val v1) .pad .pad = .ok [v0 ++ v1.extractLsb' 4 2] 1) ∧
  (∀ v0 v1 v2 : Sextet, decodeQuartet (.val v0) (.val v1) (.val v2) .pad =
    .ok [v0 ++ v1.extractLsb' 4 2, v1.extractLsb' 0 4 ++ v2.extractLsb' 2 4] 2) ∧
  (∀ v0 v1 v2 v3 : Sextet, decodeQuartet (.val v0) (.val v1) (.val v2) (.val v3) =
    .ok [v0 ++ v1.extractLsb' 4 2, v1.extractLsb' 0 4 ++ v2.extractLsb' 2 4, v2.extractLsb' 0 2 ++ v3] 3)

/-- R106: the word of DECQ, and how DECQ ends. A symbol that is whitespace or invalid is ERR_MALFORMED at the lowest such index; misplaced
padding is ERR_MALFORMED at index 3 with RES1[8] = 1; else the bytes are packed in RES0 and counted in RES1. Nothing
else changes. -/
def Obligations.DecqDecodesTheQuartet : Prop :=
  decode 0x00000002 = .ok .decq ∧
  ∀ s : State, s.faulted = false →
    (∀ c0 c1 c2 c3, cls (byte0 s.latched.a0) = .sym c0 → cls (byte1 s.latched.a0) = .sym c1 →
      cls (byte2 s.latched.a0) = .sym c2 → cls (byte3 s.latched.a0) = .sym c3 →
      match decodeQuartet c0 c1 c2 c3 with
      | .ok bytes n => exec .decq s = .next { s with
          code := .ok, res0 := packBytes bytes, res1 := n.setWidth 32, busy := false, running := none }
      | .badPad => exec .decq s = .next { s with
          code := .errMalformed, res0 := 3, res1 := (0 : BitVec 23) ++ (1 : BitVec 1) ++ byte3 s.latched.a0,
          busy := false, running := none }) ∧
    (∀ k : Nat, k < 4 → (∀ j, j < k → ∃ c, cls (s.latched.a0.extractLsb' (8 * j) 8) = .sym c) →
      (∀ c, cls (s.latched.a0.extractLsb' (8 * k) 8) ≠ .sym c) →
      exec .decq s = .next { s with
        code := .errMalformed, res0 := BitVec.ofNat 32 k,
        res1 := (0 : BitVec 24) ++ s.latched.a0.extractLsb' (8 * k) 8, busy := false, running := none })

/-- R101(d) on the machine: a DECQ of ENCGRP's result gives back the CNT significant bytes, zero past them, and CNT. -/
def Obligations.DecqUndoesEncgrp : Prop :=
  ∀ (s t : State) (n : BitVec 2), s.faulted = false → n ≠ 0 → exec (.encgrp n) s = .next t →
    ∃ u, exec .decq { t with latched := { t.latched with a0 := t.res0 } } = .next u ∧ u.code = .ok ∧
      u.res1 = n.setWidth 32 ∧
      u.res0 = (if n = 1 then s.latched.a0 &&& 0xFF
        else if n = 2 then s.latched.a0 &&& 0xFFFF else s.latched.a0 &&& 0xFFFFFF)

/-! ## Bulk codec -/

/-- R129(a): the bulk round trip, under both values of BULK_TAIL_POLICY. -/
def Obligations.BulkRoundTrip : Prop :=
  ∀ (p : TailPolicy) (b : List Byte), bulkDecode p (bulkEncode b) = .ok b

/-- R123: the output length, symbols and line-feeds; the line-feed term is ⌊L/57⌋. -/
def Obligations.BulkEncodeLength : Prop :=
  ∀ b : List Byte,
    (bulkEncode b).length = 4 * ((b.length + 2) / 3) + (4 * b.length / 3) / 76 ∧
    (4 * b.length / 3) / 76 = b.length / 57 ∧ b.length / 57 = (b.length / 3) / 19 ∧
    ((bulkEncode b).filter (fun c => c = 0x3D)).length = (3 - b.length % 3) % 3

/-- R121: the line-feeds stand exactly after every 76 symbols, one for each 19 full groups (57 bytes), so that none
follows a final partial group. -/
def Obligations.LineFeedsAfterEvery76Symbols : Prop :=
  ∀ b : List Byte,
    (∀ (k : Nat) (c : Byte), (bulkEncode b)[k]? = some c → (c = 0x0A ↔ k % 77 = 76)) ∧
    ((bulkEncode b).filter (fun c => c = 0x0A)).length = b.length / 3 / 19

/-- R129(b), R125: whitespace inserted anywhere in encoded text does not change what it decodes to. -/
def Obligations.BulkDecodeIgnoresWhitespace : Prop :=
  ∀ (p : TailPolicy) (b t : List Byte),
    significant t = significant (bulkEncode b) →
    bulkDecode p t = .ok b

/-- R127, R129(c): the first invalid byte, with no padded quartet complete before it, is reported by its position and raw
value, and nothing is decoded. The quartets complete before it hold no padding (a padded one would have ended the text, and
a misplaced padding failed it); the symbols of the quartet it falls in may. -/
def Obligations.BulkDecodeRejectsInvalidBytes : Prop :=
  ∀ (p : TailPolicy) (front part rest : List Byte) (b : Byte),
    (∀ c ∈ front, cls c ≠ .inv ∧ cls c ≠ .sym .pad) → (significant front).length % 4 = 0 →
    (∀ c ∈ part, cls c ≠ .inv) → (significant part).length ≤ 3 → cls b = .inv →
    bulkDecode p (front ++ part ++ b :: rest) =
      .err .errMalformed (BitVec.ofNat 32 (front ++ part).length) (b.setWidth 32)

/-- R128: 1–3 symbols left over at the end of the input, behind complete quartets without padding. Under DROP they are
discarded and the bytes of the complete quartets are returned; under ERROR the call fails with ERR_IMPROPER_PADDING and
their number. On every other input the two policies agree. -/
def Obligations.BulkTailPolicies : Prop :=
  (∀ front tail : List Byte, (∀ c ∈ front, cls c ≠ .inv ∧ cls c ≠ .sym .pad) → (significant front).length % 4 = 0 →
    (∀ c ∈ tail, cls c ≠ .inv) → 1 ≤ (significant tail).length → (significant tail).length ≤ 3 →
    ∃ out, bulkDecode .error front = .ok out ∧ bulkDecode .drop (front ++ tail) = .ok out ∧
      bulkDecode .error (front ++ tail) =
        .err .errImproperPadding (BitVec.ofNat 32 (significant tail).length) 0) ∧
  ∀ t : List Byte, bulkDecode .drop t = bulkDecode .error t ∨
    ∃ front tail : List Byte, t = front ++ tail ∧ (∀ c ∈ front, cls c ≠ .inv ∧ cls c ≠ .sym .pad) ∧
      (significant front).length % 4 = 0 ∧ (∀ c ∈ tail, cls c ≠ .inv) ∧ 1 ≤ (significant tail).length ∧
      (significant tail).length ≤ 3

/-- R122: the word of BENC, and what it does. A range that is not admitted is FAULT_RANGE. With both admitted the output
lands at A2 and its length in RES0, and every other byte of HB stays, also where the ranges overlap; an output longer than
A3 is FAULT_RANGE with nothing written. -/
def Obligations.BencEncodesTheRange : Prop :=
  decode 0x00000010 = .ok .benc ∧
  (∀ s : State, s.faulted = false → admitted s.params s.latched.a0 s.latched.a1 = false ∨
      admitted s.params s.latched.a2 s.latched.a3 = false →
    exec .benc s = .next { s with faulted := true, code := .faultRange, busy := false, running := none }) ∧
  ∀ s : State, s.faulted = false → admitted s.params s.latched.a0 s.latched.a1 = true →
    admitted s.params s.latched.a2 s.latched.a3 = true →
    ∀ out, out = bulkEncode (Memory.readRange s.hb s.latched.a0.toNat s.latched.a1.toNat) →
    (out.length ≤ s.latched.a3.toNat →
      ∃ t, exec .benc s = .next t ∧
        t = { s with
              code := .ok, res0 := BitVec.ofNat 32 out.length, res1 := 0, busy := false, running := none,
              hb := t.hb } ∧
        (∀ k c, out[k]? = some c → Memory.read t.hb (s.latched.a2.toNat + k) = c) ∧
        (∀ a, a < s.latched.a2.toNat ∨ s.latched.a2.toNat + out.length ≤ a →
          Memory.read t.hb a = Memory.read s.hb a)) ∧
    (s.latched.a3.toNat < out.length →
      exec .benc s = .next { s with faulted := true, code := .faultRange, busy := false, running := none })

/-- R130: the word of BDEC, and what it does. A range that is not admitted is FAULT_RANGE. A decode error completes with
its values and writes nothing, before the capacity is looked at; else as BENC. -/
def Obligations.BdecDecodesTheRange : Prop :=
  decode 0x00000011 = .ok .bdec ∧
  (∀ s : State, s.faulted = false → admitted s.params s.latched.a0 s.latched.a1 = false ∨
      admitted s.params s.latched.a2 s.latched.a3 = false →
    exec .bdec s = .next { s with faulted := true, code := .faultRange, busy := false, running := none }) ∧
  ∀ s : State, s.faulted = false → admitted s.params s.latched.a0 s.latched.a1 = true →
    admitted s.params s.latched.a2 s.latched.a3 = true →
    match bulkDecode s.params.bulkTailPolicy (Memory.readRange s.hb s.latched.a0.toNat s.latched.a1.toNat) with
    | .err c x y => exec .bdec s = .next { s with code := c, res0 := x, res1 := y, busy := false, running := none }
    | .ok out =>
      (out.length ≤ s.latched.a3.toNat →
        ∃ t, exec .bdec s = .next t ∧
          t = { s with
                code := .ok, res0 := BitVec.ofNat 32 out.length, res1 := 0, busy := false, running := none,
                hb := t.hb } ∧
          (∀ k c, out[k]? = some c → Memory.read t.hb (s.latched.a2.toNat + k) = c) ∧
          (∀ a, a < s.latched.a2.toNat ∨ s.latched.a2.toNat + out.length ≤ a →
            Memory.read t.hb a = Memory.read s.hb a)) ∧
      (s.latched.a3.toNat < out.length →
        exec .bdec s = .next { s with faulted := true, code := .faultRange, busy := false, running := none })

/-- R61: a range `(a, n)` that is not admitted (`a + n > HB_SIZE` in unbounded integers) is FAULT_RANGE before any HB
access or port request, in each of the four commands that have one; on a bound unit for the stream commands. -/
def Obligations.RangeNotAdmittedFaults : Prop :=
  (∀ (p : Params) (a n : Word), admitted p a n = true ↔ a.toNat + n.toNat ≤ p.hbSize) ∧
  ∀ (s : State) (i : Instr), s.faulted = false →
    ((i = .benc ∨ i = .bdec) ∧
        (s.params.hbSize < s.latched.a0.toNat + s.latched.a1.toNat ∨
          s.params.hbSize < s.latched.a2.toNat + s.latched.a3.toNat)) ∨
      (i = .seWriten ∧ s.se.state = .opened ∧ s.params.hbSize < s.latched.a0.toNat + s.latched.a1.toNat) ∨
      (i = .sdReadn ∧ s.sd.bound ∧ s.params.hbSize < s.latched.a0.toNat + s.latched.a1.toNat) →
    exec i s = .next { s with faulted := true, code := .faultRange, busy := false, running := none }

/-! ## Stream Encoder -/

/-- R140: the word of OPEN_SINK (with DIR = 1 it is illegal). It binds the unit with an empty buffer from Idle, Closed or Failed, and is FAULT_UNIT_BUSY when Open;
no sink request is made. -/
def Obligations.OpenSinkBindsTheUnit : Prop :=
  decode 0x00000020 = .ok .openSink ∧ (∃ e, decode 0x00040020 = .error e) ∧
  ∀ s : State,
    (s.se.state ≠ .opened → s.faulted = false → exec .openSink s = .next { s with
      se := { state := .opened, buf := ⟨0, 0, 0⟩, count := 0, line := 0 }
      code := .ok, res0 := 0, res1 := 0, busy := false, running := none }) ∧
    (s.se.state = .opened → s.faulted = false → exec .openSink s = .next { s with
      faulted := true, code := .faultUnitBusy, busy := false, running := none })

/-- R141: every SE command but OPEN_SINK, on a unit that is not Open, faults by the unit's state and does nothing
else. -/
def Obligations.SinkCommandsNeedAnOpenUnit : Prop :=
  ∀ (s : State) (i : Instr), ((∃ b, i = .seWrite b) ∨ i = .seWriten ∨ i = .seFlush ∨ i = .seClose) →
    s.faulted = false →
    (s.se.state = .idle → exec i s = .next { s with
      faulted := true, code := .faultNotOpen, busy := false, running := none }) ∧
    (s.se.state = .closed → exec i s = .next { s with
      faulted := true, code := .faultClosed, busy := false, running := none }) ∧
    (s.se.state = .failed → exec i s = .next { s with
      faulted := true, code := .faultUnitFailed, busy := false, running := none })

/-- R142, R143, R144: SE_WRITE by the count of bytes held. The first and the second byte of a group are only stored, and
no sink request is made. The third byte sends the group's four symbols, and a line-feed where they fill the line of 76; the
count goes to 0 and the line counter up by 4, or to 0. All sink requests answered Ack. -/
def Obligations.SeWriteByTheBytesHeld : Prop :=
  ∀ (s : State) (b : Byte) (rest : List Input), s.running = none → s.faulted = false → s.se.state = .opened →
    (s.se.count = 0 → exec (.seWrite b) s = .next { s with
      se := { s.se with buf := { s.se.buf with b0 := b }, count := 1 }
      code := .ok, res0 := 0, res1 := 0, busy := false }) ∧
    (s.se.count = 1 → exec (.seWrite b) s = .next { s with
      se := { s.se with buf := { s.se.buf with b1 := b }, count := 2 }
      code := .ok, res0 := 0, res1 := 0, busy := false }) ∧
    (s.se.count = 2 → s.se.line.toNat < 72 → s.inputs = List.replicate 4 (.sinkAnswer .ack) ++ rest →
      exec (.seWrite b) s = .next { s with
        se := { s.se with buf := { s.se.buf with b2 := b }, count := 0, line := s.se.line + 4 }
        log := s.log ++ sent (encodeGroup s.se.buf.b0 s.se.buf.b1 b 3)
        inputs := rest
        code := .ok, res0 := 0, res1 := 0, busy := false }) ∧
    (s.se.count = 2 → s.se.line = 72 → s.inputs = List.replicate 5 (.sinkAnswer .ack) ++ rest →
      exec (.seWrite b) s = .next { s with
        se := { s.se with buf := { s.se.buf with b2 := b }, count := 0, line := 0 }
        log := s.log ++ sent (encodeGroup s.se.buf.b0 s.se.buf.b1 b 3 ++ [0x0A])
        inputs := rest
        code := .ok, res0 := 0, res1 := 0, busy := false })

/-- R145: SE_WRITEN does what SE_WRITE of each byte of its range in turn does. Where all are written, RES0 = A1; where one
fails, the code and RES0 are its, and RES1 counts the bytes fully consumed before it. The sink answers Ack to enough
requests, or Ack up to a failure. -/
def Obligations.SeWritenIsSeWriteOfEachByte : Prop :=
  ∀ (s : State) (n : Nat) (rest : List Input), s.running = none → s.faulted = false → s.se.state = .opened →
    s.se.atRest → admitted s.params s.latched.a0 s.latched.a1 = true →
    (5 * s.latched.a1.toNat ≤ n ∨ ∃ e rest', rest = .sinkAnswer (.fail e) :: rest') →
    s.inputs = List.replicate n (.sinkAnswer .ack) ++ rest →
    ∃ t, exec .seWriten s = .next t ∧
      ∀ k u, writeWhileOk (Memory.readRange s.hb s.latched.a0.toNat s.latched.a1.toNat) s = (k, u) →
        t = { u with code := t.code, res0 := t.res0, res1 := t.res1, busy := false, running := none } ∧
        (if k = s.latched.a1.toNat then t.code = .ok ∧ t.res0 = s.latched.a1 ∧ t.res1 = 0
          else t.code = .errUpstream ∧ t.res0 = u.res0 ∧ t.res1 = BitVec.ofNat 32 k)

/-- R146: SE_FLUSH sends the padded partial group where 1 or 2 bytes are held, then the flush, and changes no SE
field. -/
def Obligations.SeFlushSendsThePaddedGroup : Prop :=
  ∀ (s : State) (rest : List Input), s.running = none → s.faulted = false → s.se.state = .opened →
    ((s.se.count = 1 ∨ s.se.count = 2) → s.inputs = List.replicate 5 (.sinkAnswer .ack) ++ rest →
      exec .seFlush s = .next { s with
        log := s.log ++ sent (encodeGroup s.se.buf.b0 s.se.buf.b1 s.se.buf.b2 s.se.count) ++
          [.sink .flush (some .ack)]
        inputs := rest, code := .ok, res0 := 0, res1 := 0, busy := false }) ∧
    (s.se.count = 0 → s.inputs = .sinkAnswer .ack :: rest →
      exec .seFlush s = .next { s with
        log := s.log ++ [.sink .flush (some .ack)]
        inputs := rest, code := .ok, res0 := 0, res1 := 0, busy := false })

/-- R147: SE_CLOSE makes the flush's requests, then closes the sink and the unit; its other fields stay. -/
def Obligations.SeCloseFlushesThenCloses : Prop :=
  ∀ (s : State) (rest : List Input), s.running = none → s.faulted = false → s.se.state = .opened →
    ((s.se.count = 1 ∨ s.se.count = 2) → s.inputs = List.replicate 6 (.sinkAnswer .ack) ++ rest →
      exec .seClose s = .next { s with
        se := { s.se with state := .closed }
        log := s.log ++ sent (encodeGroup s.se.buf.b0 s.se.buf.b1 s.se.buf.b2 s.se.count) ++
          [.sink .flush (some .ack), .sink .close (some .ack)]
        inputs := rest, code := .ok, res0 := 0, res1 := 0, busy := false }) ∧
    (s.se.count = 0 → s.inputs = [.sinkAnswer .ack, .sinkAnswer .ack] ++ rest →
      exec .seClose s = .next { s with
        se := { s.se with state := .closed }
        log := s.log ++ [.sink .flush (some .ack), .sink .close (some .ack)]
        inputs := rest, code := .ok, res0 := 0, res1 := 0, busy := false })

/-- R148, R203, R205: a `Fail(e)` answer to any sink request ends the command there: ERR_UPSTREAM with the code `e` of
UPSTREAM_CODE_W bits in RES0 (and in RES1 the bytes SE_WRITEN fully consumed), the unit Failed with its other fields as they
were, no further request. After a FAULT_CMD_BUSY the same happens and STATUS.CODE, RES0 and RES1 are not written. -/
def Obligations.SinkFailureEndsTheCommand : Prop :=
  ∀ (s : State) (w : SeWait) (e : Word) (rest : List Input), s.running = some (.se w) →
    e.toNat < 2 ^ s.params.upstreamCodeW → s.inputs = .sinkAnswer (.fail e) :: rest →
    step s = .next { s with
      se := { s.se with state := .failed }
      log := s.log ++ [.sink w.request (some (.fail e))]
      inputs := rest, busy := false, running := none
      code := if s.faulted then s.code else .errUpstream
      res0 := if s.faulted then s.res0 else e
      res1 := if s.faulted then s.res1 else match w with
        | .group _ _ (.many k _) => BitVec.ofNat 32 k
        | .lineFeed (.many k _) => BitVec.ofNat 32 k
        | _ => 0 }

/-- R149: SE_WRITE of each byte of `b` on a unit just opened, then SE_FLUSH or SE_CLOSE, with every request answered
Ack, sends exactly the bulk encoding of `b`, then one flush, and then one close for SE_CLOSE. The same for one SE_WRITEN of
a range that holds `b`. -/
def Obligations.StreamEncoderSendsTheBulkEncoding : Prop :=
  ∀ (s : State) (b : List Byte) (n : Nat), s.running = none → s.faulted = false →
    s.se = { state := .opened, buf := ⟨0, 0, 0⟩, count := 0, line := 0 } → (bulkEncode b).length + 2 ≤ n →
    s.inputs = List.replicate n (.sinkAnswer .ack) →
    (∃ t, runCommands (b.map Instr.seWrite ++ [.seFlush]) s = .next t ∧ t.code = .ok ∧
      t.log = s.log ++ sent (bulkEncode b) ++ [.sink .flush (some .ack)]) ∧
    (∃ t, runCommands (b.map Instr.seWrite ++ [.seClose]) s = .next t ∧ t.code = .ok ∧ t.se.state = .closed ∧
      t.log = s.log ++ sent (bulkEncode b) ++ [.sink .flush (some .ack), .sink .close (some .ack)]) ∧
    (admitted s.params s.latched.a0 s.latched.a1 = true →
      Memory.readRange s.hb s.latched.a0.toNat s.latched.a1.toNat = b →
      (∃ t, runCommands [.seWriten, .seFlush] s = .next t ∧ t.code = .ok ∧
        t.log = s.log ++ sent (bulkEncode b) ++ [.sink .flush (some .ack)]) ∧
      (∃ t, runCommands [.seWriten, .seClose] s = .next t ∧ t.code = .ok ∧ t.se.state = .closed ∧
        t.log = s.log ++ sent (bulkEncode b) ++ [.sink .flush (some .ack), .sink .close (some .ack)]))

/-! ## Stream Decoder -/

/-- R160: the word of OPEN_SOURCE (with DIR = 0 it is illegal). It clears every SD field and binds the unit from Idle, Closed or Failed, and is FAULT_UNIT_BUSY when
it is bound; no source request is made. -/
def Obligations.OpenSourceBindsTheUnit : Prop :=
  decode 0x00040030 = .ok .openSource ∧ (∃ e, decode 0x00000030 = .error e) ∧
  ∀ s : State,
    (¬ s.sd.bound → s.faulted = false → exec .openSource s = .next { s with
      sd := { phase := .empty, acc := ⟨.val 0, .val 0, .val 0, .val 0⟩, count := 0, out := ⟨0, 0, 0⟩, nsig := 0,
              pos := 0, padded := false, srcidx := 0 }
      code := .ok, res0 := 0, res1 := 0, busy := false, running := none }) ∧
    (s.sd.bound → s.faulted = false → exec .openSource s = .next { s with
      faulted := true, code := .faultUnitBusy, busy := false, running := none })

/-- R161: every SD command but OPEN_SOURCE, on a unit that is not bound, faults by the unit's phase and does nothing
else. -/
def Obligations.SourceCommandsNeedABoundUnit : Prop :=
  ∀ (s : State) (i : Instr), (i = .sdRead ∨ i = .sdReadn ∨ i = .sdClose) → s.faulted = false →
    (s.sd.phase = .idle → exec i s = .next { s with
      faulted := true, code := .faultNotOpen, busy := false, running := none }) ∧
    (s.sd.phase = .closed → exec i s = .next { s with
      faulted := true, code := .faultClosed, busy := false, running := none }) ∧
    (s.sd.phase = .failed → exec i s = .next { s with
      faulted := true, code := .faultUnitFailed, busy := false, running := none })

/-- R163: an SD_READ of a Ready unit serves the next cached byte without a source request; the last one leaves the unit
Exhausted where the quartet held padding and Empty where it did not, and the cache keeps its values. -/
def Obligations.SdReadServesTheCachedByte : Prop :=
  ∀ s : State, s.faulted = false → s.sd.phase = .ready → s.sd.pos.toNat < s.sd.nsig.toNat →
    exec .sdRead s = .next { s with
      sd := { s.sd with
        pos := s.sd.pos + 1
        phase := if s.sd.pos.toNat + 1 < s.sd.nsig.toNat then .ready
          else if s.sd.padded then .exhausted else .empty }
      code := .ok
      res0 := (0 : BitVec 24) ++
        (if s.sd.pos = 0 then s.sd.out.b0 else if s.sd.pos = 1 then s.sd.out.b1 else s.sd.out.b2)
      res1 := 0, busy := false, running := none }

/-- R162, R166: an Exhausted unit gives EOS again and again, without a source request; SD_READN too, unless it asks for
nothing (R167). -/
def Obligations.ExhaustedUnitGivesEndOfStream : Prop :=
  ∀ s : State, s.running = none → s.faulted = false → s.sd.phase = .exhausted →
    exec .sdRead s = .next { s with code := .eos, res0 := 0, res1 := 0, busy := false } ∧
    (admitted s.params s.latched.a0 s.latched.a1 = true → s.latched.a1 ≠ 0 →
      exec .sdReadn s = .next { s with code := .eos, res0 := 0, res1 := 0, busy := false })

/-- R164, R163: an SD_READ of an Empty unit whose source gives four symbols, whitespace anywhere before and between them
skipped, decodes the quartet, caches it and serves its first byte. -/
def Obligations.SdReadDecodesAQuartet : Prop :=
  ∀ (s : State) (w0 w1 w2 w3 : List Byte) (r0 r1 r2 r3 : Byte) (c0 c1 c2 c3 : Sym) (bytes : List Byte)
    (n : BitVec 2) (rest : List Input), s.running = none → s.faulted = false → s.sd.phase = .empty →
    s.sd.count = 0 → (∀ c ∈ w0 ++ w1 ++ w2 ++ w3, cls c = .ws) →
    cls r0 = .sym c0 → cls r1 = .sym c1 → cls r2 = .sym c2 → cls r3 = .sym c3 →
    decodeQuartet c0 c1 c2 c3 = .ok bytes n →
    s.inputs = (w0 ++ r0 :: w1 ++ r1 :: w2 ++ r2 :: w3 ++ [r3]).map (fun b => Input.readAnswer (.byte b)) ++ rest →
    ∃ t, exec .sdRead s = .next t ∧
      t = { s with
        sd := { phase := if n = 1 then (if c3 = .pad then .exhausted else .empty) else .ready
                acc := ⟨c0, c1, c2, c3⟩
                count := 0
                out := ⟨bytes.getD 0 0, bytes.getD 1 0, bytes.getD 2 0⟩
                nsig := n
                pos := 1
                padded := decide (c3 = .pad)
                srcidx := s.sd.srcidx + BitVec.ofNat 32 (w0.length + w1.length + w2.length + w3.length + 4) }
        log := s.log ++ (w0 ++ r0 :: w1 ++ r1 :: w2 ++ r2 :: w3 ++ [r3]).map
          (fun b => Exchange.sourceRead (some (.byte b)))
        inputs := rest
        code := .ok, res0 := (bytes.getD 0 0).setWidth 32, res1 := 0, busy := false }

/-- R166: the source ends or fails after `n` symbols of a quartet, whitespace not counted. With none held, End is EOS
and the unit Exhausted, and Fail is ERR_UPSTREAM with its code of UPSTREAM_CODE_W bits; with 1–3 held, either is ERR_IMPROPER_PADDING with n, and
the unit is Failed. -/
def Obligations.SourceEndsOrFailsInsideAQuartet : Prop :=
  ∀ (s : State) (front : List Byte) (n : Nat) (a : ReadAnswer) (rest : List Input), s.running = none →
    s.faulted = false → s.sd.phase = .empty → s.sd.count = 0 → (∀ c ∈ front, cls c ≠ .inv) →
    n = (significant front).length → n ≤ 3 →
    s.inputs = front.map (fun b => Input.readAnswer (.byte b)) ++ .readAnswer a :: rest →
    ((∃ e, a = .fail e) ∨ a = .endOfInput) →
    ∃ t, exec .sdRead s = .next t ∧ t.inputs = rest ∧ t.running = none ∧ t.busy = false ∧ t.res1 = 0 ∧
      t.sd.srcidx = s.sd.srcidx + BitVec.ofNat 32 front.length ∧
      (1 ≤ n → t.code = .errImproperPadding ∧ t.res0 = BitVec.ofNat 32 n ∧ t.sd.phase = .failed) ∧
      (n = 0 → a = .endOfInput → t.code = .eos ∧ t.res0 = 0 ∧ t.sd.phase = .exhausted) ∧
      (n = 0 → ∀ e, a = .fail e → e.toNat < 2 ^ s.params.upstreamCodeW →
        t.code = .errUpstream ∧ t.res0 = e ∧ t.sd.phase = .failed)

/-- R165: an SD_READ whose source gives, after at most three symbols and any whitespace, an invalid byte, or a fourth symbol
of misplaced padding. ERR_MALFORMED with the byte's position in the source and its raw value, bit 8 set for padding; the
unit is Failed, and the byte is consumed. -/
def Obligations.SdReadReportsMalformedInput : Prop :=
  ∀ (s : State) (front : List Byte) (raw : Byte) (rest : List Input), s.running = none → s.faulted = false →
    s.sd.phase = .empty → s.sd.count = 0 → (∀ c ∈ front, cls c ≠ .inv) →
    (significant front).length ≤ 3 →
    s.inputs = front.map (fun b => Input.readAnswer (.byte b)) ++ .readAnswer (.byte raw) :: rest →
    (cls raw = .inv ∨ (∃ c0 c1 c2 c3, cls raw = .sym c3 ∧ decodeQuartet c0 c1 c2 c3 = .badPad ∧
      (significant front).map cls = [.sym c0, .sym c1, .sym c2])) →
    ∃ t, exec .sdRead s = .next t ∧ t.code = .errMalformed ∧
      t.res0 = s.sd.srcidx + BitVec.ofNat 32 front.length ∧
      t.res1 = (if cls raw = .inv then (0 : BitVec 24) ++ raw else (0 : BitVec 23) ++ (1 : BitVec 1) ++ raw) ∧
      t.sd.phase = .failed ∧ t.sd.srcidx = s.sd.srcidx + BitVec.ofNat 32 (front.length + 1) ∧ t.inputs = rest ∧
      t.busy = false ∧ t.running = none

/-- R167: SD_READN of length 0 completes with OK, without a source request, even when Exhausted. SD_READN of n > 0 bytes
does what n SD_READs do, with each byte they return stored in turn at A0, A0 + 1, …; other bytes of HB stay. End-of-stream
gives EOS where no byte was obtained and else OK with the count; an error gives the error's values, and the bytes already
stored stay. The source's answers reach End or a failure. -/
def Obligations.SdReadnIsSdReadOfEachByte : Prop :=
  (∀ s : State, s.faulted = false → s.sd.bound → s.latched.a1 = 0 → s.latched.a0.toNat ≤ s.params.hbSize →
    exec .sdReadn s = .next { s with code := .ok, res0 := 0, res1 := 0, busy := false, running := none }) ∧
  ∀ (s : State) (text : List Byte) (a : ReadAnswer) (rest : List Input), s.running = none → s.faulted = false →
    s.sd.bound → s.sd.atRest → admitted s.params s.latched.a0 s.latched.a1 = true → s.latched.a1 ≠ 0 →
    s.inputs = text.map (fun b => Input.readAnswer (.byte b)) ++ .readAnswer a :: rest →
    ((∃ e, a = .fail e) ∨ a = .endOfInput) →
    ∃ t, exec .sdReadn s = .next t ∧
      ∀ got u, readWhileOk s.latched.a1.toNat s = (got, u) →
        t = { u with hb := t.hb, code := t.code, res0 := t.res0, res1 := t.res1 } ∧
        (∀ k w, got[k]? = some w → (Memory.read t.hb (s.latched.a0.toNat + k)).setWidth 32 = w) ∧
        (∀ x, x < s.latched.a0.toNat ∨ s.latched.a0.toNat + got.length ≤ x →
          Memory.read t.hb x = Memory.read s.hb x) ∧
        (if got.length = s.latched.a1.toNat ∨ (u.code = .eos ∧ got ≠ []) then
            t.code = .ok ∧ t.res0 = BitVec.ofNat 32 got.length ∧ t.res1 = 0
          else t.code = u.code ∧ t.res0 = u.res0 ∧ t.res1 = u.res1)

/-- R168: SD_CLOSE of a bound unit closes the source and the unit, dropping cached bytes; a failing close is
ERR_UPSTREAM with its code of UPSTREAM_CODE_W bits, and the unit Failed; a partial quartet is ERR_IMPROPER_PADDING without a source request. -/
def Obligations.SdCloseClosesTheSource : Prop :=
  ∀ (s : State) (rest : List Input), s.running = none → s.faulted = false → s.sd.bound →
    (s.sd.count = 0 → s.inputs = .closeAnswer .ack :: rest → exec .sdClose s = .next { s with
      sd := { s.sd with phase := .closed }
      log := s.log ++ [.sourceClose (some .ack)]
      inputs := rest, code := .ok, res0 := 0, res1 := 0, busy := false }) ∧
    (∀ e, s.sd.count = 0 → e.toNat < 2 ^ s.params.upstreamCodeW → s.inputs = .closeAnswer (.fail e) :: rest →
      exec .sdClose s = .next { s with
      sd := { s.sd with phase := .failed }
      log := s.log ++ [.sourceClose (some (.fail e))]
      inputs := rest, code := .errUpstream, res0 := e, res1 := 0, busy := false }) ∧
    (s.sd.count ≠ 0 → exec .sdClose s = .next { s with
      sd := { s.sd with phase := .failed }
      code := .errImproperPadding, res0 := s.sd.count.setWidth 32, res1 := 0, busy := false })

/-- R169: the Stream Decoder against the bulk decoder, on a source that gives `text` and then End. Where the bulk decoder
(under ERROR) gives bytes, the SD_READs return them and then EOS. Where it gives an error, the last SD_READ raises the
same code with the same values, and the earlier ones return the bytes of the complete quartets before the failing point.
In particular, encoded text reads back as the bytes it encodes, then EOS. -/
def Obligations.StreamDecoderAgreesWithTheBulkDecoder : Prop :=
  ∀ (s : State) (text : List Byte) (rest : List Input), s.running = none → s.faulted = false →
    s.sd = { phase := .empty, acc := ⟨.val 0, .val 0, .val 0, .val 0⟩, count := 0, out := ⟨0, 0, 0⟩, nsig := 0,
             pos := 0, padded := false, srcidx := 0 } →
    text.length < 2 ^ 32 →
    s.inputs = text.map (fun b => Input.readAnswer (.byte b)) ++ .readAnswer .endOfInput :: rest →
    (∀ out, bulkDecode .error text = .ok out →
      ∃ u, readWhileOk (out.length + 1) s = (out.map (fun b => b.setWidth 32), u) ∧ u.code = .eos) ∧
    (∀ c x y, bulkDecode .error text = .err c x y →
      ∃ out u, readWhileOk (out.length + 1) s = (out.map (fun b => b.setWidth 32), u) ∧
        u.code = c ∧ u.res0 = x ∧ u.res1 = y ∧ u.sd.phase = .failed ∧
        (c = .errMalformed → bulkDecode .drop (text.take x.toNat) = .ok out) ∧
        (c = .errImproperPadding → bulkDecode .drop text = .ok out)) ∧
    (∀ b, text = bulkEncode b →
      ∃ u, readWhileOk (b.length + 1) s = (b.map (fun c => c.setWidth 32), u) ∧ u.code = .eos)

/-! ## Frames and whole-machine rules -/

/-- R102, R106, R122, R130, R65, R203: ENCGRP, DECQ, BENC and BDEC change nothing but STATUS, RES0 and RES1 (and end the
command), and for BENC and BDEC the bytes of HB they store at A2, which are as many as the output has; every other byte
reads as before, and every byte where ENCGRP or DECQ runs or BDEC ends in an error. -/
def Obligations.GroupAndBulkCommandsFrame : Prop :=
  (∀ (s t : State) (i : Instr), ((∃ n, i = .encgrp n) ∨ i = .decq) → exec i s = .next t →
    t = { s with code := t.code, faulted := t.faulted, res0 := t.res0, res1 := t.res1, busy := false,
                 running := none } ∧
    ∀ a, Memory.read t.hb a = Memory.read s.hb a) ∧
  ∀ (s t : State) (i : Instr), (i = .benc ∨ i = .bdec) → exec i s = .next t →
    t = { s with code := t.code, faulted := t.faulted, res0 := t.res0, res1 := t.res1, busy := false,
                 running := none, hb := t.hb } ∧
    (i = .benc → ∀ a,
      a < s.latched.a2.toNat ∨ s.latched.a2.toNat + (bulkEncode (bulkSource s)).length ≤ a →
      Memory.read t.hb a = Memory.read s.hb a) ∧
    (i = .bdec → ∀ out, bulkDecode s.params.bulkTailPolicy (bulkSource s) = .ok out → ∀ a,
      a < s.latched.a2.toNat ∨ s.latched.a2.toNat + out.length ≤ a →
      Memory.read t.hb a = Memory.read s.hb a) ∧
    (i = .bdec → ∀ c x y, bulkDecode s.params.bulkTailPolicy (bulkSource s) = .err c x y → ∀ a,
      Memory.read t.hb a = Memory.read s.hb a)

/-- R11, R68(d), R60: a Stream Encoder command, and the same command when it goes on with an answer of the sink, leaves the
Stream Decoder, HB, the ARG registers, the latched operands and what the host has read as they are; it takes only answers of
the sink from the inputs, and only adds sink exchanges to the log. Going on with an answer it raises no fault. -/
def Obligations.StreamEncoderCommandsFrame : Prop :=
  (∀ (s t : State) (i : Instr),
    (i = .openSink ∨ (∃ b, i = .seWrite b) ∨ i = .seWriten ∨ i = .seFlush ∨ i = .seClose) →
    s.running = none → exec i s = .next t →
    t = { s with code := t.code, faulted := t.faulted, res0 := t.res0, res1 := t.res1, busy := t.busy,
                 running := t.running, se := t.se, log := t.log, inputs := t.inputs } ∧
    (∀ a, Memory.read t.hb a = Memory.read s.hb a) ∧
    (∃ es, t.log = s.log ++ es ∧ ∀ e ∈ es, ∃ q a, e = .sink q (some a)) ∧
    (∃ is, s.inputs = is ++ t.inputs ∧ ∀ i ∈ is, ∃ a, i = .sinkAnswer a)) ∧
  ∀ (s t : State) (w : SeWait) (a : Ack) (x : Input) (rest : List Input),
    (s.running = some (.se w) ∧ x = .sinkAnswer a) ∨ (s.running = some (.ready (.sink w a)) ∧ x = .proceed) →
    s.inputs = x :: rest → step s = .next t →
    t = { s with code := t.code, res0 := t.res0, res1 := t.res1, busy := t.busy,
                 running := t.running, se := t.se, log := t.log, inputs := t.inputs } ∧
    (∀ a, Memory.read t.hb a = Memory.read s.hb a) ∧
    (∃ es, t.log = s.log ++ es ∧ ∀ e ∈ es, ∃ q a, e = .sink q (some a)) ∧
    (∃ is, rest = is ++ t.inputs ∧ ∀ i ∈ is, ∃ a, i = .sinkAnswer a)

/-- R11, R68(d), R60: OPEN_SOURCE, SD_READ and SD_CLOSE, and the last two when they go on with an answer of the source, leave
the Stream Encoder, HB, the ARG registers, the latched operands and what the host has read as they are; they take only
answers of the source, and only add source exchanges to the log. Going on with an answer they raise no fault. -/
def Obligations.StreamDecoderCommandsFrame : Prop :=
  (∀ (s t : State) (i : Instr), (i = .openSource ∨ i = .sdRead ∨ i = .sdClose) →
    s.running = none → exec i s = .next t →
    t = { s with code := t.code, faulted := t.faulted, res0 := t.res0, res1 := t.res1, busy := t.busy,
                 running := t.running, sd := t.sd, log := t.log, inputs := t.inputs } ∧
    (∀ a, Memory.read t.hb a = Memory.read s.hb a) ∧
    (∃ es, t.log = s.log ++ es ∧ ∀ e ∈ es, (∃ a, e = .sourceRead (some a)) ∨ ∃ a, e = .sourceClose (some a)) ∧
    (∃ is, s.inputs = is ++ t.inputs ∧ ∀ i ∈ is, (∃ a, i = .readAnswer a) ∨ ∃ a, i = .closeAnswer a)) ∧
  ∀ (s t : State) (x : Input) (rest : List Input),
    (s.running = some (.sd .read) ∧ ∃ a, x = .readAnswer a) ∨
      (s.running = some (.sd .close) ∧ ∃ a, x = .closeAnswer a) ∨
      (((∃ a, s.running = some (.ready (.read a))) ∨ ∃ a, s.running = some (.ready (.close a))) ∧ x = .proceed) →
    s.inputs = x :: rest → step s = .next t →
    t = { s with code := t.code, res0 := t.res0, res1 := t.res1, busy := t.busy,
                 running := t.running, sd := t.sd, log := t.log, inputs := t.inputs } ∧
    (∀ a, Memory.read t.hb a = Memory.read s.hb a) ∧
    (∃ es, t.log = s.log ++ es ∧ ∀ e ∈ es, (∃ a, e = .sourceRead (some a)) ∨ ∃ a, e = .sourceClose (some a)) ∧
    (∃ is, rest = is ++ t.inputs ∧ ∀ i ∈ is, (∃ a, i = .readAnswer a) ∨ ∃ a, i = .closeAnswer a)

/-- R167, R11: SD_READN leaves the same as they are, and stores only inside `[A0, A0 + A1)`; going on with `k` bytes stored,
only inside `[A0 + k, A0 + A1)`. It makes no other request than `SrcRead()`. -/
def Obligations.SdReadnFrame : Prop :=
  (∀ (s t : State), s.running = none → exec .sdReadn s = .next t →
    t = { s with code := t.code, faulted := t.faulted, res0 := t.res0, res1 := t.res1, busy := t.busy,
                 running := t.running, sd := t.sd, hb := t.hb, log := t.log, inputs := t.inputs } ∧
    (∀ a, a < s.latched.a0.toNat ∨ s.latched.a0.toNat + s.latched.a1.toNat ≤ a →
      Memory.read t.hb a = Memory.read s.hb a) ∧
    (∃ es, t.log = s.log ++ es ∧ ∀ e ∈ es, ∃ a, e = .sourceRead (some a)) ∧
    (∃ is, s.inputs = is ++ t.inputs ∧ ∀ i ∈ is, ∃ a, i = .readAnswer a)) ∧
  ∀ (s t : State) (k : Nat) (x : Input) (rest : List Input),
    (s.running = some (.sd (.readN k)) ∧ ∃ a, x = .readAnswer a) ∨
      ((∃ r, s.running = some (.ready r) ∧ r.isReadN k) ∧ (x = .proceed ∨ ∃ n, x = .proceedStores n)) →
    s.inputs = x :: rest → step s = .next t →
    t = { s with code := t.code, faulted := t.faulted, res0 := t.res0, res1 := t.res1, busy := t.busy,
                 running := t.running, sd := t.sd, hb := t.hb, log := t.log, inputs := t.inputs } ∧
    (∀ a, a < s.latched.a0.toNat + k ∨ s.latched.a0.toNat + s.latched.a1.toNat ≤ a →
      Memory.read t.hb a = Memory.read s.hb a) ∧
    (∃ es, t.log = s.log ++ es ∧ ∀ e ∈ es, ∃ a, e = .sourceRead (some a)) ∧
    (∃ is, rest = is ++ t.inputs ∧ ∀ i ∈ is, ∃ a, i = .readAnswer a)

/-- R29: a command reads only its latched operands: what ARG0–ARG3 hold makes no difference to it, neither when it starts,
at once or later, nor when it goes on with an answer. -/
def Obligations.CommandsReadOnlyLatchedOperands : Prop :=
  (∀ (i : Instr) (s t : State) (g : Args), exec i s = .next t →
    exec i { s with arg := g } = .next { t with arg := g }) ∧
  (∀ (i : Input) (s t : State) (g : Args),
    (∃ a, i = .sinkAnswer a) ∨ (∃ a, i = .readAnswer a) ∨ (∃ a, i = .closeAnswer a) ∨ i = .proceed ∨
      (∃ n, i = .proceedStores n) →
    step { s with inputs := i :: s.inputs } = .next t →
    step { s with inputs := i :: s.inputs, arg := g } = .next { t with arg := g })

/-- R83: the operand bits a command does not read make no difference to it: A0[31:24] and the bytes past CNT for ENCGRP,
A1–A3 for ENCGRP and DECQ, A2 and A3 for SE_WRITEN and SD_READN, all of A0–A3 for the others but BENC and BDEC, which read
all. -/
def Obligations.CommandsIgnoreOtherOperandBits : Prop :=
  ∀ (s t : State) (g : Args) (i : Instr), exec i s = .next t →
    (i = .encgrp 1 ∧ g.a0 &&& 0xFF = s.latched.a0 &&& 0xFF) ∨
      (i = .encgrp 2 ∧ g.a0 &&& 0xFFFF = s.latched.a0 &&& 0xFFFF) ∨
      (i = .encgrp 3 ∧ g.a0 &&& 0xFFFFFF = s.latched.a0 &&& 0xFFFFFF) ∨
      (i = .decq ∧ g.a0 = s.latched.a0) ∨
      ((i = .seWriten ∨ i = .sdReadn) ∧ g.a0 = s.latched.a0 ∧ g.a1 = s.latched.a1) ∨
      (i = .openSink ∨ (∃ b, i = .seWrite b) ∨ i = .seFlush ∨ i = .seClose ∨ i = .openSource ∨ i = .sdRead ∨
        i = .sdClose) →
    exec i { s with latched := g } = .next { t with latched := g }

/-- R205, R209: FAULT_CMD_BUSY lets the running command run on. Whatever it then does with an answer or when its time
comes, and however it ends (OK, end-of-stream, an error, a fault of its own), it does to the units, HB, the ports and BUSY
what it would have done, and the unit rule applies; but CODE, RES0 and RES1 are not written, and CODE stays FAULT_CMD_BUSY
(after a fault of its own too: log 24). For one: an SD_READ that meets an invalid byte. -/
def Obligations.RunningCommandAfterCmdBusyReportsNothing : Prop :=
  (∀ (s t : State) (x : Input) (rest : List Input), s.faulted = false →
    (∃ a, x = .sinkAnswer a) ∨ (∃ a, x = .readAnswer a) ∨ (∃ a, x = .closeAnswer a) ∨ x = .proceed ∨
      (∃ n, x = .proceedStores n) →
    step { s with inputs := x :: rest } = .next t →
    step { s with inputs := x :: rest, faulted := true, code := .faultCmdBusy } =
      .next { t with faulted := true, code := .faultCmdBusy, res0 := s.res0, res1 := s.res1 }) ∧
  ∀ (s : State) (raw : Byte) (rest : List Input), s.running = some (.sd .read) → s.faulted = true → cls raw = .inv →
    s.inputs = .readAnswer (.byte raw) :: rest →
    step s = .next { s with
      sd := { s.sd with srcidx := s.sd.srcidx + 1, phase := .failed }
      log := s.log ++ [.sourceRead (some (.byte raw))]
      inputs := rest, busy := false, running := none }

/-- R66, R67, R228: every port command, with no answer among the inputs, stands at its first request and BUSY stays as it is:
SE_WRITE and SE_WRITEN at the first symbol of the group they fill, SE_WRITEN having consumed 0, 1 or 2 bytes before the one
that fills it; SE_FLUSH and SE_CLOSE at the first symbol of the padded group or at the flush; SD_READ and SD_READN at a read,
SD_READN with the cached bytes of a Ready unit stored; SD_CLOSE at the close. A step without an input changes nothing but
where a command takes its time (log 1), nor does an answer that is not to the pending request (R220, log 11). -/
def Obligations.UnansweredCommandWaits : Prop :=
  (∀ s : State, s.running = none → s.se.state = .opened → s.inputs = [] →
    (∀ b s0 s1 s2 s3, s.se.count = 2 → encodeGroup s.se.buf.b0 s.se.buf.b1 b 3 = [s0, s1, s2, s3] →
      exec (.seWrite b) s = .next { s with
        se := { s.se with buf := { s.se.buf with b2 := b }, count := 3 }
        running := some (.se (.group s0 [s1, s2, s3] .one)) }) ∧
    (∀ k b0 b1 b2 bytes s0 s1 s2 s3, admitted s.params s.latched.a0 s.latched.a1 = true →
      (s.se.count = 2 ∧ k = 0 ∧ b0 = s.se.buf.b0 ∧ b1 = s.se.buf.b1 ∧
          Memory.readRange s.hb s.latched.a0.toNat s.latched.a1.toNat = b2 :: bytes) ∨
        (s.se.count = 1 ∧ k = 1 ∧ b0 = s.se.buf.b0 ∧
          Memory.readRange s.hb s.latched.a0.toNat s.latched.a1.toNat = b1 :: b2 :: bytes) ∨
        (s.se.count = 0 ∧ k = 2 ∧
          Memory.readRange s.hb s.latched.a0.toNat s.latched.a1.toNat = b0 :: b1 :: b2 :: bytes) →
      encodeGroup b0 b1 b2 3 = [s0, s1, s2, s3] →
      exec .seWriten s = .next { s with
        se := { s.se with buf := ⟨b0, b1, b2⟩, count := 3 }
        running := some (.se (.group s0 [s1, s2, s3] (.many k bytes))) }) ∧
    (∀ s0 s1 s2 s3, s.se.count = 1 ∨ s.se.count = 2 →
      encodeGroup s.se.buf.b0 s.se.buf.b1 s.se.buf.b2 s.se.count = [s0, s1, s2, s3] →
      exec .seFlush s = .next { s with running := some (.se (.pad s0 [s1, s2, s3] false)) } ∧
      exec .seClose s = .next { s with running := some (.se (.pad s0 [s1, s2, s3] true)) }) ∧
    (s.se.count = 0 →
      exec .seFlush s = .next { s with running := some (.se (.flush false)) } ∧
      exec .seClose s = .next { s with running := some (.se (.flush true)) })) ∧
  (∀ s : State, s.running = none → s.inputs = [] →
    (s.sd.phase = .empty → exec .sdRead s = .next { s with running := some (.sd .read) }) ∧
    (s.sd.phase = .empty → admitted s.params s.latched.a0 s.latched.a1 = true → s.latched.a1 ≠ 0 →
      exec .sdReadn s = .next { s with running := some (.sd (.readN 0)) }) ∧
    (∀ m, s.sd.phase = .ready → s.sd.padded = false → 0 < m → s.sd.pos.toNat + m = s.sd.nsig.toNat →
      admitted s.params s.latched.a0 s.latched.a1 = true → m < s.latched.a1.toNat →
      ∃ t, exec .sdReadn s = .next t ∧
        t = { s with
          sd := { s.sd with phase := .empty, pos := s.sd.nsig }, hb := t.hb, running := some (.sd (.readN m)) } ∧
        (∀ j c, j < m → [s.sd.out.b0, s.sd.out.b1, s.sd.out.b2][s.sd.pos.toNat + j]? = some c →
          Memory.read t.hb (s.latched.a0.toNat + j) = c) ∧
        ∀ a, a < s.latched.a0.toNat ∨ s.latched.a0.toNat + m ≤ a → Memory.read t.hb a = Memory.read s.hb a) ∧
    (s.sd.bound → s.sd.count = 0 → exec .sdClose s = .next { s with running := some (.sd .close) })) ∧
  (∀ s : State, s.inputs = [] → (∀ r, s.running ≠ some (.ready r)) → step s = .next s) ∧
  ∀ (s : State) (x : Input) (rest : List Input), s.inputs = x :: rest →
    (∃ a, x = .sinkAnswer a) ∨ (∃ a, x = .readAnswer a) ∨ (∃ a, x = .closeAnswer a) ∨ x = .lateAnswer →
    ¬ s.awaits x → step s = .next { s with inputs := rest }

/-- R66, R67, R230: a waiting command goes on when its answer comes. Whether the answers stand in place when the command
runs or come in later steps makes no difference: a command that has used up the answers `front` and waits does with the next
answer `x` in place what a later step that brings `x` does. The same of a command that goes on with an answer, or after its
time. An input that is not its answer stays for the next step. -/
def Obligations.LaterAnswersDoWhatAnswersInPlaceDo : Prop :=
  (∀ (i : Instr) (s t : State) (front : List Input) (x : Input) (rest : List Input),
    exec i { s with inputs := front } = .next t → t.inputs = [] →
    (t.awaits x → exec i { s with inputs := front ++ x :: rest } = step { t with inputs := x :: rest }) ∧
    (¬ t.awaits x → exec i { s with inputs := front ++ x :: rest } = .next { t with inputs := x :: rest })) ∧
  ∀ (s t : State) (front : List Input) (y x : Input) (rest : List Input),
    s.awaits y ∨ ((∃ r, s.running = some (.ready r)) ∧ y = .proceed) →
    step { s with inputs := y :: front } = .next t → t.inputs = [] →
    (t.awaits x → step { s with inputs := y :: front ++ x :: rest } = step { t with inputs := x :: rest }) ∧
    (¬ t.awaits x → step { s with inputs := y :: front ++ x :: rest } = .next { t with inputs := x :: rest })

/-- R230, R202: the time the block takes makes no difference to what a command does. A CMD write to an idle block, or the
answer to the pending request, that the block takes its time over changes nothing but BUSY, the latched operands and the
exchange observed; when the time ends, the command does what it would have done at once. An SD_READN that stops before a
byte has stored as many as it was given time for, and goes on from there (R167). How steps are cut is the model's (log 2). -/
def Obligations.TimeTakenMakesNoDifference : Prop :=
  (∀ (s : State) (w : Word) (rest : List Input), s.faulted = false → s.busy = false → s.running = none →
    ∃ t, step { s with inputs := .slowly (.cmdWrite w) :: .proceed :: rest } = .next t ∧
      t = { s with latched := t.latched, busy := true, running := t.running, inputs := .proceed :: rest } ∧
      step t = step { s with inputs := .regWrite 0 w :: rest }) ∧
  (∀ (s : State) (m : Arrival) (rest : List Input), s.awaits m.atOnce →
    ∃ t e r, step { s with inputs := .slowly m :: .proceed :: rest } = .next t ∧
      t = { s with log := s.log ++ [e], running := some (.ready r), inputs := .proceed :: rest } ∧
      step t = step { s with inputs := m.atOnce :: rest }) ∧
  ∀ (s t : State) (r : Ready) (k n : Nat) (rest : List Input), s.running = some (.ready r) → r.isReadN k →
    step { s with inputs := .proceedStores n :: rest } = .next t →
    (∀ k', t.running = some (.ready (.storing k')) →
      k' = k + n ∧ t.inputs = rest ∧
        step { t with inputs := .proceed :: rest } = step { s with inputs := .proceed :: rest }) ∧
    ((∀ k', t.running ≠ some (.ready (.storing k'))) → step { s with inputs := .proceed :: rest } = .next t)

/-- R230, R202: a command's time is finite: it goes on, though no input says when, and has then ended or waits on a port; a
command that makes no port request, and an illegal word, has ended. How the model has this is its own choice, not R230's
(log 22; steps: log 2): a step without an input does what the end of the time does, and so the time is over within as many
steps as inputs stand, and one. Host moves the model stops on (logs 8, 9) aside. -/
def Obligations.CommandsGoOnInFiniteTime : Prop :=
  (∀ (s : State) (r : Ready), s.running = some (.ready r) → s.inputs = [] →
    step s = step { s with inputs := [.proceed] }) ∧
  ∀ (s : State) (r : Ready), s.running = some (.ready r) → s.busy = true →
    (∀ a, .hbRead a ∈ s.inputs ∨ (∃ b, .hbWrite a b ∈ s.inputs) → a.toNat < s.params.hbSize ∧ inUse s a.toNat = false) →
    ∃ n t, n ≤ s.inputs.length + 1 ∧ runSteps n s = .next t ∧ (∀ r', t.running ≠ some (.ready r')) ∧
      (r = .illegal ∨ (∃ i, r = .command i ∧ portless i) → t.busy = false ∧ t.running = none)

/-- R86, R222: an assembly line on an idle block writes the ARG registers its row lists, and then runs its command on
the operands so latched. -/
def Obligations.LineIssuesItsCommand : Prop :=
  ∀ (s : State) (src len dst cap : Word) (b s0 s1 s2 s3 : Byte) (n : BitVec 2), s.faulted = false → s.busy = false →
    (n ≠ 0 → makeMoves (Line.encgrp n s0 s1 s2).moves s = exec (.encgrp n) { s with
      arg := { s.arg with a0 := (0 : BitVec 8) ++ s2 ++ s1 ++ s0 }
      latched := { s.arg with a0 := (0 : BitVec 8) ++ s2 ++ s1 ++ s0 }, busy := true }) ∧
    makeMoves (Line.decq s0 s1 s2 s3).moves s = exec .decq { s with
      arg := { s.arg with a0 := s3 ++ s2 ++ s1 ++ s0 }
      latched := { s.arg with a0 := s3 ++ s2 ++ s1 ++ s0 }, busy := true } ∧
    makeMoves (Line.benc src len dst cap).moves s = exec .benc { s with
      arg := ⟨src, len, dst, cap⟩, latched := ⟨src, len, dst, cap⟩, busy := true } ∧
    makeMoves (Line.bdec src len dst cap).moves s = exec .bdec { s with
      arg := ⟨src, len, dst, cap⟩, latched := ⟨src, len, dst, cap⟩, busy := true } ∧
    makeMoves (Line.seWriten src len).moves s = exec .seWriten { s with
      arg := { s.arg with a0 := src, a1 := len }, latched := { s.arg with a0 := src, a1 := len }, busy := true } ∧
    makeMoves (Line.sdReadn dst len).moves s = exec .sdReadn { s with
      arg := { s.arg with a0 := dst, a1 := len }, latched := { s.arg with a0 := dst, a1 := len }, busy := true } ∧
    (∀ l ∈ [Line.openSink, .seWrite b, .seFlush, .seClose, .openSource, .sdRead, .sdClose],
      makeMoves l.moves s = exec l.instr { s with latched := s.arg, busy := true })
end

