-- ==== Sys2Proof/Laws/Codec.lean ====
section
/-! SUPPORT. The alphabet, the packing of words and the group codec (10_state.md R21–R24, 20_memory.md R64,
41_group_codec.md R100–R104), each helper's facts said once. -/

namespace Sys2Proof.Machine

/-! ## Packed words (R64) -/

theorem packBytes_cons (b : Byte) (bs : List Byte) :
    packBytes (b :: bs) = (packBytes bs).extractLsb' 0 24 ++ b := by
  apply BitVec.eq_of_getLsbD_eq
  intro i hi
  simp only [packBytes, BitVec.getLsbD_or, BitVec.getLsbD_shiftLeft, BitVec.getLsbD_append,
    BitVec.getLsbD_extractLsb', BitVec.getLsbD_setWidth]
  by_cases h : i < 8
  · simp [h, hi]
  · have hb : b.getLsbD i = false := BitVec.getLsbD_of_ge _ _ (by omega)
    simp [h, hb, show i - 8 < 24 by omega, hi]

theorem packBytes_four (a b c d : Byte) : packBytes [a, b, c, d] = d ++ c ++ b ++ a := by
  simp only [packBytes_cons]
  apply BitVec.eq_of_getLsbD_eq
  intro i hi
  simp only [BitVec.getLsbD_append, BitVec.getLsbD_extractLsb', packBytes]
  by_cases h1 : i < 8
  · simp [h1]
  by_cases h2 : i < 16
  · simp [h1, show i - 8 < 8 by omega, show i - 8 < 24 by omega]
  by_cases h3 : i < 24
  · simp [h1, show ¬ i - 8 < 8 by omega, show i - 8 < 24 by omega, show i - 8 - 8 < 8 by omega,
      show i - 8 - 8 < 24 by omega]
  · simp [h1, show ¬ i - 8 < 8 by omega, show i - 8 < 24 by omega, show ¬ i - 8 - 8 < 8 by omega,
      show i - 8 - 8 < 24 by omega, show i - 8 - 8 - 8 < 8 by omega, show i - 8 - 8 - 8 < 24 by omega]

theorem packBytes_three (a b c : Byte) : packBytes [a, b, c] = (0 : BitVec 8) ++ c ++ b ++ a := by
  rw [← packBytes_four]
  simp only [packBytes]
  congr 1

/-! ## The tables (R21, R23, R24) -/

/-- `INVT[SYM[v]] = Val(v)` (R23). -/
theorem cls_symOf : ∀ v : Sextet, cls (symOf v) = .sym (.val v) := by decide

theorem cls_padChar : cls padChar = .sym .pad := by decide

theorem cls_lineFeed : cls lineFeed = .ws := by decide

theorem isWhitespace_symOf : ∀ v : Sextet, isWhitespace (symOf v) = false := by decide

theorem symOf_ne_lineFeed : ∀ v : Sextet, symOf v ≠ lineFeed := by decide

theorem symOf_ne_padChar : ∀ v : Sextet, symOf v ≠ padChar := by decide

/-! ## Groups (R100) -/

theorem encodeGroup_length (b0 b1 b2 : Byte) (n : BitVec 2) : (encodeGroup b0 b1 b2 n).length = 4 := rfl

/-- A group of one byte. -/
theorem encodeGroup_one (b0 b1 b2 : Byte) : encodeGroup b0 b1 b2 1 =
    [symOf ((groupInt b0 0 0).extractLsb' 18 6), symOf ((groupInt b0 0 0).extractLsb' 12 6), padChar, padChar] := rfl

/-- A group of two bytes. -/
theorem encodeGroup_two (b0 b1 b2 : Byte) : encodeGroup b0 b1 b2 2 =
    [symOf ((groupInt b0 b1 0).extractLsb' 18 6), symOf ((groupInt b0 b1 0).extractLsb' 12 6),
      symOf ((groupInt b0 b1 0).extractLsb' 6 6), padChar] := rfl

/-- A full group. -/
theorem encodeGroup_three (b0 b1 b2 : Byte) : encodeGroup b0 b1 b2 3 =
    [symOf ((groupInt b0 b1 b2).extractLsb' 18 6), symOf ((groupInt b0 b1 b2).extractLsb' 12 6),
      symOf ((groupInt b0 b1 b2).extractLsb' 6 6), symOf ((groupInt b0 b1 b2).extractLsb' 0 6)] := rfl

/-- Bit `i` of the 24-bit group integer. -/
theorem getLsbD_groupInt (b0 b1 b2 : Byte) (i : Nat) (hi : i < 24) : (groupInt b0 b1 b2).getLsbD i =
    if i < 8 then b2.getLsbD i else if i < 16 then b1.getLsbD (i - 8) else b0.getLsbD (i - 16) := by
  unfold groupInt
  simp only [BitVec.getLsbD_append]
  by_cases h1 : i < 8
  · simp [h1]
  · by_cases h2 : i < 16
    · simp [h1, h2, show i - 8 < 8 by omega]
    · simp [h1, h2, show ¬ i - 8 < 8 by omega, show i - 8 - 8 = i - 16 by omega]

/-- A field of 6 bits, set back where it was taken from. -/
theorem getLsbD_field (x : BitVec 24) (o i : Nat) (hi : i < 24) :
    (((x.extractLsb' o 6).setWidth 24) <<< o).getLsbD i = (decide (o ≤ i ∧ i < o + 6) && x.getLsbD i) := by
  simp only [BitVec.getLsbD_shiftLeft, BitVec.getLsbD_setWidth, BitVec.getLsbD_extractLsb']
  by_cases h : o ≤ i
  · by_cases h' : i < o + 6
    · simp [hi, h, h', show ¬ i < o by omega, show i - o < 6 by omega, show i - o < 24 by omega,
        show o + (i - o) = i by omega]
    · simp [h', show ¬ i - o < 6 by omega]
  · simp [h, show i < o by omega]

/-- The four fields of a 24-bit integer make it up. -/
theorem fields_join (x : BitVec 24) :
    ((x.extractLsb' 18 6).setWidth 24 <<< 18) ||| ((x.extractLsb' 12 6).setWidth 24 <<< 12) |||
      ((x.extractLsb' 6 6).setWidth 24 <<< 6) ||| (x.extractLsb' 0 6).setWidth 24 = x := by
  apply BitVec.eq_of_getLsbD_eq
  intro i hi
  have h0 : ((x.extractLsb' 0 6).setWidth 24).getLsbD i = (decide (0 ≤ i ∧ i < 0 + 6) && x.getLsbD i) := by
    rw [← getLsbD_field x 0 i hi, BitVec.shiftLeft_zero]
  simp only [BitVec.getLsbD_or, getLsbD_field x _ i hi, h0]
  cases x.getLsbD i
  · simp
  · simp only [Bool.and_true]
    by_cases h1 : i < 6
    · simp [h1]
    by_cases h2 : i < 12
    · simp [h2, show 6 ≤ i by omega]
    by_cases h3 : i < 18
    · simp [h3, show 12 ≤ i by omega]
    · simp [hi, show 18 ≤ i by omega]

theorem groupInt_byte0 (b0 b1 b2 : Byte) : (groupInt b0 b1 b2).extractLsb' 16 8 = b0 := by
  apply BitVec.eq_of_getLsbD_eq
  intro i hi
  simp only [BitVec.getLsbD_extractLsb', hi, decide_true, Bool.true_and]
  rw [getLsbD_groupInt _ _ _ _ (by omega)]
  simp [show ¬ 16 + i < 8 by omega]

theorem groupInt_byte1 (b0 b1 b2 : Byte) : (groupInt b0 b1 b2).extractLsb' 8 8 = b1 := by
  apply BitVec.eq_of_getLsbD_eq
  intro i hi
  simp only [BitVec.getLsbD_extractLsb', hi, decide_true, Bool.true_and]
  rw [getLsbD_groupInt _ _ _ _ (by omega)]
  simp [show 8 + i < 16 by omega]

theorem groupInt_byte2 (b0 b1 b2 : Byte) : (groupInt b0 b1 b2).extractLsb' 0 8 = b2 := by
  apply BitVec.eq_of_getLsbD_eq
  intro i hi
  simp only [BitVec.getLsbD_extractLsb', hi, decide_true, Bool.true_and]
  rw [getLsbD_groupInt _ _ _ _ (by omega)]
  simp [hi]

/-- The low field of a group with no third byte is 0, and the next one too with no second byte (R101(b), (c)). -/
theorem groupInt_field3 (b0 b1 : Byte) : (groupInt b0 b1 0).extractLsb' 0 6 = 0 := by
  apply BitVec.eq_of_getLsbD_eq
  intro i hi
  simp only [BitVec.getLsbD_extractLsb', hi, decide_true, Bool.true_and]
  rw [getLsbD_groupInt _ _ _ _ (by omega)]
  simp [show i < 8 by omega]

theorem groupInt_field2 (b0 : Byte) : (groupInt b0 0 0).extractLsb' 6 6 = 0 := by
  apply BitVec.eq_of_getLsbD_eq
  intro i hi
  simp only [BitVec.getLsbD_extractLsb', hi, decide_true, Bool.true_and]
  rw [getLsbD_groupInt _ _ _ _ (by omega)]
  simp [show 6 + i < 16 by omega]

/-- A full group decodes to its three bytes (R101(d)). -/
theorem decodeQuartet_three (b0 b1 b2 : Byte) :
    decodeQuartet (.val ((groupInt b0 b1 b2).extractLsb' 18 6)) (.val ((groupInt b0 b1 b2).extractLsb' 12 6))
      (.val ((groupInt b0 b1 b2).extractLsb' 6 6)) (.val ((groupInt b0 b1 b2).extractLsb' 0 6)) =
    .ok [b0, b1, b2] 3 := by
  simp only [decodeQuartet, fields_join, groupInt_byte0, groupInt_byte1, groupInt_byte2]

/-- A group of two bytes decodes to them. -/
theorem decodeQuartet_two (b0 b1 : Byte) :
    decodeQuartet (.val ((groupInt b0 b1 0).extractLsb' 18 6)) (.val ((groupInt b0 b1 0).extractLsb' 12 6))
      (.val ((groupInt b0 b1 0).extractLsb' 6 6)) .pad = .ok [b0, b1] 2 := by
  have h := fields_join (groupInt b0 b1 0)
  rw [groupInt_field3] at h
  have h' : ((groupInt b0 b1 0).extractLsb' 18 6).setWidth 24 <<< 18 |||
      ((groupInt b0 b1 0).extractLsb' 12 6).setWidth 24 <<< 12 |||
      ((groupInt b0 b1 0).extractLsb' 6 6).setWidth 24 <<< 6 = groupInt b0 b1 0 := by simpa using h
  simp only [decodeQuartet, h', groupInt_byte0, groupInt_byte1]

/-- A group of one byte decodes to it. -/
theorem decodeQuartet_one (b0 : Byte) :
    decodeQuartet (.val ((groupInt b0 0 0).extractLsb' 18 6)) (.val ((groupInt b0 0 0).extractLsb' 12 6))
      .pad .pad = .ok [b0] 1 := by
  have h := fields_join (groupInt b0 0 0)
  rw [groupInt_field3, groupInt_field2] at h
  have h' : ((groupInt b0 0 0).extractLsb' 18 6).setWidth 24 <<< 18 |||
      ((groupInt b0 0 0).extractLsb' 12 6).setWidth 24 <<< 12 = groupInt b0 0 0 := by simpa using h
  simp only [decodeQuartet, h', groupInt_byte0]

end Sys2Proof.Machine
end

