-- ==== Sys2Proof/Laws/State.lean ====
section
/-! SUPPORT. What each shared operation on the state leaves in each field, so that no proof unfolds a record update. -/

namespace Sys2Proof.Machine

/-! ## `takeFault` (R205) -/

@[simp] theorem takeFault_params (c : StatusCode) (s : State) : (takeFault c s).params = s.params := rfl
@[simp] theorem takeFault_arg (c : StatusCode) (s : State) : (takeFault c s).arg = s.arg := rfl
@[simp] theorem takeFault_latched (c : StatusCode) (s : State) : (takeFault c s).latched = s.latched := rfl
@[simp] theorem takeFault_busy (c : StatusCode) (s : State) : (takeFault c s).busy = false := rfl
@[simp] theorem takeFault_faulted (c : StatusCode) (s : State) : (takeFault c s).faulted = true := rfl
@[simp] theorem takeFault_code (c : StatusCode) (s : State) :
    (takeFault c s).code = if s.faulted then s.code else c := rfl
@[simp] theorem takeFault_res0 (c : StatusCode) (s : State) : (takeFault c s).res0 = s.res0 := rfl
@[simp] theorem takeFault_res1 (c : StatusCode) (s : State) : (takeFault c s).res1 = s.res1 := rfl
@[simp] theorem takeFault_se (c : StatusCode) (s : State) : (takeFault c s).se = s.se := rfl
@[simp] theorem takeFault_sd (c : StatusCode) (s : State) : (takeFault c s).sd = s.sd := rfl
@[simp] theorem takeFault_hb (c : StatusCode) (s : State) : (takeFault c s).hb = s.hb := rfl
@[simp] theorem takeFault_running (c : StatusCode) (s : State) : (takeFault c s).running = none := rfl
@[simp] theorem takeFault_log (c : StatusCode) (s : State) : (takeFault c s).log = s.log := rfl
@[simp] theorem takeFault_inputs (c : StatusCode) (s : State) : (takeFault c s).inputs = s.inputs := rfl
@[simp] theorem takeFault_readData (c : StatusCode) (s : State) : (takeFault c s).readData = s.readData := rfl
@[simp] theorem takeFault_draws (c : StatusCode) (s : State) : (takeFault c s).draws = s.draws := rfl

/-! ## `takeCmdBusy` (R205) -/

@[simp] theorem takeCmdBusy_params (s : State) : (takeCmdBusy s).params = s.params := rfl
@[simp] theorem takeCmdBusy_arg (s : State) : (takeCmdBusy s).arg = s.arg := rfl
@[simp] theorem takeCmdBusy_latched (s : State) : (takeCmdBusy s).latched = s.latched := rfl
@[simp] theorem takeCmdBusy_busy (s : State) : (takeCmdBusy s).busy = s.busy := rfl
@[simp] theorem takeCmdBusy_faulted (s : State) : (takeCmdBusy s).faulted = true := rfl
@[simp] theorem takeCmdBusy_code (s : State) : (takeCmdBusy s).code = .faultCmdBusy := rfl
@[simp] theorem takeCmdBusy_res0 (s : State) : (takeCmdBusy s).res0 = s.res0 := rfl
@[simp] theorem takeCmdBusy_res1 (s : State) : (takeCmdBusy s).res1 = s.res1 := rfl
@[simp] theorem takeCmdBusy_se (s : State) : (takeCmdBusy s).se = s.se := rfl
@[simp] theorem takeCmdBusy_sd (s : State) : (takeCmdBusy s).sd = s.sd := rfl
@[simp] theorem takeCmdBusy_hb (s : State) : (takeCmdBusy s).hb = s.hb := rfl
@[simp] theorem takeCmdBusy_running (s : State) : (takeCmdBusy s).running = s.running := rfl
@[simp] theorem takeCmdBusy_log (s : State) : (takeCmdBusy s).log = s.log := rfl
@[simp] theorem takeCmdBusy_inputs (s : State) : (takeCmdBusy s).inputs = s.inputs := rfl
@[simp] theorem takeCmdBusy_readData (s : State) : (takeCmdBusy s).readData = s.readData := rfl
@[simp] theorem takeCmdBusy_draws (s : State) : (takeCmdBusy s).draws = s.draws := rfl

/-! ## `ask` (R66, R67) -/

@[simp] theorem ask_params (w : Waiting) (s : State) : (ask w s).params = s.params := rfl
@[simp] theorem ask_arg (w : Waiting) (s : State) : (ask w s).arg = s.arg := rfl
@[simp] theorem ask_latched (w : Waiting) (s : State) : (ask w s).latched = s.latched := rfl
@[simp] theorem ask_busy (w : Waiting) (s : State) : (ask w s).busy = s.busy := rfl
@[simp] theorem ask_faulted (w : Waiting) (s : State) : (ask w s).faulted = s.faulted := rfl
@[simp] theorem ask_code (w : Waiting) (s : State) : (ask w s).code = s.code := rfl
@[simp] theorem ask_res0 (w : Waiting) (s : State) : (ask w s).res0 = s.res0 := rfl
@[simp] theorem ask_res1 (w : Waiting) (s : State) : (ask w s).res1 = s.res1 := rfl
@[simp] theorem ask_se (w : Waiting) (s : State) : (ask w s).se = s.se := rfl
@[simp] theorem ask_sd (w : Waiting) (s : State) : (ask w s).sd = s.sd := rfl
@[simp] theorem ask_hb (w : Waiting) (s : State) : (ask w s).hb = s.hb := rfl
@[simp] theorem ask_running (w : Waiting) (s : State) : (ask w s).running = some w := rfl
@[simp] theorem ask_log (w : Waiting) (s : State) : (ask w s).log = s.log := rfl
@[simp] theorem ask_inputs (w : Waiting) (s : State) : (ask w s).inputs = s.inputs := rfl
@[simp] theorem ask_readData (w : Waiting) (s : State) : (ask w s).readData = s.readData := rfl
@[simp] theorem ask_draws (w : Waiting) (s : State) : (ask w s).draws = s.draws := rfl

/-! ## `hold` (R230) -/

@[simp] theorem hold_params (r : Ready) (s : State) : (hold r s).params = s.params := rfl
@[simp] theorem hold_arg (r : Ready) (s : State) : (hold r s).arg = s.arg := rfl
@[simp] theorem hold_latched (r : Ready) (s : State) : (hold r s).latched = s.latched := rfl
@[simp] theorem hold_busy (r : Ready) (s : State) : (hold r s).busy = s.busy := rfl
@[simp] theorem hold_faulted (r : Ready) (s : State) : (hold r s).faulted = s.faulted := rfl
@[simp] theorem hold_code (r : Ready) (s : State) : (hold r s).code = s.code := rfl
@[simp] theorem hold_res0 (r : Ready) (s : State) : (hold r s).res0 = s.res0 := rfl
@[simp] theorem hold_res1 (r : Ready) (s : State) : (hold r s).res1 = s.res1 := rfl
@[simp] theorem hold_se (r : Ready) (s : State) : (hold r s).se = s.se := rfl
@[simp] theorem hold_sd (r : Ready) (s : State) : (hold r s).sd = s.sd := rfl
@[simp] theorem hold_hb (r : Ready) (s : State) : (hold r s).hb = s.hb := rfl
@[simp] theorem hold_running (r : Ready) (s : State) : (hold r s).running = some (.ready r) := rfl
@[simp] theorem hold_log (r : Ready) (s : State) : (hold r s).log = s.log := rfl
@[simp] theorem hold_inputs (r : Ready) (s : State) : (hold r s).inputs = s.inputs := rfl
@[simp] theorem hold_readData (r : Ready) (s : State) : (hold r s).readData = s.readData := rfl
@[simp] theorem hold_draws (r : Ready) (s : State) : (hold r s).draws = s.draws := rfl

/-! ## `observe` (R66) -/

@[simp] theorem observe_params (e : Exchange) (s : State) : (observe e s).params = s.params := rfl
@[simp] theorem observe_arg (e : Exchange) (s : State) : (observe e s).arg = s.arg := rfl
@[simp] theorem observe_latched (e : Exchange) (s : State) : (observe e s).latched = s.latched := rfl
@[simp] theorem observe_busy (e : Exchange) (s : State) : (observe e s).busy = s.busy := rfl
@[simp] theorem observe_faulted (e : Exchange) (s : State) : (observe e s).faulted = s.faulted := rfl
@[simp] theorem observe_code (e : Exchange) (s : State) : (observe e s).code = s.code := rfl
@[simp] theorem observe_res0 (e : Exchange) (s : State) : (observe e s).res0 = s.res0 := rfl
@[simp] theorem observe_res1 (e : Exchange) (s : State) : (observe e s).res1 = s.res1 := rfl
@[simp] theorem observe_se (e : Exchange) (s : State) : (observe e s).se = s.se := rfl
@[simp] theorem observe_sd (e : Exchange) (s : State) : (observe e s).sd = s.sd := rfl
@[simp] theorem observe_hb (e : Exchange) (s : State) : (observe e s).hb = s.hb := rfl
@[simp] theorem observe_running (e : Exchange) (s : State) : (observe e s).running = s.running := rfl
@[simp] theorem observe_log (e : Exchange) (s : State) : (observe e s).log = s.log ++ [e] := rfl
@[simp] theorem observe_inputs (e : Exchange) (s : State) : (observe e s).inputs = s.inputs := rfl
@[simp] theorem observe_readData (e : Exchange) (s : State) : (observe e s).readData = s.readData := rfl
@[simp] theorem observe_draws (e : Exchange) (s : State) : (observe e s).draws = s.draws := rfl

/-! ## `latch` (R202) -/

@[simp] theorem latch_params (s : State) : (latch s).params = s.params := rfl
@[simp] theorem latch_arg (s : State) : (latch s).arg = s.arg := rfl
@[simp] theorem latch_latched (s : State) : (latch s).latched = s.arg := rfl
@[simp] theorem latch_busy (s : State) : (latch s).busy = true := rfl
@[simp] theorem latch_faulted (s : State) : (latch s).faulted = s.faulted := rfl
@[simp] theorem latch_code (s : State) : (latch s).code = s.code := rfl
@[simp] theorem latch_res0 (s : State) : (latch s).res0 = s.res0 := rfl
@[simp] theorem latch_res1 (s : State) : (latch s).res1 = s.res1 := rfl
@[simp] theorem latch_se (s : State) : (latch s).se = s.se := rfl
@[simp] theorem latch_sd (s : State) : (latch s).sd = s.sd := rfl
@[simp] theorem latch_hb (s : State) : (latch s).hb = s.hb := rfl
@[simp] theorem latch_running (s : State) : (latch s).running = s.running := rfl
@[simp] theorem latch_log (s : State) : (latch s).log = s.log := rfl
@[simp] theorem latch_inputs (s : State) : (latch s).inputs = s.inputs := rfl
@[simp] theorem latch_readData (s : State) : (latch s).readData = s.readData := rfl
@[simp] theorem latch_draws (s : State) : (latch s).draws = s.draws := rfl

/-! ## `resetBlock` (R220) -/

@[simp] theorem resetBlock_params (s : State) : (resetBlock s).params = s.params := rfl
@[simp] theorem resetBlock_arg (s : State) : (resetBlock s).arg = ⟨0, 0, 0, 0⟩ := rfl
@[simp] theorem resetBlock_latched (s : State) : (resetBlock s).latched = ⟨0, 0, 0, 0⟩ := rfl
@[simp] theorem resetBlock_busy (s : State) : (resetBlock s).busy = false := rfl
@[simp] theorem resetBlock_faulted (s : State) : (resetBlock s).faulted = false := rfl
@[simp] theorem resetBlock_code (s : State) : (resetBlock s).code = .ok := rfl
@[simp] theorem resetBlock_res0 (s : State) : (resetBlock s).res0 = 0 := rfl
@[simp] theorem resetBlock_res1 (s : State) : (resetBlock s).res1 = 0 := rfl
@[simp] theorem resetBlock_se (s : State) : (resetBlock s).se = SeUnit.afterReset := rfl
@[simp] theorem resetBlock_sd (s : State) : (resetBlock s).sd = SdUnit.afterReset := rfl
@[simp] theorem resetBlock_hb (s : State) : (resetBlock s).hb = s.hb := rfl
@[simp] theorem resetBlock_running (s : State) : (resetBlock s).running = none := rfl
@[simp] theorem resetBlock_log (s : State) : (resetBlock s).log = logAfterReset s := rfl
@[simp] theorem resetBlock_inputs (s : State) : (resetBlock s).inputs = s.inputs := rfl
@[simp] theorem resetBlock_readData (s : State) : (resetBlock s).readData = s.readData := rfl
@[simp] theorem resetBlock_draws (s : State) : (resetBlock s).draws = s.draws := rfl

/-! ## `sePush` (R143) -/

@[simp] theorem sePush_params (b : Byte) (s : State) : (sePush b s).params = s.params := rfl
@[simp] theorem sePush_arg (b : Byte) (s : State) : (sePush b s).arg = s.arg := rfl
@[simp] theorem sePush_latched (b : Byte) (s : State) : (sePush b s).latched = s.latched := rfl
@[simp] theorem sePush_busy (b : Byte) (s : State) : (sePush b s).busy = s.busy := rfl
@[simp] theorem sePush_faulted (b : Byte) (s : State) : (sePush b s).faulted = s.faulted := rfl
@[simp] theorem sePush_code (b : Byte) (s : State) : (sePush b s).code = s.code := rfl
@[simp] theorem sePush_res0 (b : Byte) (s : State) : (sePush b s).res0 = s.res0 := rfl
@[simp] theorem sePush_res1 (b : Byte) (s : State) : (sePush b s).res1 = s.res1 := rfl
@[simp] theorem sePush_se (b : Byte) (s : State) : (sePush b s).se = { s.se with buf := s.se.buf.set s.se.count b, count := s.se.count + 1 } := rfl
@[simp] theorem sePush_sd (b : Byte) (s : State) : (sePush b s).sd = s.sd := rfl
@[simp] theorem sePush_hb (b : Byte) (s : State) : (sePush b s).hb = s.hb := rfl
@[simp] theorem sePush_running (b : Byte) (s : State) : (sePush b s).running = s.running := rfl
@[simp] theorem sePush_log (b : Byte) (s : State) : (sePush b s).log = s.log := rfl
@[simp] theorem sePush_inputs (b : Byte) (s : State) : (sePush b s).inputs = s.inputs := rfl
@[simp] theorem sePush_readData (b : Byte) (s : State) : (sePush b s).readData = s.readData := rfl
@[simp] theorem sePush_draws (b : Byte) (s : State) : (sePush b s).draws = s.draws := rfl

/-! ## `sdStore` (R167) -/

@[simp] theorem sdStore_params (k : Nat) (s : State) : (sdStore k s).params = s.params := rfl
@[simp] theorem sdStore_arg (k : Nat) (s : State) : (sdStore k s).arg = s.arg := rfl
@[simp] theorem sdStore_latched (k : Nat) (s : State) : (sdStore k s).latched = s.latched := rfl
@[simp] theorem sdStore_busy (k : Nat) (s : State) : (sdStore k s).busy = s.busy := rfl
@[simp] theorem sdStore_faulted (k : Nat) (s : State) : (sdStore k s).faulted = s.faulted := rfl
@[simp] theorem sdStore_code (k : Nat) (s : State) : (sdStore k s).code = s.code := rfl
@[simp] theorem sdStore_res0 (k : Nat) (s : State) : (sdStore k s).res0 = s.res0 := rfl
@[simp] theorem sdStore_res1 (k : Nat) (s : State) : (sdStore k s).res1 = s.res1 := rfl
@[simp] theorem sdStore_se (k : Nat) (s : State) : (sdStore k s).se = s.se := rfl
@[simp] theorem sdStore_sd (k : Nat) (s : State) : (sdStore k s).sd = (sdServe s.sd).2 := rfl
@[simp] theorem sdStore_hb (k : Nat) (s : State) : (sdStore k s).hb = Memory.write s.hb (s.latched.a0.toNat + k) (sdServe s.sd).1 := rfl
@[simp] theorem sdStore_running (k : Nat) (s : State) : (sdStore k s).running = s.running := rfl
@[simp] theorem sdStore_log (k : Nat) (s : State) : (sdStore k s).log = s.log := rfl
@[simp] theorem sdStore_inputs (k : Nat) (s : State) : (sdStore k s).inputs = s.inputs := rfl
@[simp] theorem sdStore_readData (k : Nat) (s : State) : (sdStore k s).readData = s.readData := rfl
@[simp] theorem sdStore_draws (k : Nat) (s : State) : (sdStore k s).draws = s.draws := rfl

/-! ## `complete` (R202) -/

@[simp] theorem complete_params (c : StatusCode) (x y : Word) (s : State) : (complete c x y s).params = s.params := by
  simp only [complete]; split <;> simp_all
@[simp] theorem complete_arg (c : StatusCode) (x y : Word) (s : State) : (complete c x y s).arg = s.arg := by
  simp only [complete]; split <;> simp_all
@[simp] theorem complete_latched (c : StatusCode) (x y : Word) (s : State) : (complete c x y s).latched = s.latched := by
  simp only [complete]; split <;> simp_all
@[simp] theorem complete_busy (c : StatusCode) (x y : Word) (s : State) : (complete c x y s).busy = false := by
  simp only [complete]; split <;> simp_all
@[simp] theorem complete_faulted (c : StatusCode) (x y : Word) (s : State) : (complete c x y s).faulted = s.faulted := by
  simp only [complete]; split <;> simp_all
@[simp] theorem complete_code (c : StatusCode) (x y : Word) (s : State) : (complete c x y s).code = if s.faulted then s.code else c := by
  simp only [complete]; split <;> simp_all
@[simp] theorem complete_res0 (c : StatusCode) (x y : Word) (s : State) : (complete c x y s).res0 = if s.faulted then s.res0 else x := by
  simp only [complete]; split <;> simp_all
@[simp] theorem complete_res1 (c : StatusCode) (x y : Word) (s : State) : (complete c x y s).res1 = if s.faulted then s.res1 else y := by
  simp only [complete]; split <;> simp_all
@[simp] theorem complete_se (c : StatusCode) (x y : Word) (s : State) : (complete c x y s).se = s.se := by
  simp only [complete]; split <;> simp_all
@[simp] theorem complete_sd (c : StatusCode) (x y : Word) (s : State) : (complete c x y s).sd = s.sd := by
  simp only [complete]; split <;> simp_all
@[simp] theorem complete_hb (c : StatusCode) (x y : Word) (s : State) : (complete c x y s).hb = s.hb := by
  simp only [complete]; split <;> simp_all
@[simp] theorem complete_running (c : StatusCode) (x y : Word) (s : State) : (complete c x y s).running = none := by
  simp only [complete]; split <;> simp_all
@[simp] theorem complete_log (c : StatusCode) (x y : Word) (s : State) : (complete c x y s).log = s.log := by
  simp only [complete]; split <;> simp_all
@[simp] theorem complete_inputs (c : StatusCode) (x y : Word) (s : State) : (complete c x y s).inputs = s.inputs := by
  simp only [complete]; split <;> simp_all
@[simp] theorem complete_readData (c : StatusCode) (x y : Word) (s : State) : (complete c x y s).readData = s.readData := by
  simp only [complete]; split <;> simp_all
@[simp] theorem complete_draws (c : StatusCode) (x y : Word) (s : State) : (complete c x y s).draws = s.draws := by
  simp only [complete]; split <;> simp_all

/-- `complete` outside a fault: the code and the result words are written (R202). -/
theorem complete_of_not_faulted (c : StatusCode) (x y : Word) {s : State} (h : s.faulted = false) :
    complete c x y s = { s with code := c, res0 := x, res1 := y, busy := false, running := none } := by
  simp [complete, h]

/-- `fault` outside a fault: its code is the one that stands (R205). -/
theorem takeFault_of_not_faulted (c : StatusCode) {s : State} (h : s.faulted = false) :
    takeFault c s = { s with faulted := true, code := c, busy := false, running := none } := by
  simp [takeFault, h]

/-- `fault` after a FAULT_CMD_BUSY: the command only ends (R205). -/
theorem takeFault_of_faulted (c : StatusCode) {s : State} (h : s.faulted = true) :
    takeFault c s = { s with busy := false, running := none } := by
  cases s; simp_all [takeFault]

/-- `complete` after a FAULT_CMD_BUSY: the command only ends (R202, R205). -/
theorem complete_of_faulted (c : StatusCode) (x y : Word) {s : State} (h : s.faulted = true) :
    complete c x y s = { s with busy := false, running := none } := by
  simp [complete, h]

end Sys2Proof.Machine
end

