-- ==== Sys2Proof/Laws/Memory.lean ====
section
/-! SUPPORT. The host buffer (20_memory.md R60): read after write, and every operation keeps its one form. -/

namespace Sys2Proof.Machine

/-- A lookup after a write: the byte written at its offset, and what stood there before at every other. -/
theorem lookup_write (m : Memory) (a : Nat) (b : Byte) (x : Nat) :
    Memory.lookup (Memory.write m a b) x = if x = a then some b else Memory.lookup m x := by
  induction m with
  | nil => simp [Memory.write, Memory.lookup, eq_comm]
  | cons p m ih =>
    obtain ⟨y, c⟩ := p
    simp only [Memory.write]
    split
    · simp only [Memory.lookup]
      by_cases hx : x = a
      · simp [hx]
      · simp [hx, Ne.symm hx]
    · split
      · rename_i h
        simp only [Memory.lookup, ← h]
        by_cases hx : x = a
        · simp [hx]
        · simp [hx, Ne.symm hx]
      · simp only [Memory.lookup, ih]
        by_cases hy : y = x
        · have : x ≠ a := by omega
          simp [hy, this]
        · simp [hy]

/-- A read after a write. -/
theorem read_write (m : Memory) (a : Nat) (b : Byte) (x : Nat) :
    Memory.read (Memory.write m a b) x = if x = a then b else Memory.read m x := by
  unfold Memory.read
  rw [lookup_write]
  by_cases hx : x = a <;> simp [hx]

@[simp] theorem read_write_same (m : Memory) (a : Nat) (b : Byte) : Memory.read (Memory.write m a b) a = b := by
  simp [read_write]

theorem read_write_other (m : Memory) {a x : Nat} (b : Byte) (h : x ≠ a) :
    Memory.read (Memory.write m a b) x = Memory.read m x := by
  simp [read_write, h]

/-- A byte outside the range written reads as before. -/
theorem read_writeRange_outside (bs : List Byte) (m : Memory) {a x : Nat} (h : x < a ∨ a + bs.length ≤ x) :
    Memory.read (Memory.writeRange m a bs) x = Memory.read m x := by
  induction bs generalizing m a with
  | nil => rfl
  | cons b bs ih =>
    simp only [List.length_cons] at h
    rw [Memory.writeRange, ih (Memory.write m a b) (a := a + 1) (by omega), read_write_other _ _ (by omega)]

/-- A byte inside the range written reads as what was written there. -/
theorem read_writeRange_inside (bs : List Byte) (m : Memory) (a k : Nat) (c : Byte) (h : bs[k]? = some c) :
    Memory.read (Memory.writeRange m a bs) (a + k) = c := by
  induction bs generalizing m a k with
  | nil => simp at h
  | cons b bs ih =>
    rw [Memory.writeRange]
    cases k with
    | zero =>
      rw [read_writeRange_outside bs _ (by omega)]
      simpa using h
    | succ k =>
      have := ih (Memory.write m a b) (a + 1) k (by simpa using h)
      rwa [show a + 1 + k = a + (k + 1) by omega] at this

/-- The first offset of a written memory is the least of the two. -/
theorem wf_cons_write (m : Memory) (x a : Nat) (c b : Byte) (h : Memory.wf ((x, c) :: m) = true) (hx : x < a) :
    Memory.wf ((x, c) :: Memory.write m a b) = true := by
  induction m generalizing x c with
  | nil => simp [Memory.write, Memory.wf, hx]
  | cons p m ih =>
    obtain ⟨y, d⟩ := p
    simp only [Memory.wf, Bool.and_eq_true, decide_eq_true_eq] at h
    simp only [Memory.write]
    split
    · simp [Memory.wf, h.2, *]
    · split
      · rename_i hay
        subst hay
        cases m with
        | nil => simp [Memory.wf, hx]
        | cons q m => obtain ⟨z, e⟩ := q; simp_all [Memory.wf]
      · simp only [Memory.wf, Bool.and_eq_true, decide_eq_true_eq]
        exact ⟨h.1, ih y d h.2 (by omega)⟩

/-- A write keeps the form of a memory. -/
theorem wf_write (m : Memory) (a : Nat) (b : Byte) (h : Memory.wf m = true) : Memory.wf (Memory.write m a b) = true := by
  cases m with
  | nil => rfl
  | cons p m =>
    obtain ⟨y, d⟩ := p
    simp only [Memory.write]
    split
    · simp [Memory.wf, *]
    · split
      · rename_i hay
        subst hay
        cases m with
        | nil => rfl
        | cons q m => obtain ⟨z, e⟩ := q; simpa [Memory.wf] using h
      · exact wf_cons_write m y a d b h (by omega)

/-- A write below `size` keeps a memory below `size`. -/
theorem below_write (size : Nat) (m : Memory) (a : Nat) (b : Byte) (h : Memory.below size m = true) (ha : a < size) :
    Memory.below size (Memory.write m a b) = true := by
  induction m with
  | nil => simp [Memory.write, Memory.below, ha]
  | cons p m ih =>
    obtain ⟨y, d⟩ := p
    simp only [Memory.below, Bool.and_eq_true, decide_eq_true_eq] at h
    simp only [Memory.write]
    split
    · simp [Memory.below, h, ha]
    · split
      · simp [Memory.below, h, ha]
      · simp [Memory.below, h, ih]

/-- Writing a range keeps the form of a memory. -/
theorem wf_writeRange (bs : List Byte) (m : Memory) (a : Nat) (h : Memory.wf m = true) :
    Memory.wf (Memory.writeRange m a bs) = true := by
  induction bs generalizing m a with
  | nil => exact h
  | cons b bs ih => exact ih _ _ (wf_write m a b h)

/-- Writing an admitted range keeps a memory below `size`. -/
theorem below_writeRange (size : Nat) (bs : List Byte) (m : Memory) (a : Nat) (h : Memory.below size m = true)
    (ha : a + bs.length ≤ size) : Memory.below size (Memory.writeRange m a bs) = true := by
  induction bs generalizing m a with
  | nil => exact h
  | cons b bs ih =>
    simp only [List.length_cons] at ha
    exact ih _ _ (below_write size m a b h (by omega)) (by omega)

@[simp] theorem length_readRange (m : Memory) (a n : Nat) : (Memory.readRange m a n).length = n := by
  induction n generalizing a with
  | zero => rfl
  | succ n ih => simp [Memory.readRange, ih]

/-- R60: `MemRead(a, n)[k] = HB[a+k]`. -/
theorem getElem?_readRange (m : Memory) (a n k : Nat) (h : k < n) :
    (Memory.readRange m a n)[k]? = some (Memory.read m (a + k)) := by
  induction n generalizing a k with
  | zero => omega
  | succ n ih =>
    cases k with
    | zero => simp [Memory.readRange]
    | succ k =>
      simp only [Memory.readRange, List.getElem?_cons_succ]
      rw [ih (a + 1) k (by omega), show a + 1 + k = a + (k + 1) by omega]

/-- The memory of `State.reset` has the form, and lies below any size. -/
theorem reset_memory_wf : Memory.wf State.reset.hb = true := rfl

theorem reset_memory_below (size : Nat) : Memory.below size State.reset.hb = true := rfl

end Sys2Proof.Machine
end

