-- ==== Sys2Proof/Laws/Bulk.lean ====
section
/-! SUPPORT. The bulk codec, one group and one symbol at a time (42_bulk_codec.md R120–R128), and the ends of BENC and
BDEC. -/

namespace Sys2Proof.Machine

/-! ## The encoder by groups (R120, R121) -/

theorem bulkEncodeFrom_full_line {line : Nat} (h : line + 4 = 76) (x y z : Byte) (rest : List Byte) :
    bulkEncodeFrom line (x :: y :: z :: rest) = encodeGroup x y z 3 ++ lineFeed :: bulkEncodeFrom 0 rest := by
  rw [bulkEncodeFrom, if_pos (show line + 4 = maxLineLength from h)]

theorem bulkEncodeFrom_inside_line {line : Nat} (h : line + 4 ≠ 76) (x y z : Byte) (rest : List Byte) :
    bulkEncodeFrom line (x :: y :: z :: rest) = encodeGroup x y z 3 ++ bulkEncodeFrom (line + 4) rest := by
  rw [bulkEncodeFrom, if_neg (show ¬ line + 4 = maxLineLength from h)]

/-! ## The decoder by bytes and by quartets (R124–R126) -/

theorem bulkDecodeFrom_inv {b : Byte} (h : cls b = .inv) (p : TailPolicy) (i : Nat) (acc : List Sym)
    (out bs : List Byte) :
    bulkDecodeFrom p i acc out (b :: bs) = .err .errMalformed (BitVec.ofNat 32 i) (b.setWidth 32) := by
  rw [bulkDecodeFrom, h]

theorem bulkDecodeFrom_ws {b : Byte} (h : cls b = .ws) (p : TailPolicy) (i : Nat) (acc : List Sym)
    (out bs : List Byte) :
    bulkDecodeFrom p i acc out (b :: bs) = bulkDecodeFrom p (i + 1) acc out bs := by
  rw [bulkDecodeFrom, h]

/-- A symbol before the fourth of its quartet is held. -/
theorem bulkDecodeFrom_hold {b : Byte} {c : Sym} (h : cls b = .sym c) {acc : List Sym} (ha : acc.length < 3)
    (p : TailPolicy) (i : Nat) (out bs : List Byte) :
    bulkDecodeFrom p i acc out (b :: bs) = bulkDecodeFrom p (i + 1) (acc ++ [c]) out bs := by
  rw [bulkDecodeFrom, h]
  match acc, ha with
  | [], _ => rfl
  | [_], _ => rfl
  | [_, _], _ => rfl

/-- The fourth symbol of a quartet decides it. -/
theorem bulkDecodeFrom_fourth {b : Byte} {c : Sym} (h : cls b = .sym c) (p : TailPolicy) (i : Nat) (c0 c1 c2 : Sym)
    (out bs : List Byte) :
    bulkDecodeFrom p i [c0, c1, c2] out (b :: bs) =
      match decodeQuartet c0 c1 c2 c with
      | .badPad => .err .errMalformed (BitVec.ofNat 32 i) (padCause b)
      | .ok bytes _ =>
        if c = .pad then .ok (out ++ bytes) else bulkDecodeFrom p (i + 1) [] (out ++ bytes) bs := by
  rw [bulkDecodeFrom, h] <;> (simp only; cases decodeQuartet c0 c1 c2 c <;> simp only)

/-- Four symbols without padding. -/
theorem bulkDecodeFrom_quartet {v0 v1 v2 v3 : Sextet} {bytes : List Byte} {n : BitVec 2}
    (h : decodeQuartet (.val v0) (.val v1) (.val v2) (.val v3) = .ok bytes n) (p : TailPolicy) (i : Nat)
    (out bs : List Byte) :
    bulkDecodeFrom p i [] out (symOf v0 :: symOf v1 :: symOf v2 :: symOf v3 :: bs) =
      bulkDecodeFrom p (i + 4) [] (out ++ bytes) bs := by
  simp [bulkDecodeFrom, cls_symOf, h]

/-- A padded group ends the text (R126). -/
theorem bulkDecodeFrom_padded_two {v0 v1 v2 : Sextet} {bytes : List Byte} {n : BitVec 2}
    (h : decodeQuartet (.val v0) (.val v1) (.val v2) .pad = .ok bytes n) (p : TailPolicy) (i : Nat)
    (out bs : List Byte) :
    bulkDecodeFrom p i [] out (symOf v0 :: symOf v1 :: symOf v2 :: padChar :: bs) = .ok (out ++ bytes) := by
  simp [bulkDecodeFrom, cls_symOf, cls_padChar, h]

theorem bulkDecodeFrom_padded_one {v0 v1 : Sextet} {bytes : List Byte} {n : BitVec 2}
    (h : decodeQuartet (.val v0) (.val v1) .pad .pad = .ok bytes n) (p : TailPolicy) (i : Nat) (out bs : List Byte) :
    bulkDecodeFrom p i [] out (symOf v0 :: symOf v1 :: padChar :: padChar :: bs) = .ok (out ++ bytes) := by
  simp [bulkDecodeFrom, cls_symOf, cls_padChar, h]

/-! ## The ends of BENC and BDEC (R122, R130) -/

theorem bulkRangesAdmitted_iff (s : State) : bulkRangesAdmitted s = true ↔
    s.latched.a0.toNat + s.latched.a1.toNat ≤ s.params.hbSize ∧
      s.latched.a2.toNat + s.latched.a3.toNat ≤ s.params.hbSize := by
  simp [bulkRangesAdmitted, admitted]

/-- An output that fits is written and counted. -/
theorem bulkFinish_of_fits {out : List Byte} {s : State} (h : out.length ≤ s.latched.a3.toNat) :
    bulkFinish out s = complete .ok (BitVec.ofNat 32 out.length) 0
      { s with hb := Memory.writeRange s.hb s.latched.a2.toNat out } := by
  rw [bulkFinish, if_pos h]

/-- An output that does not fit faults, and nothing is written. -/
theorem bulkFinish_of_too_long {out : List Byte} {s : State} (h : s.latched.a3.toNat < out.length) :
    bulkFinish out s = takeFault .faultRange s := by
  rw [bulkFinish, if_neg (Nat.not_le.mpr h)]

end Sys2Proof.Machine
end

