-- ==== Sys2Proof/Laws/Ports.lean ====
section
/-! SUPPORT. What a waiting command can do with an answer, said once, and the induction over the answers it takes. -/

namespace Sys2Proof.Machine

/-- Which input answers which pending request, and what follows: the cases of `answered`. -/
theorem answered_cases {i : Input} {s s' : State} (h : answered i s = some s') :
    (∃ w a, s.running = some (.se w) ∧ i = .sinkAnswer a ∧ s' = seAnswered w a s) ∨
    (∃ a, s.running = some (.sd .read) ∧ i = .readAnswer a ∧ s' = sdReadAnswered a s) ∨
    (∃ k a, s.running = some (.sd (.readN k)) ∧ i = .readAnswer a ∧ s' = sdReadNAnswered k a s) ∨
    (∃ a, s.running = some (.sd .close) ∧ i = .closeAnswer a ∧ s' = sdCloseAnswered a s) := by
  unfold answered at h
  split at h
  · cases h
  · cases i <;> simp at h
    exact .inl ⟨_, _, ‹_›, rfl, h.symm⟩
  · cases i <;> simp at h
    exact .inr (.inl ⟨_, ‹_›, rfl, h.symm⟩)
  · cases i <;> simp at h
    exact .inr (.inr (.inl ⟨_, _, ‹_›, rfl, h.symm⟩))
  · cases i <;> simp at h
    exact .inr (.inr (.inr ⟨_, ‹_›, rfl, h.symm⟩))
  · cases h

/-- Nothing is answered where nothing waits. -/
theorem answered_of_not_running {i : Input} {s : State} (h : s.running = none) : answered i s = none := by
  unfold answered
  rw [h]

/-- A completed command takes no answer: the inputs to come stay as they are. -/
theorem driveOn_of_not_running (is : List Input) {s : State} (h : s.running = none) :
    driveOn is s = { s with inputs := is } := by
  cases is with
  | nil => rfl
  | cons i is => simp [driveOn, answered_of_not_running h]

theorem drive_of_not_running {s : State} (h : s.running = none) : drive s = s := by
  rw [drive, driveOn_of_not_running _ h]

/-- The next answer is taken. -/
theorem driveOn_cons_of_answered {i : Input} {is : List Input} {s s' : State} (h : answered i s = some s') :
    driveOn (i :: is) s = driveOn is s' := by
  simp [driveOn, h]

/-- A sink command takes the next answer of the sink. -/
theorem driveOn_sinkAnswer {w : SeWait} (a : Ack) (is : List Input) {s : State} (h : s.running = some (.se w)) :
    driveOn (.sinkAnswer a :: is) s = driveOn is (seAnswered w a s) :=
  driveOn_cons_of_answered (by simp [answered, h])

/-- An SD_READ takes the next answer of the source. -/
theorem driveOn_readAnswer (a : ReadAnswer) (is : List Input) {s : State} (h : s.running = some (.sd .read)) :
    driveOn (.readAnswer a :: is) s = driveOn is (sdReadAnswered a s) :=
  driveOn_cons_of_answered (by simp [answered, h])

/-- An SD_READN takes the next answer of the source. -/
theorem driveOn_readAnswerN {k : Nat} (a : ReadAnswer) (is : List Input) {s : State}
    (h : s.running = some (.sd (.readN k))) :
    driveOn (.readAnswer a :: is) s = driveOn is (sdReadNAnswered k a s) :=
  driveOn_cons_of_answered (by simp [answered, h])

/-- An SD_CLOSE takes the answer to its close. -/
theorem driveOn_closeAnswer (a : Ack) (is : List Input) {s : State} (h : s.running = some (.sd .close)) :
    driveOn (.closeAnswer a :: is) s = driveOn is (sdCloseAnswered a s) :=
  driveOn_cons_of_answered (by simp [answered, h])

/-- What holds before a command takes answers, and is kept by each answer, holds after: the one induction over the
answers. -/
theorem driveOn_induction {P : State → Prop} (hinputs : ∀ s is, P s → P { s with inputs := is })
    (hanswer : ∀ i s s', P s → answered i s = some s' → P s') (is : List Input) (s : State) (h : P s) :
    P (driveOn is s) := by
  induction is generalizing s with
  | nil => exact hinputs s [] h
  | cons i is ih =>
    rw [driveOn]
    split
    · exact ih _ (hanswer i s _ h ‹_›)
    · exact hinputs s _ h

end Sys2Proof.Machine
end

