-- ==== Sys2Proof/Laws/Bystander.lean ====
section
/-! SUPPORT. What a running command neither reads nor minds, said once: an update of the state that keeps what commands read
and goes through their operations goes through every command. Four such updates: of the inputs to come, of ARG0–ARG3, of
STATUS and the result words after a FAULT_CMD_BUSY (60_exceptions.md R205), and of what waited before. -/

namespace Sys2Proof.Machine

/-- `f` keeps what a command reads and goes through the updates inside it; where the command ends or makes its next request,
`f` before is `g` after. -/
structure Bystander (f g : State → State) : Prop where
  params : ∀ s, (f s).params = s.params
  latched : ∀ s, (f s).latched = s.latched
  se : ∀ s, (f s).se = s.se
  sd : ∀ s, (f s).sd = s.sd
  hb : ∀ s, (f s).hb = s.hb
  log : ∀ s, (f s).log = s.log
  complete : ∀ c x y s, complete c x y (f s) = g (complete c x y s)
  fault : ∀ c s, takeFault c (f s) = g (takeFault c s)
  ask : ∀ w s, ask w (f s) = g (ask w s)
  setSe : ∀ u s, { f s with se := u } = f { s with se := u }
  setSd : ∀ u s, { f s with sd := u } = f { s with sd := u }
  setHb : ∀ m s, { f s with hb := m } = f { s with hb := m }
  setLog : ∀ l s, { f s with log := l } = f { s with log := l }

/-- The inputs to come are no business of a running command. -/
def putInputs (is : List Input) (s : State) : State := { s with inputs := is }

/-- Nor are ARG0–ARG3 (10_state.md R29). -/
def putArg (g : Args) (s : State) : State := { s with arg := g }

/-- STATUS and the result words as a FAULT_CMD_BUSY leaves them (R205). -/
def putReport (c : StatusCode) (x y : Word) (s : State) : State :=
  { s with faulted := true, code := c, res0 := x, res1 := y }

/-- What a command waited on before it went on. -/
def putRunning (r : Option Waiting) (s : State) : State := { s with running := r }

theorem putInputs_bystander (is : List Input) : Bystander (putInputs is) (putInputs is) where
  params _ := rfl
  latched _ := rfl
  se _ := rfl
  sd _ := rfl
  hb _ := rfl
  log _ := rfl
  complete c x y s := by unfold complete putInputs; split <;> rfl
  fault _ _ := rfl
  ask _ _ := rfl
  setSe _ _ := rfl
  setSd _ _ := rfl
  setHb _ _ := rfl
  setLog _ _ := rfl

theorem putArg_bystander (g : Args) : Bystander (putArg g) (putArg g) where
  params _ := rfl
  latched _ := rfl
  se _ := rfl
  sd _ := rfl
  hb _ := rfl
  log _ := rfl
  complete c x y s := by unfold complete putArg; split <;> rfl
  fault _ _ := rfl
  ask _ _ := rfl
  setSe _ _ := rfl
  setSd _ _ := rfl
  setHb _ _ := rfl
  setLog _ _ := rfl

theorem putReport_bystander (c : StatusCode) (x y : Word) : Bystander (putReport c x y) (putReport c x y) where
  params _ := rfl
  latched _ := rfl
  se _ := rfl
  sd _ := rfl
  hb _ := rfl
  log _ := rfl
  complete c' x' y' s := by
    rw [complete_of_faulted _ _ _ rfl]
    unfold complete putReport
    split <;> rfl
  fault c' s := by rw [takeFault_of_faulted _ rfl]; rfl
  ask _ _ := rfl
  setSe _ _ := rfl
  setSd _ _ := rfl
  setHb _ _ := rfl
  setLog _ _ := rfl

/-- What waited before does not matter once the command ends or makes its next request. -/
theorem putRunning_bystander (r : Option Waiting) : Bystander (putRunning r) id where
  params _ := rfl
  latched _ := rfl
  se _ := rfl
  sd _ := rfl
  hb _ := rfl
  log _ := rfl
  complete _ _ _ _ := rfl
  fault _ _ := rfl
  ask _ _ := rfl
  setSe _ _ := rfl
  setSd _ _ := rfl
  setHb _ _ := rfl
  setLog _ _ := rfl

namespace Bystander

variable {f g : State → State} (hf : Bystander f g)
include hf

theorem hold (r : Ready) (s : State) : Machine.hold r (f s) = g (Machine.hold r s) := hf.ask (.ready r) s

theorem observe (e : Exchange) (s : State) : Machine.observe e (f s) = f (Machine.observe e s) := by
  unfold Machine.observe
  rw [hf.log]
  exact hf.setLog _ s

theorem raiseSe (c : StatusCode) (x y : Word) (s : State) :
    Machine.raiseSe c x y (f s) = g (Machine.raiseSe c x y s) := by
  unfold Machine.raiseSe
  rw [hf.se, hf.setSe, hf.complete]

theorem raiseSd (c : StatusCode) (x y : Word) (s : State) :
    Machine.raiseSd c x y (f s) = g (Machine.raiseSd c x y s) := by
  unfold Machine.raiseSd
  rw [hf.sd, hf.setSd, hf.complete]

/-! ## Stream Encoder -/

theorem sePush (b : Byte) (s : State) : Machine.sePush b (f s) = f (Machine.sePush b s) := by
  unfold Machine.sePush
  rw [hf.se, hf.setSe]

theorem seEmitGroup (m : SeMore) (s : State) : Machine.seEmitGroup m (f s) = g (Machine.seEmitGroup m s) := by
  unfold Machine.seEmitGroup seGroupSymbols
  rw [hf.se]
  split
  · rename_i h; cases h
  · exact hf.ask _ s

theorem seWriteMany (bytes : List Byte) (k : Nat) (s : State) :
    Machine.seWriteMany k bytes (f s) = g (Machine.seWriteMany k bytes s) := by
  induction bytes generalizing k s with
  | nil => exact hf.complete _ _ _ s
  | cons b bytes ih =>
    unfold Machine.seWriteMany
    rw [hf.sePush, hf.se]
    split
    · exact hf.seEmitGroup _ _
    · exact ih _ _

theorem seWriteOne (b : Byte) (s : State) : Machine.seWriteOne b (f s) = g (Machine.seWriteOne b s) := by
  unfold Machine.seWriteOne
  rw [hf.sePush, hf.se]
  split
  · exact hf.seEmitGroup _ _
  · exact hf.complete _ _ _ _

theorem seGroupDone (m : SeMore) (s : State) : Machine.seGroupDone m (f s) = g (Machine.seGroupDone m s) := by
  unfold Machine.seGroupDone
  cases m <;> simp only [hf.se, hf.setSe]
  · exact hf.complete _ _ _ _
  · exact hf.seWriteMany _ _ _

theorem seSymbolsSent (m : SeMore) (s : State) : Machine.seSymbolsSent m (f s) = g (Machine.seSymbolsSent m s) := by
  unfold Machine.seSymbolsSent
  simp only [hf.se, hf.setSe]
  split
  · exact hf.ask _ _
  · exact hf.seGroupDone _ _

theorem seFlushBody (closing : Bool) (s : State) :
    Machine.seFlushBody closing (f s) = g (Machine.seFlushBody closing s) := by
  unfold Machine.seFlushBody seGroupSymbols
  rw [hf.se]
  split
  · split
    · rename_i h; cases h
    · exact hf.ask _ s
  · exact hf.ask _ s

theorem seAcked (w : SeWait) (s : State) : Machine.seAcked w (f s) = g (Machine.seAcked w s) := by
  unfold Machine.seAcked
  split
  · exact hf.ask _ s
  · exact hf.seSymbolsSent _ s
  · rw [hf.se, hf.setSe]; exact hf.seGroupDone _ _
  · exact hf.ask _ s
  · exact hf.ask _ s
  · exact hf.ask _ s
  · exact hf.complete _ _ _ s
  · rw [hf.se, hf.setSe]; exact hf.complete _ _ _ _

theorem seGoesOn (w : SeWait) (a : Ack) (s : State) : Machine.seGoesOn w a (f s) = g (Machine.seGoesOn w a s) := by
  cases a with
  | ack => exact hf.seAcked w s
  | fail e =>
    unfold Machine.seGoesOn
    simp only [hf.params]
    exact hf.raiseSe _ _ _ s

theorem seAnswered (w : SeWait) (a : Ack) (s : State) :
    Machine.seAnswered w a (f s) = g (Machine.seAnswered w a s) := by
  unfold Machine.seAnswered
  rw [hf.observe, hf.seGoesOn]

/-! ## Stream Decoder -/

theorem sdReadServe (s : State) : Machine.sdReadServe (f s) = g (Machine.sdReadServe s) := by
  unfold Machine.sdReadServe
  rw [hf.sd, hf.setSd, hf.complete]

theorem sdReadNEos (k : Nat) (s : State) : Machine.sdReadNEos k (f s) = g (Machine.sdReadNEos k s) := by
  unfold Machine.sdReadNEos
  split <;> exact hf.complete _ _ _ s

theorem sdStore (k : Nat) (s : State) : Machine.sdStore k (f s) = f (Machine.sdStore k s) := by
  have hb : Memory.write (f s).hb ((f s).latched.a0.toNat + k) (sdServe (f s).sd).1 =
      Memory.write s.hb (s.latched.a0.toNat + k) (sdServe s.sd).1 := by rw [hf.sd, hf.hb, hf.latched]
  unfold Machine.sdStore
  rw [hb, hf.sd]
  exact (congrArg (fun t : State => { t with sd := (sdServe s.sd).2 })
    (hf.setHb (Memory.write s.hb (s.latched.a0.toNat + k) (sdServe s.sd).1) s)).trans (hf.setSd _ _)

theorem sdReadUpTo (n left k : Nat) (s : State) :
    Machine.sdReadUpTo n left k (f s) = g (Machine.sdReadUpTo n left k s) := by
  induction left generalizing n k s with
  | zero => cases n <;> exact hf.complete _ _ _ s
  | succ left ih =>
    cases n with
    | zero => exact hf.hold _ s
    | succ n =>
      simp only [Machine.sdReadUpTo, hf.sd]
      split
      · exact hf.sdReadNEos k s
      · split
        · exact hf.ask _ s
        · simp only [hf.sdStore]; exact ih _ _ _

theorem sdReadMany (left k : Nat) (s : State) :
    Machine.sdReadMany left k (f s) = g (Machine.sdReadMany left k s) := hf.sdReadUpTo left left k s

theorem sdReadGoesOn (a : ReadAnswer) (s : State) :
    Machine.sdReadGoesOn a (f s) = g (Machine.sdReadGoesOn a s) := by
  have h : sdFillStep (f s).params a (f s).sd = sdFillStep s.params a s.sd := by rw [hf.params, hf.sd]
  unfold Machine.sdReadGoesOn sdReadOn
  rw [h]
  split <;> rw [hf.setSd]
  · exact hf.ask _ _
  · exact hf.sdReadServe _
  · exact hf.complete _ _ _ _
  · exact hf.raiseSd _ _ _ _

theorem sdReadNGoesOn (n k : Nat) (a : ReadAnswer) (s : State) :
    Machine.sdReadNGoesOn n k a (f s) = g (Machine.sdReadNGoesOn n k a s) := by
  have h : sdFillStep (f s).params a (f s).sd = sdFillStep s.params a s.sd := by rw [hf.params, hf.sd]
  have hl : (f s).latched.a1.toNat = s.latched.a1.toNat := by rw [hf.latched]
  unfold Machine.sdReadNGoesOn sdReadNOn
  rw [h, hl]
  split <;> rw [hf.setSd]
  · exact hf.ask _ _
  · exact hf.sdReadUpTo _ _ _ _
  · exact hf.sdReadNEos _ _
  · exact hf.raiseSd _ _ _ _

theorem sdCloseGoesOn (a : Ack) (s : State) : Machine.sdCloseGoesOn a (f s) = g (Machine.sdCloseGoesOn a s) := by
  cases a with
  | ack =>
    unfold Machine.sdCloseGoesOn
    simp only [hf.sd, hf.setSd]
    exact hf.complete _ _ _ _
  | fail e =>
    unfold Machine.sdCloseGoesOn
    simp only [hf.params]
    exact hf.raiseSd _ _ _ s

/-! ## The answers -/

/-- An answer finds the command as it was, and leaves it so. -/
theorem answered (hr : ∀ s, (f s).running = s.running) (i : Input) (s : State) :
    Machine.answered i (f s) = (Machine.answered i s).map g := by
  unfold Machine.answered
  rw [hr]
  split
  · rfl
  · cases i <;> simp [hf.seAnswered]
  · cases i <;> simp [sdReadAnswered, hf.observe, hf.sdReadGoesOn]
  · cases i <;> simp [sdReadNAnswered, hf.observe, hf.sdReadNGoesOn, hf.latched]
  · cases i <;> simp [sdCloseAnswered, hf.observe, hf.sdCloseGoesOn]
  · rfl

end Bystander

/-- Answers in a row too, where the update leaves the inputs alone. -/
theorem Bystander.driveOn {f : State → State} (hf : Bystander f f) (hr : ∀ s, (f s).running = s.running)
    (hi : ∀ is s, { f s with inputs := is } = f { s with inputs := is }) (is : List Input) (s : State) :
    Machine.driveOn is (f s) = f (Machine.driveOn is s) := by
  induction is generalizing s with
  | nil => exact hi [] s
  | cons i is ih =>
    unfold Machine.driveOn
    rw [hf.answered hr]
    cases h : Machine.answered i s with
    | none => exact hi _ s
    | some s' => exact ih s'

/-! ## The inputs that are not yet taken -/

/-- What a command does with an answer does not depend on the inputs behind it. -/
theorem answered_putInputs (i : Input) (is : List Input) (s : State) :
    answered i (putInputs is s) = (answered i s).map (putInputs is) :=
  (putInputs_bystander is).answered (fun _ => rfl) i s

/-- The answers in a row are those given, whatever the state's own inputs. -/
theorem driveOn_putInputs (is js : List Input) (s : State) : driveOn is (putInputs js s) = driveOn is s := by
  induction is generalizing s with
  | nil => rfl
  | cons i is ih =>
    unfold driveOn
    rw [answered_putInputs]
    cases answered i s with
    | none => rfl
    | some s' => exact ih s'

/-- A command that used up the answers `front` and waits goes on over those that stand behind them. -/
theorem driveOn_append {front : List Input} (back : List Input) {s : State} (h : (driveOn front s).inputs = []) :
    driveOn (front ++ back) s = driveOn back (driveOn front s) := by
  induction front generalizing s with
  | nil => exact (driveOn_putInputs back [] s).symm
  | cons i front ih =>
    rw [List.cons_append, driveOn, driveOn]
    cases ha : answered i s with
    | some s' =>
      rw [driveOn, ha] at h
      exact ih h
    | none => simp [driveOn, ha] at h

end Sys2Proof.Machine
end

