-- ==== Sys2Proof/Laws/Decode.lean ====
section
/-! SUPPORT. The fields of the command word and the word are one thing written two ways (30_encoding.md R80), and the
opcode map is one to one (R81). -/

namespace Sys2Proof

/-- No bit of a word is lost in its fields. -/
@[simp] theorem wordOf_fieldsOf (w : Word) : wordOf (fieldsOf w) = w := by
  apply BitVec.eq_of_getLsbD_eq
  intro i hi
  simp only [wordOf, fieldsOf, BitVec.getLsbD_append, BitVec.getLsbD_extractLsb']
  interval_cases i <;> simp

/-- Each field of an assembled word is the field given. -/
@[simp] theorem fieldsOf_wordOf (f : Fields) : fieldsOf (wordOf f) = f := by
  cases f with | mk opc imm8 cnt dir reserved =>
  simp only [fieldsOf, wordOf, Fields.mk.injEq]
  refine ⟨?_, ?_, ?_, ?_, ?_⟩ <;> apply BitVec.eq_of_getLsbD_eq <;> intro i hi <;>
    simp only [BitVec.getLsbD_append, BitVec.getLsbD_extractLsb'] <;> interval_cases i <;> simp

/-- The test of a table row, field by field: masking a word masks each field. -/
theorem wordOf_and_wordOf (f g : Fields) :
    wordOf f &&& wordOf g = wordOf
      { opc := f.opc &&& g.opc, imm8 := f.imm8 &&& g.imm8, cnt := f.cnt &&& g.cnt, dir := f.dir &&& g.dir,
        reserved := f.reserved &&& g.reserved } := by
  apply BitVec.eq_of_getLsbD_eq
  intro i hi
  simp only [wordOf, BitVec.getLsbD_and, BitVec.getLsbD_append]
  interval_cases i <;> simp

/-- Words are equal exactly where their fields are. -/
theorem wordOf_inj {f g : Fields} : wordOf f = wordOf g ↔ f = g :=
  ⟨fun h => by simpa using congrArg fieldsOf h, fun h => by rw [h]⟩

/-- R81: each operation's byte is read as that operation. -/
@[simp] theorem opcodeOf_byte (op : Opcode) : opcodeOf op.byte = some op := by
  cases op <;> decide

set_option maxRecDepth 20000 in
/-- R81: no other byte is read as an operation. -/
theorem opcodeOf_eq_some {b : Byte} {op : Opcode} : opcodeOf b = some op ↔ b = op.byte := by
  constructor
  · revert b
    cases op <;> decide
  · rintro rfl
    exact opcodeOf_byte op

end Sys2Proof
end

