-- ==== Sys2Proof/Laws/Commands.lean ====
section
/-! SUPPORT. How a command is issued and what it requires of its unit (60_exceptions.md R202–R206, 43_stream_encoder.md
R141, 44_stream_decoder.md R161), each said once. -/

namespace Sys2Proof.Machine

/-! ## The step -/

/-- A step takes the first of the inputs. -/
theorem step_of_input {s : State} {i : Input} {rest : List Input} (h : s.inputs = i :: rest) :
    step s = takeInput i { s with inputs := rest } := by
  rw [step, nextInput, h]

/-- With no input left a command that takes its time goes on (R230). -/
theorem step_of_no_input {s : State} (h : s.inputs = []) : step s = proceed s := by
  rw [step, nextInput, h]

/-- With no input and no command that takes its time, nothing changes. -/
theorem step_of_nothing {s : State} (h : s.inputs = []) (hr : ∀ r, s.running ≠ some (.ready r)) : step s = .next s := by
  rw [step_of_no_input h, proceed]
  split
  · next r hs => exact absurd hs (hr r)
  · rfl

/-! ## The CMD write, in the priority of R206 -/

theorem cmdWrite_of_faulted {s : State} (w : Word) (h : s.faulted = true) : cmdWrite w s = .next s := by
  rw [cmdWrite, if_pos h]

theorem cmdWrite_of_busy {s : State} (w : Word) (hf : s.faulted = false) (hb : s.busy = true) :
    cmdWrite w s = .next (takeCmdBusy s) := by
  simp [cmdWrite, hf, hb]

theorem cmdWrite_of_illegal {s : State} {w : Word} {e : Illegal} (hf : s.faulted = false) (hb : s.busy = false)
    (hw : decode w = .error e) : cmdWrite w s = .next (takeFault .faultIllegalCmd s) := by
  simp [cmdWrite, hf, hb, hw]

theorem cmdWrite_of_command {s : State} {w : Word} {i : Instr} (hf : s.faulted = false) (hb : s.busy = false)
    (hw : decode w = .ok i) : cmdWrite w s = exec i (latch s) := by
  simp [cmdWrite, hf, hb, hw]

/-! ## What a command requires of its unit -/

/-- An SE command on an Open unit runs its body. -/
theorem requireOpenSe_of_open {s : State} (body : State) (h : s.se.state = .opened) : requireOpenSe s body = body := by
  rw [requireOpenSe, h]

/-- Everything an SE command can do before its body (R141). -/
theorem requireOpenSe_cases (s body : State) :
    (s.se.state = .opened ∧ requireOpenSe s body = body) ∨
    (s.se.state = .idle ∧ requireOpenSe s body = takeFault .faultNotOpen s) ∨
    (s.se.state = .closed ∧ requireOpenSe s body = takeFault .faultClosed s) ∨
    (s.se.state = .failed ∧ requireOpenSe s body = takeFault .faultUnitFailed s) := by
  unfold requireOpenSe
  cases s.se.state <;> simp

/-- An SD command on a bound unit runs its body. -/
theorem requireOpenSd_of_bound {s : State} (body : State)
    (h : s.sd.phase = .empty ∨ s.sd.phase = .ready ∨ s.sd.phase = .exhausted) : requireOpenSd s body = body := by
  rcases h with h | h | h <;> rw [requireOpenSd, h]

/-- Everything an SD command can do before its body (R161). -/
theorem requireOpenSd_cases (s body : State) :
    ((s.sd.phase = .empty ∨ s.sd.phase = .ready ∨ s.sd.phase = .exhausted) ∧ requireOpenSd s body = body) ∨
    (s.sd.phase = .idle ∧ requireOpenSd s body = takeFault .faultNotOpen s) ∨
    (s.sd.phase = .closed ∧ requireOpenSd s body = takeFault .faultClosed s) ∨
    (s.sd.phase = .failed ∧ requireOpenSd s body = takeFault .faultUnitFailed s) := by
  unfold requireOpenSd
  cases s.sd.phase <;> simp

end Sys2Proof.Machine
end

