-- ==== Sys2Proof/Laws/Pace.lean ====
section
/-! SUPPORT. How a command's run is cut into steps (20_memory.md R66–R68, 70_reset_and_hazards.md R230): answers in place
and answers that come later, and SD_READN's stores in one go and in several. -/

namespace Sys2Proof.Machine

/-! ## Which inputs answer -/

/-- An input is taken as an answer exactly where it answers the pending request. -/
theorem answered_isSome_iff_awaits (i : Input) (s : State) : (answered i s).isSome = true ↔ s.awaits i := by
  unfold answered State.awaits
  split <;> rename_i h <;> cases i <;> simp [h, Input.answers, SdWait.request]

theorem answered_eq_none_of_not_awaits {i : Input} {s : State} (h : ¬ s.awaits i) : answered i s = none := by
  rw [← answered_isSome_iff_awaits] at h
  simpa using h

theorem exists_answered_of_awaits {i : Input} {s : State} (h : s.awaits i) : ∃ s', answered i s = some s' := by
  rw [← answered_isSome_iff_awaits] at h
  exact Option.isSome_iff_exists.mp h

/-- Only a sink's and the source's answers are awaited. -/
theorem awaits_cases {i : Input} {s : State} (h : s.awaits i) :
    (∃ a, i = .sinkAnswer a) ∨ (∃ a, i = .readAnswer a) ∨ (∃ a, i = .closeAnswer a) := by
  obtain ⟨w, -, h⟩ := h
  cases i <;> simp [Input.answers] at h <;> simp

/-! ## Every command is a beginning and the answers that follow -/

@[simp] theorem drive_takeFault (c : StatusCode) (s : State) : drive (takeFault c s) = takeFault c s :=
  drive_of_not_running rfl

@[simp] theorem drive_complete (c : StatusCode) (x y : Word) (s : State) : drive (complete c x y s) = complete c x y s :=
  drive_of_not_running (complete_running c x y s)

@[simp] theorem drive_raiseSd (c : StatusCode) (x y : Word) (s : State) : drive (raiseSd c x y s) = raiseSd c x y s :=
  drive_complete c x y _

@[simp] theorem drive_sdReadServe (s : State) : drive (sdReadServe s) = sdReadServe s := drive_complete _ _ _ _

/-- BENC and BDEC end with their output. -/
@[simp] theorem drive_bulkFinish (out : List Byte) (s : State) : drive (bulkFinish out s) = bulkFinish out s := by
  unfold bulkFinish
  split <;> simp

theorem drive_requireOpenSe (s body : State) : requireOpenSe s (drive body) = drive (requireOpenSe s body) := by
  rcases requireOpenSe_cases s body with ⟨h, e⟩ | ⟨h, e⟩ | ⟨h, e⟩ | ⟨h, e⟩
  · rw [e, requireOpenSe_of_open _ h]
  all_goals simp [requireOpenSe, h]

theorem drive_requireOpenSd (s body : State) : requireOpenSd s (drive body) = drive (requireOpenSd s body) := by
  rcases requireOpenSd_cases s body with ⟨h, e⟩ | ⟨h, e⟩ | ⟨h, e⟩ | ⟨h, e⟩
  · rw [e, requireOpenSd_of_bound _ h]
  all_goals simp [requireOpenSd, h]

namespace Bystander

variable {f g : State → State} (hf : Bystander f g)
include hf

theorem requireOpenSe {s body : State} : Machine.requireOpenSe (f s) (g body) = g (Machine.requireOpenSe s body) := by
  unfold Machine.requireOpenSe
  rw [hf.se]
  cases s.se.state <;> first | rfl | exact hf.fault _ s

theorem requireOpenSd {s body : State} : Machine.requireOpenSd (f s) (g body) = g (Machine.requireOpenSd s body) := by
  unfold Machine.requireOpenSd
  rw [hf.sd]
  cases s.sd.phase <;> first | rfl | exact hf.fault _ s

theorem bulkFinish (out : List Byte) (s : State) : Machine.bulkFinish out (f s) = g (Machine.bulkFinish out s) := by
  have h : Memory.writeRange (f s).hb (f s).latched.a2.toNat out =
      Memory.writeRange s.hb s.latched.a2.toNat out := by rw [hf.hb, hf.latched]
  have hl : (f s).latched.a3.toNat = s.latched.a3.toNat := by rw [hf.latched]
  unfold Machine.bulkFinish
  rw [h, hl, hf.setHb]
  split
  · exact hf.complete _ _ _ _
  · exact hf.fault _ s

theorem bulkRangesAdmitted (s : State) : Machine.bulkRangesAdmitted (f s) = Machine.bulkRangesAdmitted s := by
  unfold Machine.bulkRangesAdmitted
  rw [hf.params, hf.latched]

theorem bulkSource (s : State) : Machine.bulkSource (f s) = Machine.bulkSource s := by
  unfold Machine.bulkSource
  rw [hf.hb, hf.latched]

theorem sdReadnBegin (n : Nat) (s : State) : Machine.sdReadnBegin n (f s) = g (Machine.sdReadnBegin n s) := by
  unfold Machine.sdReadnBegin
  rw [hf.params, hf.latched]
  split
  · split
    · exact hf.complete _ _ _ s
    · exact hf.sdReadUpTo _ _ _ s
  · exact hf.fault _ s

end Bystander

/-- A command is what it does up to its first request, and then the answers in place; the first part goes through every
update it does not mind. -/
theorem exec_factors (i : Instr) :
    ∃ b : State → State, (∀ f g, Bystander f g → ∀ s, b (f s) = g (b s)) ∧ ∀ s, exec i s = .next (drive (b s)) := by
  cases i with
  | encgrp cnt =>
    refine ⟨fun s => if cnt = 0 then takeFault .faultIllegalCmd s else complete .ok (packBytes (encodeGroup
      (byte0 s.latched.a0) (byte1 s.latched.a0) (byte2 s.latched.a0) cnt)) 0 s, fun f g hf s => ?_, fun s => ?_⟩
    · by_cases h : cnt = 0 <;> simp only [h, hf.latched, hf.fault, hf.complete, if_true, if_false]
    · by_cases h : cnt = 0 <;> simp only [h, exec, execEncgrp, if_true, if_false, drive_takeFault, drive_complete]
  | decq =>
    refine ⟨fun s => match decqResult (byte0 s.latched.a0) (byte1 s.latched.a0) (byte2 s.latched.a0)
      (byte3 s.latched.a0) with | (c, x, y) => complete c x y s, fun f g hf s => ?_, fun s => ?_⟩
    · simp only [hf.latched, hf.complete]
    · exact congrArg Host.Outcome.next (drive_complete _ _ _ _).symm
  | benc =>
    refine ⟨fun s => if bulkRangesAdmitted s then bulkFinish (bulkEncode (bulkSource s)) s
      else takeFault .faultRange s, fun f g hf s => ?_, fun s => ?_⟩
    · by_cases h : bulkRangesAdmitted s = true <;>
        simp [h, hf.bulkRangesAdmitted, hf.bulkSource, hf.bulkFinish, hf.fault]
    · by_cases h : bulkRangesAdmitted s = true <;>
        simp [h, exec, execBenc]
  | bdec =>
    refine ⟨fun s => if bulkRangesAdmitted s then
        match bulkDecode s.params.bulkTailPolicy (bulkSource s) with
        | .err c x y => complete c x y s
        | .ok out => bulkFinish out s
      else takeFault .faultRange s, fun f g hf s => ?_, fun s => ?_⟩
    · by_cases h : bulkRangesAdmitted s = true <;>
        simp only [h, hf.bulkRangesAdmitted, hf.bulkSource, hf.params, hf.fault, if_true, Bool.false_eq_true, if_false]
      split <;> simp only [hf.complete, hf.bulkFinish]
    · by_cases h : bulkRangesAdmitted s = true
      · cases hd : bulkDecode s.params.bulkTailPolicy (bulkSource s) <;>
          simp [h, hd, exec, execBdec]
      · simp [h, exec, execBdec]
  | openSink =>
    refine ⟨fun s => if s.se.state = .opened then takeFault .faultUnitBusy s else complete .ok 0 0
      { s with se := { state := .opened, buf := ⟨0, 0, 0⟩, count := 0, line := 0 } }, fun f g hf s => ?_, fun s => ?_⟩
    · by_cases h : s.se.state = .opened <;> simp [h, hf.se, hf.fault, hf.setSe, hf.complete]
    · by_cases h : s.se.state = .opened <;> simp [h, exec, execOpenSink]
  | seWrite b =>
    refine ⟨fun s => requireOpenSe s (seWriteOne b s), fun f g hf s => ?_, fun s => ?_⟩
    · simp only [hf.seWriteOne]; exact hf.requireOpenSe
    · rw [← drive_requireOpenSe]; rfl
  | seWriten =>
    refine ⟨fun s => requireOpenSe s (if admitted s.params s.latched.a0 s.latched.a1 then
      seWriteMany 0 (Memory.readRange s.hb s.latched.a0.toNat s.latched.a1.toNat) s
      else takeFault .faultRange s), fun f g hf s => ?_, fun s => ?_⟩
    · simp only [hf.latched, hf.params, hf.hb, hf.seWriteMany, hf.fault]
      split <;> exact hf.requireOpenSe
    · rw [← drive_requireOpenSe]
      simp only [exec, execSeWriten, seWritenBody]
      split
      · rfl
      · rw [drive_takeFault]
  | seFlush =>
    refine ⟨fun s => requireOpenSe s (seFlushBody false s), fun f g hf s => ?_, fun s => ?_⟩
    · simp only [hf.seFlushBody]; exact hf.requireOpenSe
    · rw [← drive_requireOpenSe]; rfl
  | seClose =>
    refine ⟨fun s => requireOpenSe s (seFlushBody true s), fun f g hf s => ?_, fun s => ?_⟩
    · simp only [hf.seFlushBody]; exact hf.requireOpenSe
    · rw [← drive_requireOpenSe]; rfl
  | openSource =>
    refine ⟨fun s => match s.sd.phase with
      | .empty | .ready | .exhausted => takeFault .faultUnitBusy s
      | .idle | .closed | .failed => complete .ok 0 0 { s with sd := sdOpened }, fun f g hf s => ?_, fun s => ?_⟩
    · simp only [hf.sd, hf.fault, hf.setSd, hf.complete]; cases s.sd.phase <;> rfl
    · simp only [exec, execOpenSource]; cases s.sd.phase <;> simp
  | sdRead =>
    refine ⟨fun s => requireOpenSd s (if s.sd.phase = .exhausted then complete .eos 0 0 s
      else if s.sd.phase = .empty then ask (.sd .read) s else sdReadServe s), fun f g hf s => ?_, fun s => ?_⟩
    · simp only [hf.sd, hf.complete, hf.ask, hf.sdReadServe]
      split <;> [skip; split] <;> exact hf.requireOpenSd
    · rw [← drive_requireOpenSd]
      simp only [exec, execSdRead, sdReadBody]
      split <;> [simp only [drive_complete]; (split <;> simp only [drive_sdReadServe])]
  | sdReadn =>
    refine ⟨fun s => requireOpenSd s (sdReadnBegin s.latched.a1.toNat s), fun f g hf s => ?_, fun s => ?_⟩
    · simp only [hf.latched, hf.sdReadnBegin]; exact hf.requireOpenSd
    · rw [← drive_requireOpenSd]; rfl
  | sdClose =>
    refine ⟨fun s => requireOpenSd s (if s.sd.count = 0 then ask (.sd .close) s
      else raiseSd .errImproperPadding (s.sd.count.setWidth 32) 0 s), fun f g hf s => ?_, fun s => ?_⟩
    · simp only [hf.sd, hf.ask, hf.raiseSd]
      split <;> exact hf.requireOpenSd
    · rw [← drive_requireOpenSd]
      simp only [exec, execSdClose, sdCloseBody]
      split <;> simp only [drive_raiseSd]

/-! ## SD_READN's stores (R167) -/

theorem sdReadUpTo_zero (n k : Nat) (s : State) : sdReadUpTo n 0 k s = complete .ok (BitVec.ofNat 32 k) 0 s := by
  unfold sdReadUpTo
  rfl

theorem sdReadUpTo_of_exhausted (n left k : Nat) {s : State} (h : s.sd.phase = .exhausted) :
    sdReadUpTo (n + 1) (left + 1) k s = sdReadNEos k s := by
  rw [sdReadUpTo, if_pos h]

theorem sdReadUpTo_of_empty (n left k : Nat) {s : State} (h : s.sd.phase = .empty) :
    sdReadUpTo (n + 1) (left + 1) k s = ask (.sd (.readN k)) s := by
  rw [sdReadUpTo, if_neg (by rw [h]; decide), if_pos h]

theorem sdReadUpTo_stop (left k : Nat) (s : State) : sdReadUpTo 0 (left + 1) k s = hold (.storing k) s := by
  rw [sdReadUpTo]

theorem sdReadUpTo_store (n left k : Nat) {s : State} (h1 : s.sd.phase ≠ .exhausted) (h2 : s.sd.phase ≠ .empty) :
    sdReadUpTo (n + 1) (left + 1) k s = sdReadUpTo n left (k + 1) (sdStore k s) := by
  rw [sdReadUpTo, if_neg h1, if_neg h2]

/-- A loop that has as many stores as it wants left never stops before a byte. -/
theorem sdReadUpTo_of_enough {n left : Nat} (h : left ≤ n) (k : Nat) (s : State) :
    sdReadUpTo n left k s = sdReadMany left k s := by
  unfold sdReadMany
  induction left generalizing n k s with
  | zero => rw [sdReadUpTo_zero, sdReadUpTo_zero]
  | succ left ih =>
    obtain ⟨n, rfl⟩ : ∃ m, n = m + 1 := ⟨n - 1, by omega⟩
    by_cases h1 : s.sd.phase = .exhausted
    · rw [sdReadUpTo_of_exhausted _ _ _ h1, sdReadUpTo_of_exhausted _ _ _ h1]
    · by_cases h2 : s.sd.phase = .empty
      · rw [sdReadUpTo_of_empty _ _ _ h2, sdReadUpTo_of_empty _ _ _ h2]
      · rw [sdReadUpTo_store _ _ _ h1 h2, sdReadUpTo_store _ _ _ h1 h2, ih (by omega), ih (Nat.le_refl left)]

/-- A loop cut after at most `n` stores: it came to the end or to a request as the whole loop does, or it stored exactly
`n` bytes, and the whole loop is what is left from there. -/
theorem sdReadUpTo_cases (n left k : Nat) (s : State) :
    (sdReadUpTo n left k s = sdReadMany left k s ∧
      ∀ k', (sdReadUpTo n left k s).running ≠ some (.ready (.storing k'))) ∨
    (n < left ∧ ∃ u, sdReadUpTo n left k s = hold (.storing (k + n)) u ∧ u.latched = s.latched ∧ u.inputs = s.inputs ∧
      sdReadMany (left - n) (k + n) u = sdReadMany left k s) := by
  unfold sdReadMany
  induction left generalizing n k s with
  | zero => exact .inl ⟨by rw [sdReadUpTo_zero, sdReadUpTo_zero], by simp [sdReadUpTo_zero]⟩
  | succ left ih =>
    cases n with
    | zero => exact .inr ⟨by omega, s, sdReadUpTo_stop _ _ s, rfl, rfl, rfl⟩
    | succ n =>
      by_cases h1 : s.sd.phase = .exhausted
      · refine .inl ⟨by rw [sdReadUpTo_of_exhausted _ _ _ h1, sdReadUpTo_of_exhausted _ _ _ h1], ?_⟩
        rw [sdReadUpTo_of_exhausted _ _ _ h1]
        unfold sdReadNEos
        split <;> simp
      · by_cases h2 : s.sd.phase = .empty
        · refine .inl ⟨by rw [sdReadUpTo_of_empty _ _ _ h2, sdReadUpTo_of_empty _ _ _ h2], ?_⟩
          simp [sdReadUpTo_of_empty _ _ _ h2]
        · rw [sdReadUpTo_store _ _ _ h1 h2, sdReadUpTo_store _ _ _ h1 h2]
          rcases ih n (k + 1) (sdStore k s) with h | ⟨hn, u, hu, hl, hi, hm⟩
          · exact .inl h
          · refine .inr ⟨by omega, u, ?_, hl, hi, ?_⟩
            · rw [hu, show k + 1 + n = k + (n + 1) by omega]
            · rw [← hm, show k + (n + 1) = k + 1 + n by omega, show left + 1 - (n + 1) = left - n by omega]

/-! ## Going on over answers never stops between two requests -/

/-- No command stands ready in `s`: what runs waits on a port. -/
def NotReady (s : State) : Prop := ∀ r, s.running ≠ some (.ready r)

theorem notReady_complete (c : StatusCode) (x y : Word) (s : State) : NotReady (complete c x y s) := by
  simp [NotReady]

theorem notReady_ask_se (w : SeWait) (s : State) : NotReady (ask (.se w) s) := by simp [NotReady]

theorem notReady_ask_sd (w : SdWait) (s : State) : NotReady (ask (.sd w) s) := by simp [NotReady]

theorem notReady_seEmitGroup (m : SeMore) (s : State) : NotReady (seEmitGroup m s) := notReady_ask_se _ s

theorem notReady_seWriteMany (bytes : List Byte) (k : Nat) (s : State) : NotReady (seWriteMany k bytes s) := by
  induction bytes generalizing k s with
  | nil => exact notReady_complete _ _ _ s
  | cons b bytes ih =>
    unfold seWriteMany
    split
    · exact notReady_seEmitGroup _ _
    · exact ih _ _

theorem notReady_seGroupDone (m : SeMore) (s : State) : NotReady (seGroupDone m s) := by
  cases m with
  | one => exact notReady_complete _ _ _ _
  | many k rest => exact notReady_seWriteMany _ _ _

theorem notReady_seGoesOn (w : SeWait) (a : Ack) (s : State) : NotReady (seGoesOn w a s) := by
  cases a with
  | fail e => exact notReady_complete _ _ _ _
  | ack =>
    unfold seGoesOn seAcked
    simp only
    split
    · exact notReady_ask_se _ _
    · unfold seSymbolsSent
      split
      · exact notReady_ask_se _ _
      · exact notReady_seGroupDone _ _
    · exact notReady_seGroupDone _ _
    · exact notReady_ask_se _ _
    · exact notReady_ask_se _ _
    · exact notReady_ask_se _ _
    · exact notReady_complete _ _ _ _
    · exact notReady_complete _ _ _ _

theorem notReady_sdReadNEos (k : Nat) (s : State) : NotReady (sdReadNEos k s) := by
  unfold sdReadNEos
  split <;> exact notReady_complete _ _ _ s

theorem notReady_sdReadMany (left k : Nat) (s : State) : NotReady (sdReadMany left k s) := by
  unfold sdReadMany
  induction left generalizing k s with
  | zero => rw [sdReadUpTo_zero]; exact notReady_complete _ _ _ s
  | succ left ih =>
    by_cases h1 : s.sd.phase = .exhausted
    · rw [sdReadUpTo_of_exhausted _ _ _ h1]; exact notReady_sdReadNEos k s
    · by_cases h2 : s.sd.phase = .empty
      · rw [sdReadUpTo_of_empty _ _ _ h2]; exact notReady_ask_sd _ s
      · rw [sdReadUpTo_store _ _ _ h1 h2]; exact ih _ _

theorem notReady_sdReadGoesOn (a : ReadAnswer) (s : State) : NotReady (sdReadGoesOn a s) := by
  unfold sdReadGoesOn sdReadOn
  split
  · exact notReady_ask_sd _ _
  all_goals exact notReady_complete _ _ _ _

theorem notReady_sdReadNGoesOn (k : Nat) (a : ReadAnswer) (s : State) :
    NotReady (sdReadNGoesOn (s.latched.a1.toNat - k) k a s) := by
  unfold sdReadNGoesOn sdReadNOn
  split
  · exact notReady_ask_sd _ _
  · exact notReady_sdReadMany _ k _
  · exact notReady_sdReadNEos k _
  · exact notReady_complete _ _ _ _

theorem notReady_sdCloseGoesOn (a : Ack) (s : State) : NotReady (sdCloseGoesOn a s) := by
  cases a <;> exact notReady_complete _ _ _ _

/-- After an answer the command waits on a port or has ended. -/
theorem notReady_of_answered {i : Input} {s s' : State} (h : answered i s = some s') : NotReady s' := by
  rcases answered_cases h with ⟨w, a, -, -, rfl⟩ | ⟨a, -, -, rfl⟩ | ⟨k, a, -, -, rfl⟩ | ⟨a, -, -, rfl⟩
  · exact notReady_seGoesOn _ _ _
  · exact notReady_sdReadGoesOn _ _
  · exact notReady_sdReadNGoesOn _ _ _
  · exact notReady_sdCloseGoesOn _ _

theorem notReady_driveOn (is : List Input) {s : State} (h : NotReady s) : NotReady (driveOn is s) :=
  driveOn_induction (P := NotReady) (fun _ _ h => h) (fun _ _ _ _ h => notReady_of_answered h) is s h

end Sys2Proof.Machine
end

