-- ==== Sys2Proof/Laws/PerInstr.lean ====
section
/-! SUPPORT. A fact about every command as syntax, one lemma for each constructor: its encoding stands in its own row of
spec/opcode_table.json. -/

namespace Sys2Proof.Laws.EncodingInItsRow

/-- The mnemonic of the row of spec/opcode_table.json that a command belongs to (30_encoding.md R81). -/
def mnemonicOf : Instr → String
  | .encgrp _ => "ENCGRP"
  | .decq => "DECQ"
  | .benc => "BENC"
  | .bdec => "BDEC"
  | .openSink => "OPEN_SINK"
  | .seWrite _ => "SE_WRITE"
  | .seWriten => "SE_WRITEN"
  | .seFlush => "SE_FLUSH"
  | .seClose => "SE_CLOSE"
  | .openSource => "OPEN_SOURCE"
  | .sdRead => "SD_READ"
  | .sdReadn => "SD_READN"
  | .sdClose => "SD_CLOSE"

/-- The rows that take a command's word are the command's own row. -/
def Statement (i : Instr) : Prop :=
  (opcodeTable.filter (fun r => r.takes (encode i))).map Row.mnemonic = [mnemonicOf i]

theorem encgrp (cnt : BitVec 2) : Statement (.encgrp cnt) := by
  revert cnt; unfold Statement; decide
theorem decq : Statement .decq := by unfold Statement; decide
theorem benc : Statement .benc := by unfold Statement; decide
theorem bdec : Statement .bdec := by unfold Statement; decide
theorem openSink : Statement .openSink := by unfold Statement; decide
set_option maxRecDepth 20000 in
theorem seWrite (imm8 : Byte) : Statement (.seWrite imm8) := by
  revert imm8; unfold Statement; decide
theorem seWriten : Statement .seWriten := by unfold Statement; decide
theorem seFlush : Statement .seFlush := by unfold Statement; decide
theorem seClose : Statement .seClose := by unfold Statement; decide
theorem openSource : Statement .openSource := by unfold Statement; decide
theorem sdRead : Statement .sdRead := by unfold Statement; decide
theorem sdReadn : Statement .sdReadn := by unfold Statement; decide
theorem sdClose : Statement .sdClose := by unfold Statement; decide

end Sys2Proof.Laws.EncodingInItsRow
end

