-- ==== Sys2Proof/Laws/Sink.lean ====
section
/-! SUPPORT. What a Stream Encoder command does over its sink requests, said once (43_stream_encoder.md R142–R148). -/

namespace Sys2Proof.Machine

/-- A group of four symbols, whatever it holds, is a first symbol and three more. -/
theorem encodeGroup_cons (b0 b1 b2 : Byte) (n : BitVec 2) :
    ∃ s0 s1 s2 s3, encodeGroup b0 b1 b2 n = [s0, s1, s2, s3] := ⟨_, _, _, _, rfl⟩

/-- The first request of a full group (R142). -/
theorem seEmitGroup_eq {s : State} {m : SeMore} {b : Byte} {rest : List Byte}
    (h : encodeGroup s.se.buf.b0 s.se.buf.b1 s.se.buf.b2 3 = b :: rest) :
    seEmitGroup m s = ask (.se (.group b rest m)) s := by
  unfold seEmitGroup seGroupSymbols
  rw [h]

/-- The first request of a flush with 1 or 2 bytes held (R146). -/
theorem seFlushBody_eq_pad {s : State} {closing : Bool} {b : Byte} {rest : List Byte}
    (hc : s.se.count = 1 ∨ s.se.count = 2)
    (h : encodeGroup s.se.buf.b0 s.se.buf.b1 s.se.buf.b2 s.se.count = b :: rest) :
    seFlushBody closing s = ask (.se (.pad b rest closing)) s := by
  unfold seFlushBody seGroupSymbols
  rw [if_pos hc, h]

/-- The first request of any other flush (R146). -/
theorem seFlushBody_eq_flush {s : State} {closing : Bool} (hc : ¬ (s.se.count = 1 ∨ s.se.count = 2)) :
    seFlushBody closing s = ask (.se (.flush closing)) s := by
  unfold seFlushBody
  rw [if_neg hc]

/-! ## A run of `Ack`s -/

/-- The symbols of a full group, all answered `Ack` (R142). -/
theorem driveOn_group (rest : List Byte) (b : Byte) (m : SeMore) (is : List Input) (s : State) :
    driveOn (List.replicate (rest.length + 1) (.sinkAnswer .ack) ++ is) (ask (.se (.group b rest m)) s) =
      driveOn is (seSymbolsSent m { s with log := s.log ++ sent (b :: rest) }) := by
  induction rest generalizing b s with
  | nil =>
    simp only [List.length_nil, Nat.zero_add, List.replicate_one, List.singleton_append]
    rw [driveOn_sinkAnswer .ack is rfl]
    exact congrArg (driveOn is) ((putRunning_bystander (some (.se (.group b [] m)))).seSymbolsSent m
      { s with log := s.log ++ sent [b] })
  | cons c rest ih =>
    rw [List.length_cons, List.replicate_succ, List.cons_append, driveOn_sinkAnswer .ack _ rfl]
    have h : seAnswered (.group b (c :: rest) m) .ack (ask (.se (.group b (c :: rest) m)) s) =
        ask (.se (.group c rest m)) { s with log := s.log ++ sent [b] } := rfl
    rw [h, ih]
    simp [sent]

/-- The symbols of a padded group, all answered `Ack` (R146): the flush is asked for. -/
theorem driveOn_pad (rest : List Byte) (b : Byte) (closing : Bool) (is : List Input) (s : State) :
    driveOn (List.replicate (rest.length + 1) (.sinkAnswer .ack) ++ is) (ask (.se (.pad b rest closing)) s) =
      driveOn is (ask (.se (.flush closing)) { s with log := s.log ++ sent (b :: rest) }) := by
  induction rest generalizing b s with
  | nil =>
    simp only [List.length_nil, Nat.zero_add, List.replicate_one, List.singleton_append]
    rw [driveOn_sinkAnswer .ack is rfl]
    rfl
  | cons c rest ih =>
    rw [List.length_cons, List.replicate_succ, List.cons_append, driveOn_sinkAnswer .ack _ rfl]
    have h : seAnswered (.pad b (c :: rest) closing) .ack (ask (.se (.pad b (c :: rest) closing)) s) =
        ask (.se (.pad c rest closing)) { s with log := s.log ++ sent [b] } := rfl
    rw [h, ih]
    simp [sent]

/-- The flush of SE_FLUSH, answered `Ack` (R146). -/
theorem driveOn_flush (is : List Input) (s : State) :
    driveOn (.sinkAnswer .ack :: is) (ask (.se (.flush false)) s) =
      { complete .ok 0 0 { s with log := s.log ++ [.sink .flush (some .ack)] } with inputs := is } := by
  rw [driveOn_sinkAnswer .ack is rfl]
  have h : seAnswered (.flush false) .ack (ask (.se (.flush false)) s) =
      complete .ok 0 0 { s with log := s.log ++ [.sink .flush (some .ack)] } := rfl
  rw [h, driveOn_of_not_running is (by simp)]

/-- The flush and the close of SE_CLOSE, both answered `Ack` (R147). -/
theorem driveOn_flush_close (is : List Input) (s : State) :
    driveOn (.sinkAnswer .ack :: .sinkAnswer .ack :: is) (ask (.se (.flush true)) s) =
      { complete .ok 0 0 { s with
          se := { s.se with state := .closed }
          log := s.log ++ [.sink .flush (some .ack), .sink .close (some .ack)] } with inputs := is } := by
  rw [driveOn_sinkAnswer .ack _ rfl]
  have h : seAnswered (.flush true) .ack (ask (.se (.flush true)) s) =
      ask (.se .close) { s with log := s.log ++ [.sink .flush (some .ack)] } := rfl
  rw [h, driveOn_sinkAnswer .ack _ rfl]
  have h' : seAnswered .close .ack (ask (.se .close) { s with log := s.log ++ [.sink .flush (some .ack)] }) =
      complete .ok 0 0 { s with
        se := { s.se with state := .closed }
        log := s.log ++ [.sink .flush (some .ack)] ++ [.sink .close (some .ack)] } := rfl
  rw [h', driveOn_of_not_running is (by simp)]
  simp

end Sys2Proof.Machine
end

