-- ==== Sys2Proof/Laws/Source.lean ====
section
/-! SUPPORT. What the Stream Decoder's helpers can do, each said once (44_stream_decoder.md R163–R168). -/

namespace Sys2Proof.Machine

/-- The accumulator with one more symbol, and the source position counted (R164). -/
def SdUnit.took (u : SdUnit) (c : Sym) : SdUnit :=
  { u with srcidx := u.srcidx + 1, acc := u.acc.set u.count c, count := u.count + 1 }

/-- A unit whose command ended in an error (R203). -/
def SdUnit.asFailed (u : SdUnit) : SdUnit := { u with phase := .failed }

/-- A unit with a decoded quartet cached (R164). -/
def SdUnit.cached (u : SdUnit) (bytes : List Byte) (n : BitVec 2) : SdUnit :=
  { u with
    out := Bytes3.ofList bytes, nsig := n, pos := 0, padded := decide (u.acc.c3 = .pad), count := 0,
    phase := .ready }

@[simp] theorem took_phase (u : SdUnit) (c : Sym) : (u.took c).phase = u.phase := rfl
@[simp] theorem took_count (u : SdUnit) (c : Sym) : (u.took c).count = u.count + 1 := rfl
@[simp] theorem took_srcidx (u : SdUnit) (c : Sym) : (u.took c).srcidx = u.srcidx + 1 := rfl
@[simp] theorem took_acc (u : SdUnit) (c : Sym) : (u.took c).acc = u.acc.set u.count c := rfl
@[simp] theorem asFailed_phase (u : SdUnit) : u.asFailed.phase = .failed := rfl
@[simp] theorem asFailed_srcidx (u : SdUnit) : u.asFailed.srcidx = u.srcidx := rfl
@[simp] theorem cached_phase (u : SdUnit) (bytes : List Byte) (n : BitVec 2) : (u.cached bytes n).phase = .ready := rfl
@[simp] theorem cached_count (u : SdUnit) (bytes : List Byte) (n : BitVec 2) : (u.cached bytes n).count = 0 := rfl
@[simp] theorem cached_nsig (u : SdUnit) (bytes : List Byte) (n : BitVec 2) : (u.cached bytes n).nsig = n := rfl
@[simp] theorem cached_pos (u : SdUnit) (bytes : List Byte) (n : BitVec 2) : (u.cached bytes n).pos = 0 := rfl
@[simp] theorem cached_srcidx (u : SdUnit) (bytes : List Byte) (n : BitVec 2) :
    (u.cached bytes n).srcidx = u.srcidx := rfl

/-- Everything `Byte(raw)` can do in `sdFill()` (R164, R165). -/
theorem sdByte_cases (raw : Byte) (u : SdUnit) :
    (cls raw = .inv ∧ sdByte raw u =
      (.error .errMalformed u.srcidx (raw.setWidth 32), SdUnit.asFailed { u with srcidx := u.srcidx + 1 })) ∨
    (cls raw = .ws ∧ sdByte raw u = (.more, { u with srcidx := u.srcidx + 1 })) ∨
    (∃ c, cls raw = .sym c ∧ u.count ≠ 3 ∧ sdByte raw u = (.more, u.took c)) ∨
    (∃ c, cls raw = .sym c ∧ u.count = 3 ∧ decodeQuartet u.acc.c0 u.acc.c1 u.acc.c2 c = .badPad ∧
      sdByte raw u = (.error .errMalformed u.srcidx (padCause raw), (u.took c).asFailed)) ∨
    (∃ c bytes n, cls raw = .sym c ∧ u.count = 3 ∧ decodeQuartet u.acc.c0 u.acc.c1 u.acc.c2 c = .ok bytes n ∧
      sdByte raw u = (.filled, (u.took c).cached bytes n)) := by
  unfold sdByte
  cases h : cls raw with
  | inv => exact .inl ⟨rfl, rfl⟩
  | ws => exact .inr (.inl ⟨rfl, rfl⟩)
  | sym c =>
    by_cases h3 : u.count = 3
    · have e : u.acc.set u.count c = { u.acc with c3 := c } := by rw [h3]; rfl
      cases hq : decodeQuartet u.acc.c0 u.acc.c1 u.acc.c2 c with
      | badPad =>
        refine .inr (.inr (.inr (.inl ⟨c, rfl, h3, hq, ?_⟩)))
        simp [h3, sdQuartet, Syms4.set, hq, SdUnit.took, SdUnit.asFailed]
      | ok bytes n =>
        refine .inr (.inr (.inr (.inr ⟨c, bytes, n, rfl, h3, hq, ?_⟩)))
        simp [h3, sdQuartet, Syms4.set, hq, SdUnit.took, SdUnit.cached]
    · refine .inr (.inr (.inl ⟨c, rfl, h3, ?_⟩))
      have : u.count + 1 ≠ 4 := by
        intro hh
        apply h3
        have := congrArg (· - 1#3) hh
        simpa using this
      simp only [if_neg this]
      rfl

/-- An invalid byte (R165). -/
theorem sdByte_of_inv {raw : Byte} (u : SdUnit) (h : cls raw = .inv) : sdByte raw u =
    (.error .errMalformed u.srcidx (raw.setWidth 32), SdUnit.asFailed { u with srcidx := u.srcidx + 1 }) := by
  simp [sdByte, h, SdUnit.asFailed]

/-- A whitespace byte (R164). -/
theorem sdByte_of_ws {raw : Byte} (u : SdUnit) (h : cls raw = .ws) :
    sdByte raw u = (.more, { u with srcidx := u.srcidx + 1 }) := by
  simp [sdByte, h]

/-- A significant symbol before the fourth (R164). -/
theorem sdByte_of_sym {raw : Byte} {c : Sym} {u : SdUnit} (h : cls raw = .sym c) (h3 : u.count ≠ 3) :
    sdByte raw u = (.more, u.took c) := by
  rcases sdByte_cases raw u with ⟨e, -⟩ | ⟨e, -⟩ | ⟨_, e, -, hs⟩ | ⟨_, -, e, -⟩ | ⟨_, _, _, -, e, -⟩
  · simp [h] at e
  · simp [h] at e
  · rw [h] at e; cases e; exact hs
  · exact absurd e h3
  · exact absurd e h3

/-- The fourth symbol of a misplaced padding (R165). -/
theorem sdByte_of_badPad {raw : Byte} {c : Sym} {u : SdUnit} (h : cls raw = .sym c) (h3 : u.count = 3)
    (hq : decodeQuartet u.acc.c0 u.acc.c1 u.acc.c2 c = .badPad) :
    sdByte raw u = (.error .errMalformed u.srcidx (padCause raw), (u.took c).asFailed) := by
  rcases sdByte_cases raw u with ⟨e, -⟩ | ⟨e, -⟩ | ⟨_, -, e, -⟩ | ⟨_, e, -, -, hs⟩ | ⟨_, _, _, e, -, hq', -⟩
  · simp [h] at e
  · simp [h] at e
  · exact absurd h3 e
  · rw [h] at e; cases e; exact hs
  · rw [h] at e; cases e; rw [hq] at hq'; cases hq'

/-- The fourth symbol of a quartet (R164). -/
theorem sdByte_of_quartet {raw : Byte} {c : Sym} {u : SdUnit} {bytes : List Byte} {n : BitVec 2}
    (h : cls raw = .sym c) (h3 : u.count = 3) (hq : decodeQuartet u.acc.c0 u.acc.c1 u.acc.c2 c = .ok bytes n) :
    sdByte raw u = (.filled, (u.took c).cached bytes n) := by
  rcases sdByte_cases raw u with ⟨e, -⟩ | ⟨e, -⟩ | ⟨_, -, e, -⟩ | ⟨_, e, -, hq', -⟩ | ⟨_, _, _, e, -, hq', hs⟩
  · simp [h] at e
  · simp [h] at e
  · exact absurd h3 e
  · rw [h] at e; cases e; rw [hq] at hq'; cases hq'
  · rw [h] at e; cases e; rw [hq] at hq'; cases hq'; exact hs

/-- Everything one answer of the source can do in `sdFill()` (R164, R166). -/
theorem sdFillStep_cases (p : Params) (a : ReadAnswer) (u : SdUnit) :
    (∃ raw, a = .byte raw ∧ sdFillStep p a u = sdByte raw u) ∨
    (a = .endOfInput ∧ u.count = 0 ∧ sdFillStep p a u = (.eos, { u with phase := .exhausted })) ∨
    (a = .endOfInput ∧ u.count ≠ 0 ∧
      sdFillStep p a u = (.error .errImproperPadding (u.count.setWidth 32) 0, u.asFailed)) ∨
    (∃ e, a = .fail e ∧ u.count = 0 ∧ sdFillStep p a u = (.error .errUpstream (portCode p e) 0, u.asFailed)) ∨
    (∃ e, a = .fail e ∧ u.count ≠ 0 ∧
      sdFillStep p a u = (.error .errImproperPadding (u.count.setWidth 32) 0, u.asFailed)) := by
  cases a with
  | byte raw => exact .inl ⟨raw, rfl, rfl⟩
  | endOfInput =>
    by_cases h : u.count = 0
    · exact .inr (.inl ⟨rfl, h, by simp [sdFillStep, sdAtEnd, h]⟩)
    · exact .inr (.inr (.inl ⟨rfl, h, by simp only [sdFillStep, sdAtEnd, if_neg h]; rfl⟩))
  | fail e =>
    by_cases h : u.count = 0
    · exact .inr (.inr (.inr (.inl ⟨e, rfl, h, by simp [sdFillStep, sdAtFail, h, SdUnit.asFailed]⟩)))
    · exact .inr (.inr (.inr (.inr ⟨e, rfl, h, by simp only [sdFillStep, sdAtFail, if_neg h]; rfl⟩)))

/-- A decoded quartet has 1 to 3 bytes (R104). -/
theorem decodeQuartet_count {c0 c1 c2 c3 : Sym} {bytes : List Byte} {n : BitVec 2}
    (h : decodeQuartet c0 c1 c2 c3 = .ok bytes n) : bytes.length = n.toNat ∧ 1 ≤ n.toNat := by
  unfold decodeQuartet at h
  split at h <;> cases h <;> exact ⟨rfl, by decide⟩

/-- `sd_pos` counts up without a wrap, below `sd_nsig` (R163). -/
theorem toNat_pos_succ {u : SdUnit} (h : u.pos.toNat < u.nsig.toNat) : (u.pos + 1).toNat = u.pos.toNat + 1 := by
  have := u.nsig.isLt
  rw [BitVec.toNat_add]
  simp
  omega

/-- Everything `sdServe()` leaves in the unit (R163). -/
theorem sdServe_unit {u : SdUnit} (h : u.pos.toNat < u.nsig.toNat) (hp : u.phase = .ready) :
    (sdServe u).2 = { u with
      pos := u.pos + 1
      phase := if u.pos.toNat + 1 < u.nsig.toNat then .ready else if u.padded then .exhausted else .empty } := by
  have e := toNat_pos_succ h
  unfold sdServe
  by_cases hh : u.pos + 1 = u.nsig
  · have : u.nsig.toNat = u.pos.toNat + 1 := by rw [← hh, e]
    have hn : ¬ u.pos.toNat + 1 < u.nsig.toNat := by omega
    simp only [hh, if_true]
    rw [if_neg hn]
  · have : (u.pos + 1).toNat ≠ u.nsig.toNat := fun h' => hh (BitVec.eq_of_toNat_eq h')
    have hn : u.pos.toNat + 1 < u.nsig.toNat := by omega
    simp only [if_neg hh, if_pos hn, hp]

@[simp] theorem sdServe_count (u : SdUnit) : (sdServe u).2.count = u.count := rfl
@[simp] theorem sdServe_srcidx (u : SdUnit) : (sdServe u).2.srcidx = u.srcidx := rfl

end Sys2Proof.Machine
end

