-- ==== Sys2Proof/Tests/Slice0.lean ====
section
/-! SUPPORT. Tests with results taken from spec/95_test_vectors.md (or from the rule named), and for each statement with
hypotheses a concrete state and operands that meet them. -/

namespace Sys2Proof.Tests

open Sys2Proof Sys2Proof.Machine

/-! ## Helpers -/

/-- The state an outcome ends in, if it is a next state. -/
def after (o : Host.Outcome State Fault Refusal) : Option State :=
  match o with
  | .next s => some s
  | .fault _ => none
  | .refused _ => none

/-- The reason of a fault of the model. -/
def faultOf (o : Host.Outcome State Fault Refusal) : Option Fault :=
  match o with
  | .next _ => none
  | .fault r => some r
  | .refused _ => none

/-- The reason of a refusal of the model. -/
def refusalOf (o : Host.Outcome State Fault Refusal) : Option Refusal :=
  match o with
  | .next _ => none
  | .fault _ => none
  | .refused r => some r

/-- What a vector of spec/95 looks at after a command: STATUS, RES0, RES1. -/
def results (o : Host.Outcome State Fault Refusal) : Option (Word × Word × Word) :=
  (after o).map (fun s => (statusWord s, s.res0, s.res1))

/-- SE_STAT and SE_BUF after a command. -/
def seShown (o : Host.Outcome State Fault Refusal) : Option (Word × Word) :=
  (after o).map (fun s => (seStatWord s.se, s.se.buf.word))

/-- SD_STAT, SD_OUT and SD_SRCIDX after a command. -/
def sdShown (o : Host.Outcome State Fault Refusal) : Option (Word × Word × Word) :=
  (after o).map (fun s => (sdStatWord s.sd, s.sd.out.word, s.sd.srcidx))

/-- `n` bytes of HB at offset `a` after a command. -/
def bytesAt (a n : Nat) (o : Host.Outcome State Fault Refusal) : Option (List Byte) :=
  (after o).map (fun s => Memory.readRange s.hb a n)

/-- The requests and answers a command added to the log of a state that had none. -/
def exchanges (o : Host.Outcome State Fault Refusal) : Option (List Exchange) :=
  (after o).map State.log

/-- An idle block with a host buffer of 64 bytes. -/
def idle : State := { State.reset with params := { hbSize := 64, upstreamCodeW := 32, bulkTailPolicy := .error } }

/-- The same block with a command just issued. -/
def issued : State := { idle with busy := true }

/-- A command with these operands. -/
def withOperands (a0 a1 a2 a3 : Word) (s : State) : State := { s with latched := ⟨a0, a1, a2, a3⟩ }

/-- The host buffer holds `bytes` from offset 0 on. -/
def withBytes (bytes : List Byte) (s : State) : State := { s with hb := Memory.writeRange [] 0 bytes }

/-- An Open Stream Encoder that holds `count` of these three bytes. -/
def seHolding (b0 b1 b2 : Byte) (count : BitVec 2) (line : BitVec 7) (s : State) : State :=
  { s with se := { state := .opened, buf := ⟨b0, b1, b2⟩, count := count, line := line } }

/-- A Stream Decoder just bound. -/
def sdBound (s : State) : State := { s with sd := sdOpened }

/-- A Stream Decoder with the quartet `YWJj` decoded and one byte of it served (R163). -/
def sdCaching (s : State) : State :=
  { s with sd := {
      phase := .ready, acc := ⟨.val 24, .val 22, .val 9, .val 35⟩, count := 0, out := ⟨0x61, 0x62, 0x63⟩,
      nsig := 3, pos := 1, padded := false, srcidx := 4 } }

/-- A Stream Encoder in a state of the lifecycle. -/
def seIn (q : SeState) (s : State) : State := { s with se := { s.se with state := q } }

/-- A Stream Decoder in a phase of the lifecycle. -/
def sdIn (q : SdPhase) (s : State) : State := { s with sd := { s.sd with phase := q } }

/-- What the outside does next. -/
def withInputs (is : List Input) (s : State) : State := { s with inputs := is }

/-- `n` answers `Ack` of the sink. -/
def acks (n : Nat) : List Input := List.replicate n (.sinkAnswer .ack)

/-- The source answers these bytes. -/
def bytesCome (bytes : List Byte) : List Input := bytes.map (fun b => .readAnswer (.byte b))

/-! ## Well-formedness (R84(d)) -/

theorem test_encgrp_with_count_zero_is_not_well_formed : (Instr.encgrp 0).wellFormed = false := by decide
theorem test_encgrp_with_counts_one_to_three_is_well_formed :
    (Instr.encgrp 1).wellFormed = true ∧ (Instr.encgrp 2).wellFormed = true ∧ (Instr.encgrp 3).wellFormed = true := by
  decide

/-! ## Decoding: the words of R80's picture, written out field by field: reserved, DIR, CNT, IMM8, OPC -/

theorem test_decode_encgrp : decode (0b0000000000000#13 ++ 0b0#1 ++ 0b10#2 ++ 0b00000000#8 ++ 0b00000001#8) =
    .ok (.encgrp 2) := by decide
theorem test_decode_decq : decode (0b0000000000000#13 ++ 0b0#1 ++ 0b00#2 ++ 0b00000000#8 ++ 0b00000010#8) =
    .ok .decq := by decide
theorem test_decode_benc : decode (0b0000000000000#13 ++ 0b0#1 ++ 0b00#2 ++ 0b00000000#8 ++ 0b00010000#8) =
    .ok .benc := by decide
theorem test_decode_bdec : decode (0b0000000000000#13 ++ 0b0#1 ++ 0b00#2 ++ 0b00000000#8 ++ 0b00010001#8) =
    .ok .bdec := by decide
theorem test_decode_openSink : decode (0b0000000000000#13 ++ 0b0#1 ++ 0b00#2 ++ 0b00000000#8 ++ 0b00100000#8) =
    .ok .openSink := by decide
theorem test_decode_seWrite : decode (0b0000000000000#13 ++ 0b0#1 ++ 0b00#2 ++ 0b10100101#8 ++ 0b00100001#8) =
    .ok (.seWrite 0xA5) := by decide
theorem test_decode_seWriten : decode (0b0000000000000#13 ++ 0b0#1 ++ 0b00#2 ++ 0b00000000#8 ++ 0b00100010#8) =
    .ok .seWriten := by decide
theorem test_decode_seFlush : decode (0b0000000000000#13 ++ 0b0#1 ++ 0b00#2 ++ 0b00000000#8 ++ 0b00100011#8) =
    .ok .seFlush := by decide
theorem test_decode_seClose : decode (0b0000000000000#13 ++ 0b0#1 ++ 0b00#2 ++ 0b00000000#8 ++ 0b00100100#8) =
    .ok .seClose := by decide
theorem test_decode_openSource : decode (0b0000000000000#13 ++ 0b1#1 ++ 0b00#2 ++ 0b00000000#8 ++ 0b00110000#8) =
    .ok .openSource := by decide
theorem test_decode_sdRead : decode (0b0000000000000#13 ++ 0b0#1 ++ 0b00#2 ++ 0b00000000#8 ++ 0b00110001#8) =
    .ok .sdRead := by decide
theorem test_decode_sdReadn : decode (0b0000000000000#13 ++ 0b0#1 ++ 0b00#2 ++ 0b00000000#8 ++ 0b00110010#8) =
    .ok .sdReadn := by decide
theorem test_decode_sdClose : decode (0b0000000000000#13 ++ 0b0#1 ++ 0b00#2 ++ 0b00000000#8 ++ 0b00110100#8) =
    .ok .sdClose := by decide
/-- The illegal words of spec/95 section 8. -/
theorem test_decode_refuses_reserved_words :
    decode 0x00000000 = .error .reservedOpcode ∧ decode 0x00000033 = .error .reservedOpcode ∧
    decode 0x000000FF = .error .reservedOpcode ∧ decode 0x00080001 = .error .reservedBits ∧
    decode 0x80010001 = .error .reservedBits := by decide
theorem test_decode_refuses_reserved_fields :
    decode 0x00000001 = .error .zeroCount ∧ decode 0x00000102 = .error .unusedField ∧
    decode 0x00010021 = .error .unusedField ∧ decode 0x00040011 = .error .unusedField ∧
    decode 0x00040020 = .error .wrongDirection ∧ decode 0x00000030 = .error .wrongDirection := by decide
theorem test_decodeTableWord : decodeTableWord 32 0x00030001 = some (.encgrp 3) ∧ decodeTableWord 32 0x33 = none := by
  decide
theorem test_withFetchWord_runs_the_command :
    (after (step (State.reset.withFetchWord 32 0x20))).map (fun s => seStatWord s.se) = some 1 := by decide

/-! ## Group codec: spec/95 section 5 -/

/-- `ENCGRP` with n = 1 ignores the bytes past it. -/
theorem test_encgrp_one : results (exec (.encgrp 1) (withOperands 0xFFFFFF61 0 0 0 issued)) =
    some (0, 0x3D3D5159, 0) := by decide
theorem test_encgrp_three : results (exec (.encgrp 3) (withOperands 0x009CFB14 0 0 0 issued)) =
    some (0, 0x63755046, 0) := by decide
theorem test_decq_two : results (exec .decq (withOperands 0x3D495759 0 0 0 issued)) =
    some (0, 0x00006261, 2) := by decide
/-- `!=!=`: the class check runs before the padding check. -/
theorem test_decq_invalid : results (exec .decq (withOperands 0x3D213D21 0 0 0 issued)) =
    some (0x00001000, 0, 0x21) := by decide

/-! ## Bulk codec: spec/95 sections 3 and 4 -/

/-- `BENC 0, 3, 1, 8` with `abc`: the destination overlaps the source. -/
theorem test_benc_overlap :
    let o := exec .benc (withBytes [0x61, 0x62, 0x63] (withOperands 0 3 1 8 issued))
    results o = some (0, 4, 0) ∧ bytesAt 0 5 o = some [0x61, 0x59, 0x57, 0x4A, 0x6A] := by decide
/-- `BENC 0, 3, 16, 3` with `abc`. -/
theorem test_benc_capacity :
    results (exec .benc (withBytes [0x61, 0x62, 0x63] (withOperands 0 3 16 3 issued))) = some (0x00008502, 0, 0) := by
  decide
/-- `BDEC 0, 4, 16, 0` with `YW!j`: the decode error comes before the capacity fault. -/
theorem test_bdec_error_first :
    results (exec .bdec (withBytes [0x59, 0x57, 0x21, 0x6A] (withOperands 0 4 16 0 issued))) =
      some (0x00001000, 2, 0x21) := by decide
/-- `BDEC 0, 4, 16, 3` with `YWJj`. -/
theorem test_bdec_quartet :
    let o := exec .bdec (withBytes [0x59, 0x57, 0x4A, 0x6A] (withOperands 0 4 16 3 issued))
    results o = some (0, 3, 0) ∧ bytesAt 16 3 o = some [0x61, 0x62, 0x63] := by decide

/-! ## Stream Encoder: spec/95 section 6 -/

/-- After a failure an OPEN_SINK reopens the unit. -/
theorem test_openSink_reopens : seShown (exec .openSink (seIn .failed issued)) = some (0x00000001, 0) := by decide
theorem test_openSink_busy : results (exec .openSink (seIn .opened issued)) = some (0x00008402, 0, 0) := by decide
/-- Write `ab`, SE_WRITE `c`: the second `SinkWrite` fails with 0x2A. -/
theorem test_seWrite_failure :
    let o := exec (.seWrite 0x63) (withInputs [.sinkAnswer .ack, .sinkAnswer (.fail 0x2A)]
      (seHolding 0x61 0x62 0 2 0 issued))
    results o = some (0x00001300, 0x2A, 0) ∧ seShown o = some (0x00000033, 0x00636261) := by decide
/-- Bytes 0..56: the last one fills the line, and the line-feed write fails with 3. -/
theorem test_seWrite_lineFeed_failure :
    let o := exec (.seWrite 56) (withInputs (acks 4 ++ [.sinkAnswer (.fail 3)]) (seHolding 54 55 0x35 2 72 issued))
    results o = some (0x00001300, 3, 0) ∧ seShown o = some (0x00004C33, 0x00383736) := by decide
/-- `SE_WRITEN 0, 4` with `abcd`. -/
theorem test_seWriten :
    let o := exec .seWriten (withInputs (acks 4) (withBytes [0x61, 0x62, 0x63, 0x64] (withOperands 0 4 0 0
      (seHolding 0 0 0 0 0 issued))))
    results o = some (0, 4, 0) ∧ seShown o = some (0x00000411, 0x00636264) ∧
      exchanges o = some (sent [0x59, 0x57, 0x4A, 0x6A]) := by decide
/-- `SE_WRITEN 0, 6` with `abcdef`: the fifth `SinkWrite` fails with 1. -/
theorem test_seWriten_failure :
    let o := exec .seWriten (withInputs (acks 4 ++ [.sinkAnswer (.fail 1)])
      (withBytes [0x61, 0x62, 0x63, 0x64, 0x65, 0x66] (withOperands 0 6 0 0 (seHolding 0 0 0 0 0 issued))))
    results o = some (0x00001300, 1, 5) ∧ seShown o = some (0x00000433, 0x00666564) := by decide
/-- Write `abcd`, SE_FLUSH: `ZA==` and the flush; the held byte stays. -/
theorem test_seFlush :
    let o := exec .seFlush (withInputs (acks 5) (seHolding 0x64 0x62 0x63 1 4 issued))
    exchanges o = some (sent [0x5A, 0x41, 0x3D, 0x3D] ++ [.sink .flush (some .ack)]) ∧
      seShown o = some (0x00000411, 0x00636264) := by decide
/-- Write `a`, SE_FLUSH: `SinkFlush()` fails with 4. -/
theorem test_seFlush_failure :
    let o := exec .seFlush (withInputs (acks 4 ++ [.sinkAnswer (.fail 4)]) (seHolding 0x61 0 0 1 0 issued))
    results o = some (0x00001300, 4, 0) ∧ seShown o = some (0x00000013, 0x00000061) := by decide
/-- Write `ab`, SE_CLOSE. -/
theorem test_seClose :
    let o := exec .seClose (withInputs (acks 6) (seHolding 0x61 0x62 0 2 0 issued))
    exchanges o = some (sent [0x59, 0x57, 0x49, 0x3D] ++ [.sink .flush (some .ack), .sink .close (some .ack)]) ∧
      seShown o = some (0x00000022, 0x00006261) := by decide
/-- Write `a`, SE_CLOSE: `SinkClose()` fails with 5. -/
theorem test_seClose_failure :
    let o := exec .seClose (withInputs (acks 5 ++ [.sinkAnswer (.fail 5)]) (seHolding 0x61 0 0 1 0 issued))
    results o = some (0x00001300, 5, 0) ∧ seShown o = some (0x00000013, 0x00000061) := by decide

/-! ## Stream Decoder: spec/95 section 7 -/

/-- After the close an OPEN_SOURCE clears the unit. -/
theorem test_openSource : sdShown (exec .openSource (sdIn .closed (sdCaching issued))) = some (0x00000001, 0, 0) := by
  decide
theorem test_openSource_busy : results (exec .openSource (sdIn .exhausted issued)) = some (0x00008402, 0, 0) := by
  decide
/-- After one SD_READ on `YWJj`: Ready, POS 1, NSIG 3. -/
theorem test_sdRead :
    let o := exec .sdRead (withInputs (bytesCome [0x59, 0x57, 0x4A, 0x6A]) (sdBound issued))
    results o = some (0, 0x61, 0) ∧ sdShown o = some (0x00003102, 0x00636261, 4) := by decide
/-- `YW`, Fail(5). -/
theorem test_sdRead_failure :
    let o := exec .sdRead (withInputs (bytesCome [0x59, 0x57] ++ [.readAnswer (.fail 5)]) (sdBound issued))
    results o = some (0x00001200, 2, 0) ∧ sdShown o = some (0x00000025, 0, 2) := by decide
/-- `SD_READN 0, 8` on `YW Jj\nYQ==`. -/
theorem test_sdReadn :
    let o := exec .sdReadn (withInputs (bytesCome [0x59, 0x57, 0x20, 0x4A, 0x6A, 0x0A, 0x59, 0x51, 0x3D, 0x3D])
      (withOperands 0 8 0 0 (sdBound issued)))
    results o = some (0, 4, 0) ∧ sdShown o = some (0x00011103, 0x00000061, 10) ∧
      bytesAt 0 4 o = some [0x61, 0x62, 0x63, 0x61] := by decide
/-- `SD_READN 0, 8` on `YWJj!`: the bytes already written stay. -/
theorem test_sdReadn_failure :
    let o := exec .sdReadn (withInputs (bytesCome [0x59, 0x57, 0x4A, 0x6A, 0x21])
      (withOperands 0 8 0 0 (sdBound issued)))
    results o = some (0x00001000, 4, 0x21) ∧ sdShown o = some (0x00003305, 0x00636261, 5) ∧
      bytesAt 0 3 o = some [0x61, 0x62, 0x63] := by decide
/-- SD_READ, SD_CLOSE: the unserved bytes are dropped. -/
theorem test_sdClose :
    let o := exec .sdClose (withInputs [.closeAnswer .ack] (sdCaching issued))
    exchanges o = some [.sourceClose (some .ack)] ∧ sdShown o = some (0x00003104, 0x00636261, 4) := by decide
/-- `SrcClose()` fails with 6. -/
theorem test_sdClose_failure :
    let o := exec .sdClose (withInputs [.closeAnswer (.fail 6)] (sdBound issued))
    results o = some (0x00001300, 6, 0) ∧ sdShown o = some (0x00000005, 0, 0) := by decide

/-! ## Faults: spec/95 section 8 -/

/-- SD_READ waiting on the source, then another CMD write; then `YQ==` comes. -/
theorem test_cmdBusy :
    (after (step (withInputs (.regWrite 0 0x23 :: bytesCome [0x59, 0x51, 0x3D, 0x3D])
      { sdBound issued with running := some (.sd .read) }))).map
      (fun t => (statusWord t, results (step t), sdShown (step t))) =
    some (0x00008603, some (0x00008602, 0, 0), some (0x00011103, 0x00000061, 4)) := by decide
/-- ENCGRP takes its time, and another CMD write comes before it ends (R222): it ends, and reports nothing. -/
theorem test_cmdBusy_without_a_port :
    (after (step (withInputs [.slowly (.cmdWrite 0x00030001), .regWrite 0 0x00000002, .proceed] idle))).map
      (fun t => (statusWord t, results (step t), (after (step t)).map (fun u => results (step u)))) =
    some (0x00000001, some (0x00008603, 0, 0), some (some (0x00008602, 0, 0))) := by decide
/-- The source's answer is taken, and reset comes before SD_READN stores a byte of it (R220). -/
theorem test_reset_after_the_answer :
    let s := withInputs [.slowly (.readAnswer (.byte 0x6A)), .reset] (withOperands 0 8 0 0
      { issued with running := some (.sd (.readN 0)), sd := { sdOpened with
          count := 3, acc := ⟨.val 24, .val 22, .val 9, .val 0⟩ } })
    ((after (step s)).bind (fun t => after (step t))).map (fun t => (t.hb, t.log)) =
      some ([], [.sourceRead (some (.byte 0x6A))]) := by decide
/-- The bytes SD_READN stored before reset stay (R220): one of the three of `YWJj`, or all three, and then no further
request is made. -/
theorem test_reset_between_two_stores :
    let s := fun n => withInputs [.proceedStores n, .reset] (withOperands 0 8 0 0
      { issued with running := some (.ready (.readN 0 (.byte 0x6A))), sd := { sdOpened with
          count := 3, acc := ⟨.val 24, .val 22, .val 9, .val 0⟩ } })
    (((after (step (s 1))).bind (fun t => after (step t))).map (fun t => t.hb) = some [(0, 0x61)]) ∧
    ((after (step (s 3))).bind (fun t => after (step t))).map (fun t => (t.hb, t.log)) =
      some ([(0, 0x61), (1, 0x62), (2, 0x63)], []) := by decide
/-- A fault is sticky: OPEN_SINK after SE_WRITE before OPEN_SINK is ignored. -/
theorem test_sticky :
    (after (step (withInputs [.regWrite 0 0x00006121, .regWrite 0 0x00000020] idle))).map
      (fun t => (statusWord t, results (step t), seShown (step t))) =
    some (0x00008102, some (0x00008102, 0, 0), some (0, 0)) := by decide
/-- A command that takes its time ends though no input says when (R230): ENCGRP of `abc` after a read of STATUS, which shows
BUSY. -/
theorem test_ends_in_finite_time :
    let s := withInputs [.slowly (.cmdWrite 0x00030001), .regRead 5] { idle with arg := ⟨0x00636261, 0, 0, 0⟩ }
    (after (runSteps 2 s)).map (fun t => t.readData) = some 0x00000001 ∧
    results (runSteps 3 s) = some (0x00000000, 0x6A4A5759, 0) := by decide
/-- The two stops of the model, on host moves (logs 8 and 9). -/
theorem test_model_stops :
    faultOf (step (withInputs [.hbRead 64] idle)) = some .hbOffsetAbsent ∧
    refusalOf (step (withInputs [.hbWrite 3 0] (withOperands 3 1 0 0
      { sdBound issued with running := some (.sd (.readN 0)) }))) = some .hbRangeInUse := by decide

/-! ## Witnesses: a state and operands that meet the hypotheses of each statement -/

theorem test_witness_DecodeOfEncodeIsTheCommand : (Instr.encgrp 1).wellFormed = true ∧
    (Instr.seWrite 0xFF).wellFormed = true := by decide

theorem test_witness_EncodeOfDecodeIsTheWord : decode 0x00030001 = .ok (.encgrp 3) ∧
    decode 0x0000FF21 = .ok (.seWrite 0xFF) := by decide

theorem test_witness_TableDecoderIsTheDecoder :
    (∃ r ∈ opcodeTable, r.takes 0x00030001 = true ∧ ¬ (r.mnemonic = "ENCGRP" ∧ (0x00030001 : Word).extractLsb' 16 2 = 0)) ∧
    (∃ r ∈ opcodeTable, r.takes 0x00000001 = true ∧ r.mnemonic = "ENCGRP" ∧ (0x00000001 : Word).extractLsb' 16 2 = 0) ∧
    (∀ r ∈ opcodeTable, r.takes 0x00000033 = false) := by decide

/-- One word for each letter of R84, on an idle block, at once and slowly. -/
theorem test_witness_IllegalWordsFaultAndChangeOnlyStatus :
    (illegalWord 0x00000033 ∧ illegalWord 0x00080001 ∧ illegalWord 0x00000102 ∧ illegalWord 0x00010021 ∧
      illegalWord 0x00040011 ∧ illegalWord 0x00000001 ∧ illegalWord 0x00040020 ∧ illegalWord 0x00000030) ∧
    (withInputs [.regWrite 0 0x33] idle).inputs = .regWrite 0 0x33 :: [] ∧
    (withInputs [.slowly (.cmdWrite 0x33), .proceed] idle).inputs = .slowly (.cmdWrite 0x33) :: .proceed :: [] ∧
    idle.faulted = false ∧ idle.busy = false ∧ idle.running = none :=
  ⟨⟨.inl (by decide), .inr (.inl (by decide)), .inr (.inr (.inl (by decide))),
    .inr (.inr (.inr (.inl (by decide)))), .inr (.inr (.inr (.inr (.inl (by decide))))),
    .inr (.inr (.inr (.inr (.inr (.inl (by decide)))))),
    .inr (.inr (.inr (.inr (.inr (.inr (.inl (by decide))))))),
    .inr (.inr (.inr (.inr (.inr (.inr (.inr (by decide)))))))⟩, by decide⟩

theorem test_witness_StepRunsTheDecodedCommand :
    (withInputs [.regWrite 0 0x00000002] idle).inputs = .regWrite 0 0x00000002 :: [] ∧
    (withInputs [.slowly (.cmdWrite 0x00000002)] idle).inputs = .slowly (.cmdWrite 0x00000002) :: [] ∧
    decode 0x00000002 = .ok .decq ∧ idle.faulted = false ∧ idle.busy = false ∧
    (let s := withInputs [.proceed] { issued with running := some (.ready (.command .decq)) }
     s.running = some (.ready (.command .decq)) ∧ s.inputs = .proceed :: []) := by decide

theorem test_witness_CmdWriteWhileFaultedOrBusy :
    (withInputs [.regWrite 0 0x23] { idle with faulted := true, code := .faultRange }).inputs = .regWrite 0 0x23 :: [] ∧
    { idle with faulted := true, code := .faultRange }.faulted = true ∧
    (let s := withInputs [.slowly (.cmdWrite 0x23)] { issued with running := some (.ready (.command .decq)) }
     s.inputs = .slowly (.cmdWrite 0x23) :: [] ∧ s.faulted = false ∧ s.busy = true) := by decide

/-- A block faulted by a CMD write during an SD_READ, whose last source answer comes. -/
theorem test_witness_FaultIsStickyUntilReset :
    let s := withInputs [.readAnswer .endOfInput]
      { sdBound issued with running := some (.sd .read), faulted := true, code := .faultCmdBusy }
    s.faulted = true ∧ (∀ rest, s.inputs ≠ .reset :: rest) ∧ ∃ t, step s = .next t := ⟨rfl, by simp [withInputs], _, rfl⟩

theorem test_witness_ResetLeavesTheValuesOfTheTable :
    (withInputs [.reset] { sdBound issued with running := some (.sd .read) }).inputs = .reset :: [] := by decide

/-- Reset with nothing running, with each kind of request pending, and with a command that takes its time. -/
theorem test_witness_ResetAbandonsTheRunningCommand :
    ∀ w ∈ [none, some (Waiting.se .close), some (.sd .read), some (.sd (.readN 2)), some (.sd .close),
        some (.ready (.command .benc)), some (.ready (.readN 2 .endOfInput))],
      (withInputs [.reset] { issued with running := w }).inputs = .reset :: [] ∧
      (withInputs [.reset] { issued with running := w }).running = w ∧
      (after (step (withInputs [.reset] { issued with running := w }))).isSome = true := by decide

theorem test_witness_RegisterWritesByTheHost :
    (∀ k ∈ [1#6, 2#6, 3#6, 4#6], 1 ≤ k ∧ k ≤ 4 ∧
      (withInputs [.regWrite k 7, .regRead k] issued).inputs = .regWrite k 7 :: .regRead k :: []) ∧
    (∀ k ∈ [5#6, 12#6, 13#6, 63#6], 5 ≤ k ∧ (withInputs [.regWrite k 7] idle).inputs = .regWrite k 7 :: []) ∧
    (∀ k ∈ [13#6, 63#6], 5 ≤ k ∧ 13 ≤ k ∧ (withInputs [.regRead k] idle).inputs = .regRead k :: []) := by decide

/-- Every register while idle; CMD, STATUS, RES0 and RES1 while a command runs; the first and the last unit register then. -/
theorem test_witness_RegisterReadsShowTheirFields :
    (∀ k ∈ [0#6, 5#6, 6#6, 7#6, 8#6, 9#6, 10#6, 11#6, 12#6],
      idle.busy = false ∧ (withInputs [.regRead k] idle).inputs = .regRead k :: []) ∧
    (∀ k ∈ [0#6, 5#6, 6#6, 7#6], k < 8 ∧ (withInputs [.regRead k] issued).inputs = .regRead k :: []) ∧
    (∀ k ∈ [8#6, 12#6],
      issued.busy = true ∧ 8 ≤ k ∧ k ≤ 12 ∧ (withInputs [.regRead k] issued).inputs = .regRead k :: []) := by decide

/-- The last offset of HB, the first past it, and the two ends of a range in use. -/
theorem test_witness_HostBufferAccessByTheHost :
    (let s := withOperands 3 2 0 0 { sdBound issued with running := some (.sd (.readN 0)) }
     (63 : Word).toNat < s.params.hbSize ∧ inUse s (63 : Word).toNat = false ∧ inUse s 2 = false ∧ inUse s 5 = false ∧
       s.params.hbSize ≤ (64 : Word).toNat ∧ (3 : Word).toNat < s.params.hbSize ∧ inUse s (3 : Word).toNat = true ∧
       inUse s 4 = true ∧
       (withInputs [.hbWrite 63 1] s).inputs = .hbWrite 63 1 :: [] ∧
       (withInputs [.hbRead 63] s).inputs = .hbRead 63 :: []) := by decide

/-- A block whose SD_READN waits on the source meets the invariant, and steps. -/
theorem test_witness_StepKeepsTheInvariant :
    let s := withInputs (bytesCome [0x59]) (withOperands 3 2 0 0
      { sdBound issued with running := some (.sd (.readN 0)) })
    s.Inv ∧ ∃ t, step s = .next t := by
  refine ⟨⟨by decide, by decide, by decide, by decide, ?_⟩, _, rfl⟩
  show SdWait.agrees _ (.readN 0) ∧ SeUnit.atRest _
  unfold SdWait.agrees
  decide

/-- The ends of R21's ranges. -/
theorem test_witness_AlphabetTablesByTheirRanges :
    (0 : Sextet).toNat < 26 ∧ (25 : Sextet).toNat < 26 ∧ 26 ≤ (26 : Sextet).toNat ∧ (51 : Sextet).toNat < 52 ∧
      52 ≤ (52 : Sextet).toNat ∧ (61 : Sextet).toNat < 62 ∧ (62 : Sextet).toNat = 62 ∧ (63 : Sextet).toNat = 63 := by
  decide

theorem test_witness_EncgrpPacksTheGroup : issued.faulted = false ∧ (1#2 ≠ 0 ∧ 2#2 ≠ 0 ∧ 3#2 ≠ 0) := by decide

/-- `YWI=` for the first clause with bytes, `YQ=A` for the one with misplaced padding, and for each index a quartet whose
first byte that is no symbol stands there. -/
theorem test_witness_DecqDecodesTheQuartet :
    issued.faulted = false ∧
    (cls 0x59 = .sym (.val 24) ∧ cls 0x57 = .sym (.val 22) ∧ cls 0x49 = .sym (.val 8) ∧ cls 0x3D = .sym .pad) ∧
    decodeQuartet (.val 24) (.val 22) (.val 8) .pad = .ok [0x61, 0x62] 2 ∧
    decodeQuartet (.val 24) (.val 16) .pad (.val 0) = .badPad ∧
    (∀ k ∈ [0, 1, 2, 3], ∀ j, j < k → cls ((0x41414141 : Word).extractLsb' (8 * j) 8) = .sym (.val 0)) ∧
    (cls ((0x41414121 : Word).extractLsb' (8 * 0) 8) = .inv ∧ cls ((0x41412141 : Word).extractLsb' (8 * 1) 8) = .inv ∧
      cls ((0x41204141 : Word).extractLsb' (8 * 2) 8) = .ws ∧ cls ((0x21414141 : Word).extractLsb' (8 * 3) 8) = .inv) := by
  decide

theorem test_witness_DecqUndoesEncgrp : issued.faulted = false ∧ 1#2 ≠ 0 ∧
    ∃ t, exec (.encgrp 1) (withOperands 0x61 0 0 0 issued) = .next t := ⟨rfl, by decide, _, rfl⟩

set_option maxRecDepth 8000 in
/-- The 57 bytes of a full line: the line-feed, and the symbol before it. -/
theorem test_witness_LineFeedsAfterEvery76Symbols :
    (bulkEncode (List.replicate 57 0))[76]? = some 0x0A ∧ (bulkEncode (List.replicate 57 0))[75]? = some 0x41 := by
  decide

/-- `Y`, space, `Q==` against `YQ==`. -/
theorem test_witness_BulkDecodeIgnoresWhitespace :
    significant [0x59, 0x20, 0x51, 0x3D, 0x3D] = significant (bulkEncode [0x61]) := by decide

/-- `YWJj`, then `YQ=`, then `!`. -/
theorem test_witness_BulkDecodeRejectsInvalidBytes :
    (∀ c ∈ [0x59#8, 0x57#8, 0x4A#8, 0x6A#8], cls c ≠ .inv ∧ cls c ≠ .sym .pad) ∧
    (significant [0x59, 0x57, 0x4A, 0x6A]).length % 4 = 0 ∧ (∀ c ∈ [0x59#8, 0x51#8, 0x3D#8], cls c ≠ .inv) ∧
    (significant [0x59, 0x51, 0x3D]).length ≤ 3 ∧ cls 0x21 = .inv := by decide

/-- `YWJj` with `Y`, and with `YQ=`, left over. -/
theorem test_witness_BulkTailPolicies :
    (∀ c ∈ [0x59#8, 0x57#8, 0x4A#8, 0x6A#8], cls c ≠ .inv ∧ cls c ≠ .sym .pad) ∧
    (significant [0x59, 0x57, 0x4A, 0x6A]).length % 4 = 0 ∧
    ∀ tail ∈ [[0x59#8], [0x59#8, 0x51#8, 0x3D#8]],
      (∀ c ∈ tail, cls c ≠ .inv) ∧ 1 ≤ (significant tail).length ∧ (significant tail).length ≤ 3 := by decide

/-- `abc` with a capacity of exactly 4, and of 3. -/
theorem test_witness_BencEncodesTheRange :
    let s := withBytes [0x61, 0x62, 0x63] (withOperands 0 3 60 4 issued)
    let s' := withBytes [0x61, 0x62, 0x63] (withOperands 0 3 60 3 issued)
    s.faulted = false ∧ admitted s.params s.latched.a0 s.latched.a1 = true ∧
      admitted s.params s.latched.a2 s.latched.a3 = true ∧
      (bulkEncode (Memory.readRange s.hb 0 3)).length ≤ s.latched.a3.toNat ∧
      admitted s'.params s'.latched.a2 s'.latched.a3 = true ∧
      admitted s.params (withOperands 0 3 61 4 s).latched.a2 (withOperands 0 3 61 4 s).latched.a3 = false ∧
      s'.latched.a3.toNat < (bulkEncode (Memory.readRange s'.hb 0 3)).length := by decide

/-- `YWJj` with a capacity of exactly 3, and of 2; `YW!j`. -/
theorem test_witness_BdecDecodesTheRange :
    let s := withBytes [0x59, 0x57, 0x4A, 0x6A] (withOperands 0 4 61 3 issued)
    let e := withBytes [0x59, 0x57, 0x21, 0x6A] (withOperands 0 4 61 3 issued)
    s.faulted = false ∧ admitted s.params s.latched.a0 s.latched.a1 = true ∧
      admitted s.params s.latched.a2 s.latched.a3 = true ∧
      bulkDecode s.params.bulkTailPolicy (Memory.readRange s.hb 0 4) = .ok [0x61, 0x62, 0x63] ∧
      [0x61#8, 0x62#8, 0x63#8].length ≤ s.latched.a3.toNat ∧
      admitted s.params (withOperands 0 4 61 4 s).latched.a2 (withOperands 0 4 61 4 s).latched.a3 = false ∧
      (withOperands 0 4 61 2 s).latched.a3.toNat < [0x61#8, 0x62#8, 0x63#8].length ∧
      bulkDecode e.params.bulkTailPolicy (Memory.readRange e.hb 0 4) = .err .errMalformed 2 0x21 := by decide

/-- Each range one byte past the end of HB. -/
theorem test_witness_RangeNotAdmittedFaults :
    (withOperands 62 3 0 0 issued).params.hbSize < (62 : Word).toNat + (3 : Word).toNat ∧
    (withOperands 0 0 64 1 issued).params.hbSize < (64 : Word).toNat + (1 : Word).toNat ∧
    (seHolding 0 0 0 0 0 (withOperands 62 3 0 0 issued)).se.state = .opened ∧
    (sdBound (withOperands 62 3 0 0 issued)).sd.bound ∧ issued.faulted = false := by decide

theorem test_witness_OpenSinkBindsTheUnit :
    (∀ q ∈ [SeState.idle, .closed, .failed], (seIn q issued).se.state ≠ .opened ∧ (seIn q issued).faulted = false) ∧
    (seIn .opened issued).se.state = .opened ∧ issued.faulted = false := by decide

theorem test_witness_SinkCommandsNeedAnOpenUnit :
    (seIn .idle issued).se.state = .idle ∧ (seIn .closed issued).se.state = .closed ∧
    (seIn .failed issued).se.state = .failed ∧ issued.faulted = false := by decide

/-- No byte and one byte held; a line with room for one more group, and the last group of a line. -/
theorem test_witness_SeWriteByTheBytesHeld :
    (∀ n ∈ [0#2, 1#2],
      let s := seHolding 0x61 0 0 n 72 issued
      s.running = none ∧ s.faulted = false ∧ s.se.state = .opened ∧ s.se.count = n) ∧
    (let s := withInputs (acks 4) (seHolding 0x61 0x62 0 2 68 issued)
     s.running = none ∧ s.faulted = false ∧ s.se.state = .opened ∧ s.se.count = 2 ∧ s.se.line.toNat < 72 ∧
       s.inputs = List.replicate 4 (.sinkAnswer .ack) ++ []) ∧
    (let s := withInputs (acks 5) (seHolding 0x61 0x62 0 2 72 issued)
     s.running = none ∧ s.faulted = false ∧ s.se.state = .opened ∧ s.se.count = 2 ∧ s.se.line = 72 ∧
       s.inputs = List.replicate 5 (.sinkAnswer .ack) ++ []) := by decide

/-- Three bytes at the end of HB with enough Acks, and with a failure at the second request. -/
theorem test_witness_SeWritenIsSeWriteOfEachByte :
    let s := withInputs (acks 15) (withBytes [0x61, 0x62, 0x63] (withOperands 61 3 0 0 (seHolding 0x61 0 0 1 72 issued)))
    s.running = none ∧ s.faulted = false ∧ s.se.state = .opened ∧ s.se.atRest ∧
      admitted s.params s.latched.a0 s.latched.a1 = true ∧ 5 * s.latched.a1.toNat ≤ 15 ∧
      s.inputs = List.replicate 15 (.sinkAnswer .ack) ++ [] ∧
      (withInputs (acks 1 ++ [.sinkAnswer (.fail 7)]) s).inputs =
        List.replicate 1 (.sinkAnswer .ack) ++ .sinkAnswer (.fail 7) :: [] := by decide

theorem test_witness_SeFlushSendsThePaddedGroup :
    (∀ n ∈ [1#2, 2#2],
      let s := withInputs (acks 5) (seHolding 0x61 0x62 0 n 0 issued)
      s.running = none ∧ s.faulted = false ∧ s.se.state = .opened ∧ (s.se.count = 1 ∨ s.se.count = 2) ∧
        s.inputs = List.replicate 5 (.sinkAnswer .ack) ++ []) ∧
    (let s := withInputs (acks 1) (seHolding 0x61 0x62 0 0 0 issued)
     s.running = none ∧ s.faulted = false ∧ s.se.state = .opened ∧ s.se.count = 0 ∧
       s.inputs = .sinkAnswer .ack :: []) := by decide

theorem test_witness_SeCloseFlushesThenCloses :
    (∀ n ∈ [1#2, 2#2],
      let s := withInputs (acks 6) (seHolding 0x61 0x62 0 n 0 issued)
      s.running = none ∧ s.faulted = false ∧ s.se.state = .opened ∧ (s.se.count = 1 ∨ s.se.count = 2) ∧
        s.inputs = List.replicate 6 (.sinkAnswer .ack) ++ []) ∧
    (let s := withInputs (acks 2) (seHolding 0x61 0x62 0 0 0 issued)
     s.running = none ∧ s.faulted = false ∧ s.se.state = .opened ∧ s.se.count = 0 ∧
       s.inputs = [.sinkAnswer .ack, .sinkAnswer .ack] ++ []) := by decide

/-- The largest code of a port of 4 bits, with and without a FAULT_CMD_BUSY before. -/
theorem test_witness_SinkFailureEndsTheCommand :
    ∀ f ∈ [false, true],
      let s := withInputs [.sinkAnswer (.fail 15)] { seHolding 0x61 0x62 0x63 3 76 issued with
        params := { issued.params with upstreamCodeW := 4 }, running := some (.se (.lineFeed (.many 2 []))), faulted := f }
      s.running = some (.se (.lineFeed (.many 2 []))) ∧ (15 : Word).toNat < 2 ^ s.params.upstreamCodeW ∧
        s.inputs = .sinkAnswer (.fail 15) :: [] := by decide

theorem test_witness_StreamEncoderSendsTheBulkEncoding :
    let s := withInputs (acks 6) (withBytes [0x61] (withOperands 0 1 0 0 (seHolding 0 0 0 0 0 issued)))
    s.running = none ∧ s.faulted = false ∧ s.se = { state := .opened, buf := ⟨0, 0, 0⟩, count := 0, line := 0 } ∧
      (bulkEncode [0x61]).length + 2 ≤ 6 ∧ s.inputs = List.replicate 6 (.sinkAnswer .ack) ∧
      admitted s.params s.latched.a0 s.latched.a1 = true ∧
      Memory.readRange s.hb s.latched.a0.toNat s.latched.a1.toNat = [0x61] := by decide

theorem test_witness_OpenSourceBindsTheUnit :
    (∀ q ∈ [SdPhase.idle, .closed, .failed], ¬ (sdIn q issued).sd.bound ∧ (sdIn q issued).faulted = false) ∧
    (∀ q ∈ [SdPhase.empty, .ready, .exhausted], (sdIn q issued).sd.bound ∧ (sdIn q issued).faulted = false) := by decide

theorem test_witness_SourceCommandsNeedABoundUnit :
    (sdIn .idle issued).sd.phase = .idle ∧ (sdIn .closed issued).sd.phase = .closed ∧
    (sdIn .failed issued).sd.phase = .failed ∧ issued.faulted = false := by decide

theorem test_witness_SdReadServesTheCachedByte :
    let s := sdCaching issued
    s.faulted = false ∧ s.sd.phase = .ready ∧ s.sd.pos.toNat < s.sd.nsig.toNat := by decide

theorem test_witness_ExhaustedUnitGivesEndOfStream :
    let s := withOperands 63 1 0 0 (sdIn .exhausted issued)
    s.running = none ∧ s.faulted = false ∧ s.sd.phase = .exhausted ∧
      admitted s.params s.latched.a0 s.latched.a1 = true ∧ s.latched.a1 ≠ 0 := by decide

/-- Space, `Y`, `Q`, tab, `=`, `=`. -/
theorem test_witness_SdReadDecodesAQuartet :
    let s := withInputs (bytesCome [0x20, 0x59, 0x51, 0x09, 0x3D, 0x3D]) (sdBound issued)
    s.running = none ∧ s.faulted = false ∧ s.sd.phase = .empty ∧ s.sd.count = 0 ∧
      (∀ c ∈ [0x20#8] ++ [] ++ [0x09#8] ++ [], cls c = .ws) ∧
      cls 0x59 = .sym (.val 24) ∧ cls 0x51 = .sym (.val 16) ∧ cls 0x3D = .sym .pad ∧
      decodeQuartet (.val 24) (.val 16) .pad .pad = .ok [0x61] 1 ∧
      s.inputs = ([0x20] ++ 0x59 :: [] ++ 0x51 :: [0x09] ++ 0x3D :: [] ++ [0x3D]).map
        (fun b => Input.readAnswer (.byte b)) ++ [] := by decide

/-- No symbol, one and three, before End and before a failure. -/
theorem test_witness_SourceEndsOrFailsInsideAQuartet :
    ∀ front ∈ [[], [0x20#8], [0x59#8], [0x59#8, 0x51#8, 0x20#8, 0x3D#8]], ∀ a ∈ [ReadAnswer.endOfInput, .fail 7],
      let s := withInputs (bytesCome front ++ [.readAnswer a]) (sdBound issued)
      s.running = none ∧ s.faulted = false ∧ s.sd.phase = .empty ∧ s.sd.count = 0 ∧ (∀ c ∈ front, cls c ≠ .inv) ∧
        (significant front).length ≤ 3 ∧ (7 : Word).toNat < 2 ^ s.params.upstreamCodeW ∧
        s.inputs = front.map (fun b => Input.readAnswer (.byte b)) ++ .readAnswer a :: [] := by decide

/-- An invalid byte after two symbols, and `YQ=A`. -/
theorem test_witness_SdReadReportsMalformedInput :
    (let s := withInputs (bytesCome [0x59, 0x20, 0x57, 0x21]) (sdBound issued)
     s.running = none ∧ s.faulted = false ∧ s.sd.phase = .empty ∧ s.sd.count = 0 ∧
       (∀ c ∈ [0x59#8, 0x20#8, 0x57#8], cls c ≠ .inv) ∧
       (significant [0x59#8, 0x20#8, 0x57#8]).length ≤ 3 ∧
       s.inputs = [0x59#8, 0x20#8, 0x57#8].map (fun b => Input.readAnswer (.byte b)) ++ .readAnswer (.byte 0x21) :: [] ∧
       cls 0x21 = .inv) ∧
    (let s := withInputs (bytesCome [0x59, 0x51, 0x3D, 0x41]) (sdBound issued)
     (∀ c ∈ [0x59#8, 0x51#8, 0x3D#8], cls c ≠ .inv) ∧
       (significant [0x59#8, 0x51#8, 0x3D#8]).length ≤ 3 ∧
       s.inputs = [0x59#8, 0x51#8, 0x3D#8].map (fun b => Input.readAnswer (.byte b)) ++ .readAnswer (.byte 0x41) :: [] ∧
       cls 0x41 = .sym (.val 0) ∧ decodeQuartet (.val 24) (.val 16) .pad (.val 0) = .badPad ∧
       (significant [0x59#8, 0x51#8, 0x3D#8]).map cls =
         [.sym (.val 24), .sym (.val 16), .sym .pad]) := by decide

/-- Length 0 at the end of HB, and 8 bytes wanted of `YWJj` and End. -/
theorem test_witness_SdReadnIsSdReadOfEachByte :
    (let s := withOperands 64 0 0 0 (sdIn .exhausted issued)
     s.faulted = false ∧ s.sd.bound ∧ s.latched.a1 = 0 ∧ s.latched.a0.toNat ≤ s.params.hbSize) ∧
    (let s := withInputs (bytesCome [0x59, 0x57, 0x4A, 0x6A] ++ [.readAnswer .endOfInput])
       (withOperands 56 8 0 0 (sdBound issued))
     s.running = none ∧ s.faulted = false ∧ s.sd.bound ∧ s.sd.atRest ∧
       admitted s.params s.latched.a0 s.latched.a1 = true ∧ s.latched.a1 ≠ 0 ∧
       s.inputs = [0x59#8, 0x57#8, 0x4A#8, 0x6A#8].map (fun b => Input.readAnswer (.byte b)) ++
         .readAnswer .endOfInput :: []) := by decide

/-- A close that is acknowledged, one that fails, and a partial quartet. -/
theorem test_witness_SdCloseClosesTheSource :
    (let s := withInputs [.closeAnswer .ack] (sdCaching issued)
     s.running = none ∧ s.faulted = false ∧ s.sd.bound ∧ s.sd.count = 0 ∧ s.inputs = .closeAnswer .ack :: []) ∧
    (let s := withInputs [.closeAnswer (.fail 6)] (sdCaching issued)
     s.running = none ∧ s.faulted = false ∧ s.sd.bound ∧ s.sd.count = 0 ∧ (6 : Word).toNat < 2 ^ s.params.upstreamCodeW ∧
       s.inputs = .closeAnswer (.fail 6) :: []) ∧
    (let s := { issued with sd := { sdOpened with count := 1 } }
     s.running = none ∧ s.faulted = false ∧ s.sd.bound ∧ s.sd.count ≠ 0) := by decide

/-- `YQ==`, and `YW!`. -/
theorem test_witness_StreamDecoderAgreesWithTheBulkDecoder :
    let s := withInputs (bytesCome [0x59, 0x51, 0x3D, 0x3D] ++ [.readAnswer .endOfInput]) (sdBound issued)
    s.running = none ∧ s.faulted = false ∧
      s.sd = { phase := .empty, acc := ⟨.val 0, .val 0, .val 0, .val 0⟩, count := 0, out := ⟨0, 0, 0⟩, nsig := 0,
               pos := 0, padded := false, srcidx := 0 } ∧
      [0x59#8, 0x51#8, 0x3D#8, 0x3D#8].length < 2 ^ 32 ∧
      s.inputs = [0x59#8, 0x51#8, 0x3D#8, 0x3D#8].map (fun b => Input.readAnswer (.byte b)) ++
        .readAnswer .endOfInput :: [] ∧
      bulkDecode .error [0x59, 0x51, 0x3D, 0x3D] = .ok [0x61] ∧
      bulkDecode .error [0x59, 0x57, 0x21] = .err .errMalformed 2 0x21 ∧
      [0x59#8, 0x51#8, 0x3D#8, 0x3D#8] = bulkEncode [0x61] := by decide

/-- ENCGRP, DECQ; BENC of `abc`; BDEC of `YWJj`, and of `YW!j`. -/
theorem test_witness_GroupAndBulkCommandsFrame :
    (∃ t, exec (.encgrp 2) issued = .next t) ∧ (∃ t, exec .decq issued = .next t) ∧
    (∃ t, exec .benc (withBytes [0x61, 0x62, 0x63] (withOperands 0 3 16 8 issued)) = .next t) ∧
    (∃ t, exec .bdec (withBytes [0x59, 0x57, 0x4A, 0x6A] (withOperands 0 4 16 8 issued)) = .next t) ∧
    bulkDecode issued.params.bulkTailPolicy [0x59, 0x57, 0x4A, 0x6A] = .ok [0x61, 0x62, 0x63] ∧
    bulkDecode issued.params.bulkTailPolicy [0x59, 0x57, 0x21, 0x6A] = .err .errMalformed 2 0x21 :=
  ⟨⟨_, rfl⟩, ⟨_, rfl⟩, ⟨_, rfl⟩, ⟨_, rfl⟩, by decide, by decide⟩

theorem test_witness_StreamEncoderCommandsFrame :
    (let s := withInputs (acks 6) (seHolding 0x61 0x62 0 2 72 issued)
     s.running = none ∧ ∀ i ∈ [Instr.openSink, .seWrite 0x63, .seWriten, .seFlush, .seClose],
       (after (exec i s)).isSome = true) ∧
    ∀ p ∈ [(Waiting.se (.flush true), Input.sinkAnswer .ack), (.ready (.sink (.flush true) .ack), .proceed)],
      let s := withInputs [p.2, .sinkAnswer .ack] { seHolding 0 0 0 0 0 issued with running := some p.1 }
      s.running = some p.1 ∧ s.inputs = p.2 :: [.sinkAnswer .ack] ∧ (after (step s)).isSome = true := by decide

theorem test_witness_StreamDecoderCommandsFrame :
    (let s := withInputs (bytesCome [0x59, 0x51, 0x3D, 0x3D]) (sdBound issued)
     s.running = none ∧ ∀ i ∈ [Instr.openSource, .sdRead, .sdClose], (after (exec i s)).isSome = true) ∧
    ∀ p ∈ [(Waiting.sd .read, Input.readAnswer .endOfInput), (.sd .close, .closeAnswer .ack),
        (.ready (.read .endOfInput), .proceed), (.ready (.close .ack), .proceed)],
      let s := withInputs [p.2] { sdBound issued with running := some p.1 }
      s.running = some p.1 ∧ s.inputs = p.2 :: [] ∧ (after (step s)).isSome = true := by decide

/-- A running SD_READN with two bytes stored, at an answer; the same ready to go on, and one just issued. -/
theorem test_witness_SdReadnFrame :
    (let s := withInputs (bytesCome [0x59, 0x51, 0x3D, 0x3D]) (withOperands 0 8 0 0 (sdBound issued))
     s.running = none ∧ (after (exec .sdReadn s)).isSome = true) ∧
    (let s := withInputs [.readAnswer .endOfInput] { sdBound issued with running := some (.sd (.readN 2)) }
     s.running = some (.sd (.readN 2)) ∧ s.inputs = .readAnswer .endOfInput :: [] ∧ (after (step s)).isSome = true) ∧
    (Ready.isReadN 2 (.readN 2 .endOfInput) ∧ Ready.isReadN 2 (.storing 2) ∧ Ready.isReadN 0 (.command .sdReadn)) ∧
    ∀ r ∈ [Ready.readN 2 .endOfInput, .storing 2, .command .sdReadn], ∀ x ∈ [Input.proceed, .proceedStores 1],
      let s := withInputs [x] { sdCaching issued with running := some (.ready r) }
      s.running = some (.ready r) ∧ s.inputs = x :: [] ∧ (after (step s)).isSome = true :=
  ⟨by decide, by decide, ⟨rfl, rfl, rfl, rfl⟩, by decide⟩

theorem test_witness_CommandsReadOnlyLatchedOperands :
    (after (exec (.encgrp 1) issued)).isSome = true ∧
    (after (step (withInputs [.readAnswer .endOfInput] { sdBound issued with running := some (.sd .read) }))).isSome =
      true ∧
    (after (step (withInputs [.proceed] { issued with running := some (.ready (.command .benc)) }))).isSome = true := by
  decide

/-- Operand bits that differ only where the command does not read. -/
theorem test_witness_CommandsIgnoreOtherOperandBits :
    (0xFFFFFF61 : Word) &&& 0xFF = (0x61 : Word) &&& 0xFF ∧ (0xFFFF6261 : Word) &&& 0xFFFF = (0x6261 : Word) &&& 0xFFFF ∧
    (0xFF636261 : Word) &&& 0xFFFFFF = (0x636261 : Word) &&& 0xFFFFFF ∧
    (∀ i ∈ [Instr.encgrp 1, .encgrp 2, .encgrp 3, .decq, .seWriten, .sdReadn, .openSink, .seWrite 7, .seFlush, .seClose,
      .openSource, .sdRead, .sdClose], (after (exec i issued)).isSome = true) := by decide

/-- A command waiting on each port, and one that has not begun; and an SD_READ that meets `!`. -/
theorem test_witness_RunningCommandAfterCmdBusyReportsNothing :
    (∀ p ∈ [(Waiting.se .close, Input.sinkAnswer .ack), (.sd .read, .readAnswer .endOfInput), (.sd .close, .closeAnswer .ack),
        (.ready (.command .decq), .proceed), (.ready (.storing 0), .proceedStores 1)],
      issued.faulted = false ∧
        (after (step { issued with running := some p.1, inputs := p.2 :: [] })).isSome = true) ∧
    (let s := withInputs [.readAnswer (.byte 0x21)]
       { sdBound issued with running := some (.sd .read), faulted := true, code := .faultCmdBusy }
     s.running = some (.sd .read) ∧ s.faulted = true ∧ cls 0x21 = .inv ∧
       s.inputs = .readAnswer (.byte 0x21) :: []) := by decide

/-- Each port command at its first request; no input; an answer to the other port, and a late one. -/
theorem test_witness_UnansweredCommandWaits :
    (let s := withBytes [0x63, 0x64] (withOperands 0 2 0 0 (seHolding 0x61 0x62 0 2 72 issued))
     s.running = none ∧ s.se.state = .opened ∧ s.inputs = [] ∧ s.se.count = 2 ∧
       admitted s.params s.latched.a0 s.latched.a1 = true ∧
       Memory.readRange s.hb s.latched.a0.toNat s.latched.a1.toNat = 0x63 :: [0x64] ∧
       encodeGroup s.se.buf.b0 s.se.buf.b1 0x63 3 = [0x59, 0x57, 0x4A, 0x6A] ∧
       encodeGroup s.se.buf.b0 s.se.buf.b1 s.se.buf.b2 s.se.count = [0x59, 0x57, 0x49, 0x3D]) ∧
    (let s := withBytes [0x62, 0x63] (withOperands 0 2 0 0 (seHolding 0x61 0 0 1 0 issued))
     s.running = none ∧ s.se.state = .opened ∧ s.inputs = [] ∧ s.se.count = 1 ∧ 0x61 = s.se.buf.b0 ∧
       admitted s.params s.latched.a0 s.latched.a1 = true ∧
       Memory.readRange s.hb s.latched.a0.toNat s.latched.a1.toNat = 0x62 :: 0x63 :: [] ∧
       encodeGroup 0x61 0x62 0x63 3 = [0x59, 0x57, 0x4A, 0x6A]) ∧
    (let s := withBytes [0x61, 0x62, 0x63] (withOperands 0 3 0 0 (seHolding 0 0 0 0 0 issued))
     s.running = none ∧ s.se.state = .opened ∧ s.inputs = [] ∧ s.se.count = 0 ∧
       admitted s.params s.latched.a0 s.latched.a1 = true ∧
       Memory.readRange s.hb s.latched.a0.toNat s.latched.a1.toNat = 0x61 :: 0x62 :: 0x63 :: []) ∧
    (let s := withOperands 0 3 0 0 (sdCaching issued)
     s.running = none ∧ s.inputs = [] ∧ s.sd.phase = .ready ∧ s.sd.padded = false ∧ 0 < 2 ∧
       s.sd.pos.toNat + 2 = s.sd.nsig.toNat ∧ admitted s.params s.latched.a0 s.latched.a1 = true ∧
       2 < s.latched.a1.toNat) ∧
    (let s := withOperands 63 1 0 0 (sdBound issued)
     s.running = none ∧ s.sd.phase = .empty ∧ s.inputs = [] ∧ s.sd.bound ∧ s.sd.count = 0 ∧
       admitted s.params s.latched.a0 s.latched.a1 = true ∧ s.latched.a1 ≠ 0) ∧
    (issued.inputs = [] ∧ ∀ r, issued.running ≠ some (.ready r)) ∧
    (withInputs [.lateAnswer] issued).inputs = .lateAnswer :: [] ∧
    ¬ State.awaits { issued with running := some (.sd .read) } (.sinkAnswer .ack) ∧
    ¬ State.awaits { issued with running := some (.sd .read) } .lateAnswer := by
  refine ⟨by decide, by decide, by decide, by decide, by decide, ⟨rfl, fun r => nofun⟩, by decide, ?_, ?_⟩ <;>
    exact fun ⟨w, hw, h⟩ => by cases w <;> simp_all [Input.answers]

/-- SE_CLOSE that has used up one Ack and waits for the next; then it goes on with it. -/
theorem test_witness_LaterAnswersDoWhatAnswersInPlaceDo :
    let s := seHolding 0 0 0 0 0 issued
    let t := { s with running := some (.se .close), log := [.sink .flush (some .ack)] }
    exec .seClose { s with inputs := [.sinkAnswer .ack] } = .next t ∧ t.inputs = [] ∧ t.awaits (.sinkAnswer .ack) ∧
      ¬ t.awaits (.readAnswer .endOfInput) ∧
      (let u := { s with running := some (.se (.flush true)) }
       u.awaits (.sinkAnswer .ack) ∧ step { u with inputs := .sinkAnswer .ack :: [] } = .next t) ∧
      (let u := { s with running := some (.ready (.command .seClose)) }
       (∃ r, u.running = some (.ready r)) ∧ step { u with inputs := .proceed :: [] } =
         .next { s with running := some (.se (.flush true)) }) := by
  refine ⟨rfl, rfl, ⟨_, rfl, trivial⟩, ?_, ⟨⟨_, rfl, trivial⟩, rfl⟩, ⟨⟨_, rfl⟩, rfl⟩⟩
  exact fun ⟨w, hw, h⟩ => by cases hw; exact h

/-- An idle block; an awaited answer; an SD_READN that stops after one of the two bytes in its cache, and one that does not
stop. -/
theorem test_witness_TimeTakenMakesNoDifference :
    (idle.faulted = false ∧ idle.busy = false ∧ idle.running = none) ∧
    State.awaits { issued with running := some (.sd .read) } (Arrival.readAnswer .endOfInput).atOnce ∧
    (let s := withOperands 0 8 0 0 { sdCaching issued with running := some (.ready (.storing 3)) }
     s.running = some (.ready (.storing 3)) ∧ Ready.isReadN 3 (.storing 3) ∧
       (after (step { s with inputs := .proceedStores 1 :: [] })).map State.running =
         some (some (.ready (.storing 4))) ∧
       (after (step { s with inputs := .proceedStores 3 :: [] })).map State.running = some (some (.sd (.readN 5)))) :=
  ⟨by decide, ⟨_, rfl, rfl⟩, ⟨rfl, rfl, by decide, by decide⟩⟩

/-- A BENC that takes its time, with a register read of the host and a read of a byte outside its ranges to come, and with
nothing to come. -/
theorem test_witness_CommandsGoOnInFiniteTime :
    let s := withOperands 0 3 8 4 { issued with running := some (.ready (.command .benc)) }
    s.running = some (.ready (.command .benc)) ∧ s.busy = true ∧ s.inputs = [] ∧ portless .benc ∧
      (withInputs [.regRead 5, .hbRead 63] s).inputs = [.regRead 5, .hbRead 63] ∧
      (63 : Word).toNat < s.params.hbSize ∧ inUse s (63 : Word).toNat = false := by
  refine ⟨rfl, rfl, rfl, trivial, rfl, by decide, by decide⟩

theorem test_witness_LineIssuesItsCommand : idle.faulted = false ∧ idle.busy = false ∧ 1#2 ≠ 0 := by decide

end Sys2Proof.Tests
end

section
/-! SUPPORT. The frame of a port command (00_scope.md R11, 20_memory.md R60, R68): what it has done between two answers
(`PortWork`), what it leaves once it has taken the answers that stand next (`PortFrame`), for the commands of either unit. -/

namespace Sys2Proof.Machine

/-! ## Work between two answers, and the frame it leaves -/

/-- The state with all that a port command reports, waits on, asks and is answered blanked out; its unit and HB stand. -/
def State.blank (s : State) : State :=
  { s with code := .ok, faulted := false, res0 := 0, res1 := 0, busy := false, running := none, log := [], inputs := [] }

@[simp] theorem blank_complete (c : StatusCode) (x y : Word) (s : State) : (complete c x y s).blank = s.blank := by
  unfold complete
  split <;> rfl

/-- A command that began in `s` has come to `u` without a fault, leaving what `view` shows of the state: it waits on
nothing but `W`, its exchanges are `E`, and the inputs still stand as they were. -/
structure PortWork {α : Type} (view : State → α) (W : Waiting → Prop) (E : Exchange → Prop) (s u : State) : Prop where
  kept : view u.blank = view s.blank
  faulted : u.faulted = s.faulted
  inputs : u.inputs = s.inputs
  waits : ∀ w, u.running = some w → W w
  log : ∃ es, u.log = s.log ++ es ∧ ∀ e ∈ es, E e

/-- From `s` to `t` what `view` shows is left, only `E` is added to the log, and only `A` is taken from the inputs. -/
structure PortFrame {α : Type} (view : State → α) (E : Exchange → Prop) (A : Input → Prop) (s t : State) : Prop where
  kept : view t.blank = view s.blank
  log : ∃ es, t.log = s.log ++ es ∧ ∀ e ∈ es, E e
  inputs : ∃ is, s.inputs = is ++ t.inputs ∧ ∀ i ∈ is, A i

section
variable {α : Type} {view : State → α} {W : Waiting → Prop} {E : Exchange → Prop} {A : Input → Prop} {s u : State}

theorem PortWork.refl (h : ∀ w, s.running = some w → W w) : PortWork view W E s s :=
  ⟨rfl, rfl, rfl, h, [], by simp⟩

/-- A command that begins, or goes on after its time, waits on nothing yet. -/
theorem PortWork.start (s : State) : PortWork view W E s { s with running := none } :=
  ⟨rfl, rfl, rfl, by simp, [], by simp⟩

theorem PortWork.complete (h : PortWork view W E s u) (c : StatusCode) (x y : Word) :
    PortWork view W E s (Machine.complete c x y u) where
  kept := by rw [blank_complete, h.kept]
  faulted := by rw [complete_faulted, h.faulted]
  inputs := by rw [complete_inputs, h.inputs]
  waits := by simp
  log := by rw [complete_log]; exact h.log

theorem PortWork.ask (h : PortWork view W E s u) {w : Waiting} (hw : W w) : PortWork view W E s (Machine.ask w u) where
  kept := h.kept
  faulted := h.faulted
  inputs := h.inputs
  waits w' hw' := by cases hw'; exact hw
  log := h.log

theorem PortWork.observe (h : PortWork view W E s u) {e : Exchange} (he : E e) :
    PortWork view W E s (Machine.observe e u) where
  kept := h.kept
  faulted := h.faulted
  inputs := h.inputs
  waits := h.waits
  log := by
    obtain ⟨es, hlog, hes⟩ := h.log
    refine ⟨es ++ [e], by rw [observe_log, hlog, List.append_assoc], fun e' he' => ?_⟩
    rcases List.mem_append.mp he' with h' | h'
    · exact hes e' h'
    · rw [List.mem_singleton.mp h']; exact he

/-- Work that takes no answer is a frame. -/
theorem PortWork.frame (h : PortWork view W E s u) : PortFrame view E A s u :=
  ⟨h.kept, h.log, [], by simp [h.inputs]⟩

/-- A fault ends the command where it stands. -/
theorem PortWork.takeFault (h : PortWork view W E s u) (c : StatusCode) :
    PortFrame view E A s (Machine.takeFault c u) :=
  ⟨h.kept, h.log, [], by simp [h.inputs]⟩

/-- A command that takes answers keeps what every answer to it keeps, and takes those that are such answers from the
front of the inputs. -/
theorem driveOn_takes {P : State → Prop}
    (hanswer : ∀ i u u', P u → answered i u = some u' → A i ∧ P u') (is : List Input) (u : State) (h : P u) :
    ∃ v front rest, P v ∧ driveOn is u = { v with inputs := rest } ∧ is = front ++ rest ∧ ∀ i ∈ front, A i := by
  induction is generalizing u with
  | nil => exact ⟨u, [], [], h, rfl, rfl, by simp⟩
  | cons i is ih =>
    rw [driveOn]
    cases ha : answered i u with
    | none => exact ⟨u, [], i :: is, h, rfl, rfl, by simp⟩
    | some u' =>
      obtain ⟨hi, hu'⟩ := hanswer i u u' h ha
      obtain ⟨v, front, rest, hv, hd, his, hfront⟩ := ih u' hu'
      exact ⟨v, i :: front, rest, hv, hd, by rw [his, List.cons_append], by simpa [hi] using hfront⟩

/-- Where every answer to the command is one of `A` and keeps its work, taking the answers in place leaves its frame and
raises no fault. -/
theorem PortWork.drive (hanswer : ∀ i u u', PortWork view W E s u → answered i u = some u' → A i ∧ PortWork view W E s u')
    (h : PortWork view W E s u) :
    PortFrame view E A s (Machine.drive u) ∧ (Machine.drive u).faulted = s.faulted := by
  obtain ⟨v, front, rest, hv, hd, hi, hfront⟩ := driveOn_takes hanswer u.inputs u h
  rw [Machine.drive, hd]
  exact ⟨⟨hv.kept, hv.log, front, by rw [← h.inputs]; exact hi, hfront⟩, hv.faulted⟩

end

/-! ## The step that goes on -/

/-- The step that brings an answer in place. -/
theorem step_of_answered {s s' : State} {x : Input} {rest : List Input}
    (hx : (∃ a, x = .sinkAnswer a) ∨ (∃ a, x = .readAnswer a) ∨ ∃ a, x = .closeAnswer a)
    (hi : s.inputs = x :: rest) (ha : answered x { s with inputs := rest } = some s') : step s = .next (drive s') := by
  rw [step_of_input hi]
  rcases hx with ⟨a, rfl⟩ | ⟨a, rfl⟩ | ⟨a, rfl⟩ <;> simp only [takeInput, portAnswer, ha]

/-- The step that ends the time over a ready command (R230). -/
theorem step_of_proceed {s : State} {r : Ready} {rest : List Input} (hr : s.running = some (.ready r))
    (hi : s.inputs = .proceed :: rest) : step s = goOn r { s with inputs := rest, running := none } := by
  rw [step_of_input hi]
  simp only [takeInput, proceed, hr]

/-! ## Stream Encoder commands -/

/-- The state without its Stream Encoder. -/
def State.withoutSe (s : State) : State := { s with se := SeUnit.afterReset }

/-- A request to the sink. -/
def Waiting.onSink (w : Waiting) : Prop := ∃ v, w = .se v

/-- A sink request with its answer. -/
def Exchange.withSink (e : Exchange) : Prop := ∃ q a, e = .sink q (some a)

/-- An answer of the sink. -/
def Input.ofSink (i : Input) : Prop := ∃ a, i = .sinkAnswer a

/-- The work of a Stream Encoder command. -/
abbrev SinkWork (s u : State) : Prop := PortWork State.withoutSe Waiting.onSink Exchange.withSink s u

/-- The frame of a Stream Encoder command. -/
abbrev SinkFrame (s t : State) : Prop := PortFrame State.withoutSe Exchange.withSink Input.ofSink s t

theorem sinkWork_setSe {s u : State} (h : SinkWork s u) (x : SeUnit) : SinkWork s { u with se := x } :=
  ⟨h.kept, h.faulted, h.inputs, h.waits, h.log⟩

theorem sinkWork_ask {s u : State} (h : SinkWork s u) (w : SeWait) : SinkWork s (ask (.se w) u) := h.ask ⟨w, rfl⟩

theorem sinkWork_sePush {s u : State} (h : SinkWork s u) (b : Byte) : SinkWork s (sePush b u) := sinkWork_setSe h _

theorem sinkWork_seEmitGroup {s u : State} (h : SinkWork s u) (m : SeMore) : SinkWork s (seEmitGroup m u) :=
  sinkWork_ask h _

theorem sinkWork_seWriteOne {s u : State} (h : SinkWork s u) (b : Byte) : SinkWork s (seWriteOne b u) := by
  unfold seWriteOne
  split
  · exact sinkWork_seEmitGroup (sinkWork_sePush h b) _
  · exact (sinkWork_sePush h b).complete _ _ _

theorem sinkWork_seWriteMany {s u : State} (h : SinkWork s u) (bytes : List Byte) (k : Nat) :
    SinkWork s (seWriteMany k bytes u) := by
  induction bytes generalizing k u with
  | nil => exact h.complete _ _ _
  | cons b bytes ih =>
    unfold seWriteMany
    split
    · exact sinkWork_seEmitGroup (sinkWork_sePush h b) _
    · exact ih (sinkWork_sePush h b) _

theorem sinkWork_seGroupDone {s u : State} (h : SinkWork s u) (m : SeMore) : SinkWork s (seGroupDone m u) := by
  cases m with
  | one => exact (sinkWork_setSe h _).complete _ _ _
  | many k rest => exact sinkWork_seWriteMany (sinkWork_setSe h _) _ _

theorem sinkWork_seSymbolsSent {s u : State} (h : SinkWork s u) (m : SeMore) : SinkWork s (seSymbolsSent m u) := by
  unfold seSymbolsSent
  split
  · exact sinkWork_ask (sinkWork_setSe h _) _
  · exact sinkWork_seGroupDone (sinkWork_setSe h _) m

theorem sinkWork_seFlushBody {s u : State} (h : SinkWork s u) (closing : Bool) :
    SinkWork s (seFlushBody closing u) := by
  unfold seFlushBody
  split <;> exact sinkWork_ask h _

theorem sinkWork_seAcked {s u : State} (h : SinkWork s u) (w : SeWait) : SinkWork s (seAcked w u) := by
  unfold seAcked
  split
  · exact sinkWork_ask h _
  · exact sinkWork_seSymbolsSent h _
  · exact sinkWork_seGroupDone (sinkWork_setSe h _) _
  · exact sinkWork_ask h _
  · exact sinkWork_ask h _
  · exact sinkWork_ask h _
  · exact h.complete _ _ _
  · exact (sinkWork_setSe h _).complete _ _ _

theorem sinkWork_seGoesOn {s u : State} (h : SinkWork s u) (w : SeWait) (a : Ack) : SinkWork s (seGoesOn w a u) := by
  cases a with
  | ack => exact sinkWork_seAcked h w
  | fail e => exact (sinkWork_setSe h _).complete _ _ _

theorem sinkWork_seAnswered {s u : State} (h : SinkWork s u) (w : SeWait) (a : Ack) : SinkWork s (seAnswered w a u) :=
  sinkWork_seGoesOn (h.observe ⟨_, _, rfl⟩) w a

/-- A Stream Encoder command takes answers of the sink alone. -/
theorem sinkWork_answered {s u u' : State} {i : Input} (h : SinkWork s u) (ha : answered i u = some u') :
    i.ofSink ∧ SinkWork s u' := by
  rcases answered_cases ha with ⟨w, a, -, rfl, rfl⟩ | ⟨_, hr, -, -⟩ | ⟨_, _, hr, -, -⟩ | ⟨_, hr, -, -⟩
  · exact ⟨⟨a, rfl⟩, sinkWork_seAnswered h w a⟩
  all_goals
    obtain ⟨_, hw⟩ := h.waits _ hr
    cases hw

theorem sinkFrame_drive {s u : State} (h : SinkWork s u) : SinkFrame s (drive u) ∧ (drive u).faulted = s.faulted :=
  h.drive fun _ _ _ => sinkWork_answered

theorem sinkFrame_requireOpenSe {s t : State} (hs : SinkWork s s) (h : SinkFrame s t) :
    SinkFrame s (requireOpenSe s t) := by
  rcases requireOpenSe_cases s t with ⟨-, e⟩ | ⟨-, e⟩ | ⟨-, e⟩ | ⟨-, e⟩ <;> rw [e]
  · exact h
  all_goals exact hs.takeFault _

/-- The frame of every Stream Encoder command, run from an idle block. -/
theorem sinkFrame_exec {s t : State} {i : Instr}
    (hi : i = .openSink ∨ (∃ b, i = .seWrite b) ∨ i = .seWriten ∨ i = .seFlush ∨ i = .seClose)
    (hr : s.running = none) (h : exec i s = .next t) : SinkFrame s t := by
  have hs : SinkWork s s := .refl (by simp [hr])
  rcases hi with rfl | ⟨b, rfl⟩ | rfl | rfl | rfl
  · rw [exec, execOpenSink] at h
    split at h <;> cases h
    · exact hs.takeFault _
    · exact ((sinkWork_setSe hs _).complete _ _ _).frame
  · cases h
    exact sinkFrame_requireOpenSe hs (sinkFrame_drive (sinkWork_seWriteOne hs b)).1
  · cases h
    refine sinkFrame_requireOpenSe hs ?_
    unfold seWritenBody
    split
    · exact (sinkFrame_drive (sinkWork_seWriteMany hs _ _)).1
    · exact hs.takeFault _
  · cases h
    exact sinkFrame_requireOpenSe hs (sinkFrame_drive (sinkWork_seFlushBody hs false)).1
  · cases h
    exact sinkFrame_requireOpenSe hs (sinkFrame_drive (sinkWork_seFlushBody hs true)).1

/-- The frame of a Stream Encoder command that goes on with an answer, from the inputs behind it. -/
theorem sinkFrame_step {s t : State} {w : SeWait} {a : Ack} {x : Input} {rest : List Input}
    (hx : (s.running = some (.se w) ∧ x = .sinkAnswer a) ∨ (s.running = some (.ready (.sink w a)) ∧ x = .proceed))
    (hi : s.inputs = x :: rest) (h : step s = .next t) :
    SinkFrame { s with inputs := rest } t ∧ t.faulted = s.faulted := by
  rcases hx with ⟨hr, rfl⟩ | ⟨hr, rfl⟩
  · rw [step_of_answered (.inl ⟨a, rfl⟩) hi (s' := seAnswered w a { s with inputs := rest })
      (by simp only [answered, hr])] at h
    cases h
    have hs : SinkWork { s with inputs := rest } { s with inputs := rest } :=
      .refl fun w' hw' => ⟨w, Option.some.inj (hw'.symm.trans hr)⟩
    exact sinkFrame_drive (sinkWork_seAnswered hs w a)
  · rw [step_of_proceed hr hi] at h
    cases h
    exact sinkFrame_drive (sinkWork_seGoesOn (.start { s with inputs := rest }) w a)

/-- What the frame of a Stream Encoder command says, field by field. -/
theorem sinkFrame_eq {s t : State} (h : SinkFrame s t) :
    t = { s with code := t.code, faulted := t.faulted, res0 := t.res0, res1 := t.res1, busy := t.busy,
                 running := t.running, se := t.se, log := t.log, inputs := t.inputs } := by
  have hk := h.kept
  cases s
  cases t
  simp only [State.withoutSe, State.blank, State.mk.injEq] at hk
  simp [hk]

theorem sinkFrame_hb {s t : State} (h : SinkFrame s t) : t.hb = s.hb := (congrArg State.hb h.kept :)

/-- Settles O50: every operation of a Stream Encoder command keeps its frame, and so does the taking of its answers. -/
theorem streamEncoderCommandsFrame : Obligations.StreamEncoderCommandsFrame := by
  unfold Obligations.StreamEncoderCommandsFrame
  refine ⟨fun s t i hi hr h => ?_, fun s t w a x rest hx hi h => ?_⟩
  · have hf := sinkFrame_exec hi hr h
    exact ⟨sinkFrame_eq hf, fun b => by rw [sinkFrame_hb hf], hf.log, hf.inputs⟩
  · obtain ⟨hf, hfault⟩ := sinkFrame_step hx hi h
    refine ⟨?_, fun b => by rw [sinkFrame_hb hf], hf.log, hf.inputs⟩
    have e := sinkFrame_eq hf
    rw [hfault] at e
    exact e

/-! ## Stream Decoder commands that store nothing -/

/-- The state without its Stream Decoder. -/
def State.withoutSd (s : State) : State := { s with sd := SdUnit.afterReset }

/-- A request of SD_READ or SD_CLOSE. -/
def Waiting.onSource (w : Waiting) : Prop := w = .sd .read ∨ w = .sd .close

/-- A source request with its answer. -/
def Exchange.withSource (e : Exchange) : Prop := (∃ a, e = .sourceRead (some a)) ∨ ∃ a, e = .sourceClose (some a)

/-- An answer of the source. -/
def Input.ofSource (i : Input) : Prop := (∃ a, i = .readAnswer a) ∨ ∃ a, i = .closeAnswer a

/-- The work of a Stream Decoder command that stores nothing. -/
abbrev SourceWork (s u : State) : Prop := PortWork State.withoutSd Waiting.onSource Exchange.withSource s u

/-- The frame of a Stream Decoder command that stores nothing. -/
abbrev SourceFrame (s t : State) : Prop := PortFrame State.withoutSd Exchange.withSource Input.ofSource s t

theorem sourceWork_setSd {s u : State} (h : SourceWork s u) (x : SdUnit) : SourceWork s { u with sd := x } :=
  ⟨h.kept, h.faulted, h.inputs, h.waits, h.log⟩

theorem sourceWork_raiseSd {s u : State} (h : SourceWork s u) (c : StatusCode) (x y : Word) :
    SourceWork s (raiseSd c x y u) := (sourceWork_setSd h _).complete _ _ _

theorem sourceWork_sdReadServe {s u : State} (h : SourceWork s u) : SourceWork s (sdReadServe u) :=
  (sourceWork_setSd h _).complete _ _ _

theorem sourceWork_sdReadGoesOn {s u : State} (h : SourceWork s u) (a : ReadAnswer) :
    SourceWork s (sdReadGoesOn a u) := by
  unfold sdReadGoesOn sdReadOn
  split
  · exact (sourceWork_setSd h _).ask (.inl rfl)
  · exact sourceWork_sdReadServe (sourceWork_setSd h _)
  · exact (sourceWork_setSd h _).complete _ _ _
  · exact sourceWork_raiseSd (sourceWork_setSd h _) _ _ _

theorem sourceWork_sdCloseGoesOn {s u : State} (h : SourceWork s u) (a : Ack) : SourceWork s (sdCloseGoesOn a u) := by
  cases a with
  | ack => exact (sourceWork_setSd h _).complete _ _ _
  | fail e => exact sourceWork_raiseSd h _ _ _

theorem sourceWork_sdReadAnswered {s u : State} (h : SourceWork s u) (a : ReadAnswer) :
    SourceWork s (sdReadAnswered a u) := sourceWork_sdReadGoesOn (h.observe (.inl ⟨_, rfl⟩)) a

theorem sourceWork_sdCloseAnswered {s u : State} (h : SourceWork s u) (a : Ack) :
    SourceWork s (sdCloseAnswered a u) := sourceWork_sdCloseGoesOn (h.observe (.inr ⟨_, rfl⟩)) a

/-- SD_READ and SD_CLOSE take answers of the source alone. -/
theorem sourceWork_answered {s u u' : State} {i : Input} (h : SourceWork s u) (ha : answered i u = some u') :
    i.ofSource ∧ SourceWork s u' := by
  rcases answered_cases ha with ⟨_, _, hr, -, -⟩ | ⟨a, -, rfl, rfl⟩ | ⟨_, _, hr, -, -⟩ | ⟨a, -, rfl, rfl⟩
  · rcases h.waits _ hr with hw | hw <;> cases hw
  · exact ⟨.inl ⟨a, rfl⟩, sourceWork_sdReadAnswered h a⟩
  · rcases h.waits _ hr with hw | hw <;> cases hw
  · exact ⟨.inr ⟨a, rfl⟩, sourceWork_sdCloseAnswered h a⟩

theorem sourceFrame_drive {s u : State} (h : SourceWork s u) :
    SourceFrame s (drive u) ∧ (drive u).faulted = s.faulted :=
  h.drive fun _ _ _ => sourceWork_answered

/-- A command that faults where its unit is not bound has the frame that its body has. -/
theorem portFrame_requireOpenSd {α : Type} {view : State → α} {W : Waiting → Prop} {E : Exchange → Prop}
    {A : Input → Prop} {s u t : State} (hu : PortWork view W E s u) (h : PortFrame view E A s t) :
    PortFrame view E A s (requireOpenSd u t) := by
  rcases requireOpenSd_cases u t with ⟨-, e⟩ | ⟨-, e⟩ | ⟨-, e⟩ | ⟨-, e⟩ <;> rw [e]
  · exact h
  all_goals exact hu.takeFault _

theorem sourceFrame_execOpenSource {s t : State} (hs : SourceWork s s) (h : execOpenSource s = .next t) :
    SourceFrame s t := by
  unfold execOpenSource at h
  split at h <;> cases h
  · exact hs.takeFault _
  · exact hs.takeFault _
  · exact hs.takeFault _
  all_goals exact ((sourceWork_setSd hs _).complete _ _ _).frame

theorem sourceFrame_sdReadBody {s : State} (hs : SourceWork s s) : SourceFrame s (sdReadBody s) := by
  unfold sdReadBody
  split
  · exact (hs.complete _ _ _).frame
  · split
    · exact (sourceFrame_drive (hs.ask (.inl rfl))).1
    · exact (sourceWork_sdReadServe hs).frame

theorem sourceFrame_sdCloseBody {s : State} (hs : SourceWork s s) : SourceFrame s (sdCloseBody s) := by
  unfold sdCloseBody
  split
  · exact (sourceFrame_drive (hs.ask (.inr rfl))).1
  · exact (sourceWork_raiseSd hs _ _ _).frame

/-- The frame of OPEN_SOURCE, SD_READ and SD_CLOSE, run from an idle block. -/
theorem sourceFrame_exec {s t : State} {i : Instr} (hi : i = .openSource ∨ i = .sdRead ∨ i = .sdClose)
    (hr : s.running = none) (h : exec i s = .next t) : SourceFrame s t := by
  have hs : SourceWork s s := .refl (by simp [hr])
  rcases hi with rfl | rfl | rfl
  · exact sourceFrame_execOpenSource hs h
  · cases h
    exact portFrame_requireOpenSd hs (sourceFrame_sdReadBody hs)
  · cases h
    exact portFrame_requireOpenSd hs (sourceFrame_sdCloseBody hs)

/-- The frame of SD_READ and SD_CLOSE that go on with an answer, from the inputs behind it. -/
theorem sourceFrame_step {s t : State} {x : Input} {rest : List Input}
    (hx : (s.running = some (.sd .read) ∧ ∃ a, x = .readAnswer a) ∨
      (s.running = some (.sd .close) ∧ ∃ a, x = .closeAnswer a) ∨
      (((∃ a, s.running = some (.ready (.read a))) ∨ ∃ a, s.running = some (.ready (.close a))) ∧ x = .proceed))
    (hi : s.inputs = x :: rest) (h : step s = .next t) :
    SourceFrame { s with inputs := rest } t ∧ t.faulted = s.faulted := by
  rcases hx with ⟨hr, a, rfl⟩ | ⟨hr, a, rfl⟩ | ⟨⟨a, hr⟩ | ⟨a, hr⟩, rfl⟩
  · rw [step_of_answered (.inr (.inl ⟨a, rfl⟩)) hi (s' := sdReadAnswered a { s with inputs := rest })
      (by simp only [answered, hr])] at h
    cases h
    have hs : SourceWork { s with inputs := rest } { s with inputs := rest } :=
      .refl fun w' hw' => .inl (Option.some.inj (hw'.symm.trans hr))
    exact sourceFrame_drive (sourceWork_sdReadAnswered hs a)
  · rw [step_of_answered (.inr (.inr ⟨a, rfl⟩)) hi (s' := sdCloseAnswered a { s with inputs := rest })
      (by simp only [answered, hr])] at h
    cases h
    have hs : SourceWork { s with inputs := rest } { s with inputs := rest } :=
      .refl fun w' hw' => .inr (Option.some.inj (hw'.symm.trans hr))
    exact sourceFrame_drive (sourceWork_sdCloseAnswered hs a)
  · rw [step_of_proceed hr hi] at h
    cases h
    exact sourceFrame_drive (sourceWork_sdReadGoesOn (.start { s with inputs := rest }) a)
  · rw [step_of_proceed hr hi] at h
    cases h
    exact sourceFrame_drive (sourceWork_sdCloseGoesOn (.start { s with inputs := rest }) a)

/-- What the frame of a Stream Decoder command that stores nothing says, field by field. -/
theorem sourceFrame_eq {s t : State} (h : SourceFrame s t) :
    t = { s with code := t.code, faulted := t.faulted, res0 := t.res0, res1 := t.res1, busy := t.busy,
                 running := t.running, sd := t.sd, log := t.log, inputs := t.inputs } := by
  have hk := h.kept
  cases s
  cases t
  simp only [State.withoutSd, State.blank, State.mk.injEq] at hk
  simp [hk]

theorem sourceFrame_hb {s t : State} (h : SourceFrame s t) : t.hb = s.hb := (congrArg State.hb h.kept :)

/-- Settles O51: every operation of the three commands keeps their frame, and so does the taking of their answers. -/
theorem streamDecoderCommandsFrame : Obligations.StreamDecoderCommandsFrame := by
  unfold Obligations.StreamDecoderCommandsFrame
  refine ⟨fun s t i hi hr h => ?_, fun s t x rest hx hi h => ?_⟩
  · have hf := sourceFrame_exec hi hr h
    exact ⟨sourceFrame_eq hf, fun b => by rw [sourceFrame_hb hf], hf.log, hf.inputs⟩
  · obtain ⟨hf, hfault⟩ := sourceFrame_step hx hi h
    refine ⟨?_, fun b => by rw [sourceFrame_hb hf], hf.log, hf.inputs⟩
    have e := sourceFrame_eq hf
    rw [hfault] at e
    exact e

/-! ## SD_READN -/

/-- The state without its Stream Decoder, and of HB what reads outside `[lo, hi)` show. -/
def State.outsideRange (lo hi : Nat) (s : State) : State × (Nat → Byte) :=
  ({ s with sd := SdUnit.afterReset, hb := [] }, fun a => if lo ≤ a ∧ a < hi then 0 else Memory.read s.hb a)

/-- SD_READN waits for a byte with at least `k` obtained, or is ready to go on. -/
def Waiting.onReadN (k : Nat) (w : Waiting) : Prop := (∃ k', k ≤ k' ∧ w = .sd (.readN k')) ∨ ∃ r, w = .ready r

/-- A `SrcRead()` with its answer. -/
def Exchange.ofRead (e : Exchange) : Prop := ∃ a, e = .sourceRead (some a)

/-- An answer to `SrcRead()`. -/
def Input.ofRead (i : Input) : Prop := ∃ a, i = .readAnswer a

/-- The work of an SD_READN that has stored `k` bytes. -/
abbrev ReadNWork (k : Nat) (s u : State) : Prop :=
  PortWork (State.outsideRange (s.latched.a0.toNat + k) (s.latched.a0.toNat + s.latched.a1.toNat)) (Waiting.onReadN k)
    Exchange.ofRead s u

/-- The frame of an SD_READN that has stored `k` bytes. -/
abbrev ReadNFrame (k : Nat) (s t : State) : Prop :=
  PortFrame (State.outsideRange (s.latched.a0.toNat + k) (s.latched.a0.toNat + s.latched.a1.toNat)) Exchange.ofRead
    Input.ofRead s t

theorem readNWork_setSd {k : Nat} {s u : State} (h : ReadNWork k s u) (x : SdUnit) : ReadNWork k s { u with sd := x } :=
  ⟨h.kept, h.faulted, h.inputs, h.waits, h.log⟩

theorem readNWork_latched {k : Nat} {s u : State} (h : ReadNWork k s u) : u.latched = s.latched :=
  (congrArg (fun v => v.1.latched) h.kept :)

/-- A write inside the range does not show outside it. -/
theorem outsideRange_write {lo hi a : Nat} (b : Byte) (s : State) (h : lo ≤ a ∧ a < hi) :
    State.outsideRange lo hi { s with hb := Memory.write s.hb a b } = State.outsideRange lo hi s := by
  refine Prod.ext rfl (funext fun x => ?_)
  simp only [State.outsideRange]
  by_cases hx : lo ≤ x ∧ x < hi
  · rw [if_pos hx, if_pos hx]
  · rw [if_neg hx, if_neg hx, read_write_other _ _ (by rintro rfl; exact hx h)]

/-- SD_READN's store of byte `j` is inside its range. -/
theorem readNWork_sdStore {k j : Nat} {s u : State} (h : ReadNWork k s u) (hj : k ≤ j ∧ j < s.latched.a1.toNat) :
    ReadNWork k s (sdStore j u) where
  kept := by
    rw [← h.kept, ← readNWork_latched h]
    exact outsideRange_write (sdServe u.sd).1 u.blank (by rw [readNWork_latched h]; omega)
  faulted := h.faulted
  inputs := h.inputs
  waits := h.waits
  log := h.log

theorem readNWork_sdReadNEos {k : Nat} {s u : State} (h : ReadNWork k s u) (j : Nat) :
    ReadNWork k s (sdReadNEos j u) := by
  unfold sdReadNEos
  split <;> exact h.complete _ _ _

/-- The loop, wanting no more than A1 bytes in all. -/
theorem readNWork_sdReadUpTo {k n left j : Nat} {s u : State} (h : ReadNWork k s u) (hk : k ≤ j)
    (hleft : left ≤ s.latched.a1.toNat - j) : ReadNWork k s (sdReadUpTo n left j u) := by
  induction left generalizing n j u with
  | zero => rw [sdReadUpTo_zero]; exact h.complete _ _ _
  | succ left ih =>
    cases n with
    | zero => rw [sdReadUpTo_stop]; exact h.ask (.inr ⟨_, rfl⟩)
    | succ n =>
      by_cases h1 : u.sd.phase = .exhausted
      · rw [sdReadUpTo_of_exhausted _ _ _ h1]
        exact readNWork_sdReadNEos h j
      by_cases h2 : u.sd.phase = .empty
      · rw [sdReadUpTo_of_empty _ _ _ h2]
        exact h.ask (.inl ⟨j, hk, rfl⟩)
      · rw [sdReadUpTo_store _ _ _ h1 h2]
        exact ih (readNWork_sdStore h (by omega)) (by omega) (by omega)

theorem readNWork_sdReadNGoesOn {k j : Nat} {s u : State} (h : ReadNWork k s u) (hk : k ≤ j) (n : Nat)
    (a : ReadAnswer) : ReadNWork k s (sdReadNGoesOn n j a u) := by
  unfold sdReadNGoesOn sdReadNOn
  split
  · exact (readNWork_setSd h _).ask (.inl ⟨j, hk, rfl⟩)
  · exact readNWork_sdReadUpTo (readNWork_setSd h _) hk (by rw [readNWork_latched h])
  · exact readNWork_sdReadNEos (readNWork_setSd h _) j
  · exact (readNWork_setSd (readNWork_setSd h _) _).complete _ _ _

theorem readNWork_sdReadNAnswered {k j : Nat} {s u : State} (h : ReadNWork k s u) (hk : k ≤ j) (a : ReadAnswer) :
    ReadNWork k s (sdReadNAnswered j a u) := readNWork_sdReadNGoesOn (h.observe ⟨a, rfl⟩) hk _ a

/-- SD_READN takes answers to its reads alone. -/
theorem readNWork_answered {k : Nat} {s u u' : State} {i : Input} (h : ReadNWork k s u)
    (ha : answered i u = some u') : i.ofRead ∧ ReadNWork k s u' := by
  rcases answered_cases ha with ⟨_, _, hr, -, -⟩ | ⟨_, hr, -, -⟩ | ⟨j, a, hr, rfl, rfl⟩ | ⟨_, hr, -, -⟩ <;>
    rcases h.waits _ hr with ⟨j', hk, hw⟩ | ⟨_, hw⟩ <;> cases hw
  exact ⟨⟨a, rfl⟩, readNWork_sdReadNAnswered h hk a⟩

theorem readNFrame_drive {k : Nat} {s u : State} (h : ReadNWork k s u) : ReadNFrame k s (drive u) :=
  (h.drive fun _ _ _ => readNWork_answered).1

/-- SD_READN is its beginning and the answers that follow. -/
theorem exec_sdReadn (s : State) :
    exec .sdReadn s = .next (drive (requireOpenSd s (sdReadnBegin s.latched.a1.toNat s))) :=
  congrArg Host.Outcome.next (drive_requireOpenSd s _)

/-- The frame of SD_READN from its start, whether it stops after `n` stores or not. -/
theorem readNFrame_sdReadnBegin {s u : State} (h : ReadNWork 0 s u) (n : Nat) :
    ReadNFrame 0 s (drive (requireOpenSd u (sdReadnBegin n u))) := by
  rw [← drive_requireOpenSd]
  refine portFrame_requireOpenSd h ?_
  unfold sdReadnBegin
  split
  · split
    · exact readNFrame_drive (h.complete _ _ _)
    · exact readNFrame_drive (readNWork_sdReadUpTo h (Nat.le_refl 0) (by rw [readNWork_latched h]; omega))
  · rw [drive_takeFault]
    exact h.takeFault _

/-- Where a ready SD_READN with `k` bytes stored can stand. -/
theorem isReadN_cases {k : Nat} {r : Ready} (h : r.isReadN k) :
    (r = .command .sdReadn ∧ k = 0) ∨ (∃ a, r = .readN k a) ∨ r = .storing k := by
  cases r with
  | command i => exact .inl ⟨congrArg Ready.command h.1, h.2⟩
  | readN j a => exact .inr (.inl ⟨a, by rw [show k = j from h]⟩)
  | storing j => exact .inr (.inr (by rw [show k = j from h]))
  | illegal => exact h.elim
  | sink w a => exact h.elim
  | read a => exact h.elim
  | close a => exact h.elim

/-- A ready SD_READN that goes on to its end or its next request goes on for as many stores as it still wants. -/
theorem proceed_of_isReadN {s : State} {r : Ready} {k : Nat} (hr : s.running = some (.ready r)) (hk : r.isReadN k) :
    proceed s = .next (proceedStores (s.latched.a1.toNat - k) s) := by
  rcases isReadN_cases hk with ⟨rfl, rfl⟩ | ⟨a, rfl⟩ | rfl <;> simp only [proceed, proceedStores, hr]
  · exact exec_sdReadn _
  · rfl
  · rfl

/-- The frame of a ready SD_READN that goes on. -/
theorem readNFrame_proceedStores {s : State} {r : Ready} {k : Nat} (n : Nat) (hr : s.running = some (.ready r))
    (hk : r.isReadN k) : ReadNFrame k s (proceedStores n s) := by
  unfold proceedStores
  rw [hr]
  rcases isReadN_cases hk with ⟨rfl, rfl⟩ | ⟨a, rfl⟩ | rfl
  · exact readNFrame_sdReadnBegin (.start s) n
  · exact readNFrame_drive (readNWork_sdReadNGoesOn (.start s) (Nat.le_refl k) n a)
  · exact readNFrame_drive (readNWork_sdReadUpTo (.start s) (Nat.le_refl k) (Nat.le_refl _))

/-- The frame of SD_READN, run from an idle block. -/
theorem readNFrame_exec {s t : State} (hr : s.running = none) (h : exec .sdReadn s = .next t) : ReadNFrame 0 s t := by
  cases (exec_sdReadn s).symm.trans h
  exact readNFrame_sdReadnBegin (.refl (by simp [hr])) _

/-- The frame of an SD_READN that goes on with `k` bytes stored, from the inputs behind the one that lets it. -/
theorem readNFrame_step {s t : State} {k : Nat} {x : Input} {rest : List Input}
    (hx : (s.running = some (.sd (.readN k)) ∧ ∃ a, x = .readAnswer a) ∨
      ((∃ r, s.running = some (.ready r) ∧ r.isReadN k) ∧ (x = .proceed ∨ ∃ n, x = .proceedStores n)))
    (hi : s.inputs = x :: rest) (h : step s = .next t) : ReadNFrame k { s with inputs := rest } t := by
  rcases hx with ⟨hr, a, rfl⟩ | ⟨⟨r, hr, hk⟩, rfl | ⟨n, rfl⟩⟩
  · rw [step_of_answered (.inr (.inl ⟨a, rfl⟩)) hi (s' := sdReadNAnswered k a { s with inputs := rest })
      (by simp only [answered, hr])] at h
    cases h
    have hs : ReadNWork k { s with inputs := rest } { s with inputs := rest } :=
      .refl fun w' hw' => .inl ⟨k, Nat.le_refl k, Option.some.inj (hw'.symm.trans hr)⟩
    exact readNFrame_drive (readNWork_sdReadNAnswered hs (Nat.le_refl k) a)
  · have hp : step s = .next (proceedStores (s.latched.a1.toNat - k) { s with inputs := rest }) :=
      (step_of_input hi).trans (proceed_of_isReadN (s := { s with inputs := rest }) hr hk)
    cases hp.symm.trans h
    exact readNFrame_proceedStores _ hr hk
  · cases (step_of_input hi).symm.trans h
    exact readNFrame_proceedStores n hr hk

/-- What the frame of SD_READN says, field by field. -/
theorem readNFrame_eq {k : Nat} {s t : State} (h : ReadNFrame k s t) :
    t = { s with code := t.code, faulted := t.faulted, res0 := t.res0, res1 := t.res1, busy := t.busy,
                 running := t.running, sd := t.sd, hb := t.hb, log := t.log, inputs := t.inputs } := by
  have hk := congrArg Prod.fst h.kept
  cases s
  cases t
  simp only [State.outsideRange, State.blank, State.mk.injEq] at hk
  simp [hk]

/-- What the frame of SD_READN says of HB. -/
theorem readNFrame_read {k a : Nat} {s t : State} (h : ReadNFrame k s t)
    (ha : a < s.latched.a0.toNat + k ∨ s.latched.a0.toNat + s.latched.a1.toNat ≤ a) :
    Memory.read t.hb a = Memory.read s.hb a := by
  have hk := congrFun (congrArg Prod.snd h.kept) a
  have hout : ¬ (s.latched.a0.toNat + k ≤ a ∧ a < s.latched.a0.toNat + s.latched.a1.toNat) := by omega
  simp only [State.outsideRange, if_neg hout] at hk
  exact hk

/-- Settles O52: the loop's stores stay inside the rest of the range, and every operation keeps the rest of the frame. -/
theorem sdReadnFrame : Obligations.SdReadnFrame := by
  unfold Obligations.SdReadnFrame
  refine ⟨fun s t hr h => ?_, fun s t k x rest hx hi h => ?_⟩
  · have hf := readNFrame_exec hr h
    exact ⟨readNFrame_eq hf, fun a ha => readNFrame_read hf ha, hf.log, hf.inputs⟩
  · have hf := readNFrame_step hx hi h
    have hrest := readNFrame_eq hf
    have hread := fun a => readNFrame_read (a := a) hf
    exact ⟨hrest, hread, hf.log, hf.inputs⟩

end Sys2Proof.Machine
end

section
/-! SUPPORT. The invariant (10_state.md R38, R41; 60_exceptions.md R200, R202): what each operation of a running command
needs for the state it leaves to meet it, and so that every step keeps it. -/

namespace Sys2Proof.Machine

/-! ## A command at work -/

/-- What holds of the fields of a state inside a command's run, whatever the command waited on and whatever its unit
holds. -/
structure AtWork (p : Params) (busy faulted : Bool) (c : StatusCode) (m : Memory) : Prop where
  busy : busy = true
  faulted_eq : faulted = c.isFault
  hb_wf : Memory.wf m = true
  hb_below : Memory.below p.hbSize m = true

/-- A command is at work. An update of what it waits on, of a unit, of the inputs or of the log does not touch this. -/
abbrev State.Working (s : State) : Prop := AtWork s.params s.busy s.faulted s.code s.hb

/-- A command at work with both units at rest, as it is before its first effect. -/
structure State.Resting (s : State) : Prop where
  working : s.Working
  se : s.se.atRest
  sd : s.sd.atRest

/-- A Stream Encoder command at work on its Open unit (R141). -/
structure State.Encoding (s : State) : Prop where
  working : s.Working
  opened : s.se.state = .opened
  sd : s.sd.atRest

/-- A Stream Decoder command at work. -/
structure State.Decoding (s : State) : Prop where
  working : s.Working
  se : s.se.atRest

section
variable {s : State}

theorem State.Inv.working {w : Waiting} (h : s.Inv) (hr : s.running = some w) : s.Working where
  busy := by rw [h.busy_eq, hr]; rfl
  faulted_eq := h.faulted_eq
  hb_wf := h.hb_wf
  hb_below := h.hb_below

theorem State.Inv.running_of_idle (h : s.Inv) (hb : s.busy = false) : s.running = none := by
  have e := h.busy_eq
  rw [hb] at e
  simpa using e.symm

theorem State.Inv.atRest (h : s.Inv) (hr : s.running = none) : s.se.atRest ∧ s.sd.atRest := by
  have hu := h.units
  rwa [State.unitsAgree, hr] at hu

theorem State.Inv.se_agrees {w : SeWait} (h : s.Inv) (hr : s.running = some (.se w)) :
    s.se.state = .opened ∧ w.agrees s.latched.a1.toNat s.se ∧ s.sd.atRest := by
  have hu := h.units
  rwa [State.unitsAgree, hr] at hu

theorem State.Inv.sd_agrees {w : SdWait} (h : s.Inv) (hr : s.running = some (.sd w)) : w.agrees s ∧ s.se.atRest := by
  have hu := h.units
  rwa [State.unitsAgree, hr] at hu

theorem State.Inv.ready_agrees {r : Ready} (h : s.Inv) (hr : s.running = some (.ready r)) : r.agrees s := by
  have hu := h.units
  rwa [State.unitsAgree, hr] at hu

theorem State.Encoding.setSe (h : s.Encoding) {u : SeUnit} (hu : u.state = .opened) :
    ({ s with se := u } : State).Encoding := ⟨h.working, hu, h.sd⟩

theorem State.Decoding.setSd (h : s.Decoding) (u : SdUnit) : ({ s with sd := u } : State).Decoding :=
  ⟨h.working, h.se⟩

theorem State.Resting.decoding (h : s.Resting) : s.Decoding := ⟨h.working, h.se⟩

theorem State.Resting.encoding (h : s.Resting) (ho : s.se.state = .opened) : s.Encoding := ⟨h.working, ho, h.sd⟩

/-! ## Where a command ends or waits -/

theorem inv_complete {c : StatusCode} (h : s.Working) (hse : s.se.atRest) (hsd : s.sd.atRest)
    (hc : c.isFault = false) (x y : Word) : (complete c x y s).Inv where
  busy_eq := by simp
  faulted_eq := by
    rw [complete_faulted, complete_code]
    cases hf : s.faulted with
    | true => rw [if_pos rfl, ← h.faulted_eq, hf]
    | false => rw [if_neg Bool.false_ne_true, hc]
  hb_wf := by rw [complete_hb]; exact h.hb_wf
  hb_below := by rw [complete_hb, complete_params]; exact h.hb_below
  units := by
    rw [State.unitsAgree, complete_running, complete_se, complete_sd]
    exact ⟨hse, hsd⟩

theorem inv_takeFault {c : StatusCode} (h : s.Resting) (hc : c.isFault = true) : (takeFault c s).Inv where
  busy_eq := rfl
  faulted_eq := by
    rw [takeFault_faulted, takeFault_code]
    cases hf : s.faulted with
    | true => rw [if_pos rfl, ← h.working.faulted_eq, hf]
    | false => rw [if_neg Bool.false_ne_true, hc]
  hb_wf := h.working.hb_wf
  hb_below := h.working.hb_below
  units := ⟨h.se, h.sd⟩

theorem inv_ask {w : Waiting} (h : s.Working) (hu : (ask w s).unitsAgree) : (ask w s).Inv :=
  ⟨h.busy, h.faulted_eq, h.hb_wf, h.hb_below, hu⟩

theorem inv_hold {r : Ready} (h : s.Working) (hu : (hold r s).unitsAgree) : (hold r s).Inv := inv_ask h hu

theorem inv_ask_se (h : s.Encoding) {w : SeWait} (hw : w.agrees s.latched.a1.toNat s.se) : (ask (.se w) s).Inv :=
  inv_ask h.working ⟨h.opened, hw, h.sd⟩

/-- A Stream Encoder command ends with its unit at rest. -/
theorem inv_endSe {c : StatusCode} {u : SeUnit} (h : s.Encoding) (hu : u.atRest) (hc : c.isFault = false) (x y : Word) :
    (complete c x y { s with se := u }).Inv := inv_complete (s := { s with se := u }) h.working hu h.sd hc x y

/-- A Stream Decoder command ends with its unit at rest. -/
theorem inv_endSd {c : StatusCode} {u : SdUnit} (h : s.Decoding) (hu : u.atRest) (hc : c.isFault = false) (x y : Word) :
    (complete c x y { s with sd := u }).Inv := inv_complete (s := { s with sd := u }) h.working h.se hu hc x y

/-- An encoder whose buffer and line are cleared is at rest (R140). -/
theorem SeUnit.atRest_of_cleared {u : SeUnit} (hc : u.count = 0) (hl : u.line = 0) : u.atRest := by
  intro _
  rw [hc, lineAtRest, hl]
  decide

/-- So is one that is not Open. -/
theorem SeUnit.atRest_of_not_open {u : SeUnit} (h : u.state ≠ .opened) : u.atRest := fun ho => absurd ho h

/-- A decoder that is not bound is at rest. -/
theorem SdUnit.atRest_of_not_bound {u : SdUnit} (h : ¬ u.bound) : u.atRest :=
  ⟨fun hb => absurd hb h, fun hr => absurd (.inr (.inl hr)) h⟩

/-- An error ends a unit command with its unit Failed, which is at rest (R203). -/
theorem inv_raiseSe {c : StatusCode} (h : s.Encoding) (hc : c.isFault = false) (x y : Word) : (raiseSe c x y s).Inv :=
  inv_endSe h (SeUnit.atRest_of_not_open (u := { s.se with state := .failed }) (by simp)) hc x y

theorem inv_raiseSd {c : StatusCode} (h : s.Decoding) (hc : c.isFault = false) (x y : Word) : (raiseSd c x y s).Inv :=
  inv_endSd h (SdUnit.atRest_of_not_bound (u := { s.sd with phase := .failed }) (by simp)) hc x y

/-! ## Stream Encoder commands (R142–R147) -/

/-- The first symbol of a full group is asked for. -/
theorem inv_seEmitGroup {m : SeMore} (h : s.Encoding) (hc : s.se.count = 3) (hl : lineAtRest s.se)
    (hm : m.fits s.latched.a1.toNat) : (seEmitGroup m s).Inv :=
  inv_ask_se h ⟨hc, hl, Nat.le_refl 3, hm⟩

/-- SE_WRITEN's loop keeps count of its bytes and its line. -/
theorem inv_seWriteMany {bytes : List Byte} {k : Nat} (h : s.Encoding) (hc : s.se.count ≠ 3) (hl : lineAtRest s.se)
    (hk : k + bytes.length = s.latched.a1.toNat) : (seWriteMany k bytes s).Inv := by
  induction bytes generalizing k s with
  | nil => exact inv_complete h.working (fun _ => ⟨hc, hl⟩) h.sd rfl _ _
  | cons b bytes ih =>
    have hk' : k + 1 + bytes.length = s.latched.a1.toNat := by rw [← hk, List.length_cons]; omega
    unfold seWriteMany
    split
    · exact inv_seEmitGroup (h.setSe h.opened) ‹_› hl hk'
    · exact ih (h.setSe h.opened) ‹_› hl hk'

theorem inv_seWriteOne (h : s.Encoding) (hl : lineAtRest s.se) (b : Byte) : (seWriteOne b s).Inv := by
  unfold seWriteOne
  split
  · exact inv_seEmitGroup (h.setSe h.opened) ‹_› hl trivial
  · exact inv_endSe h (u := (sePush b s).se) (fun _ => ⟨‹_›, hl⟩) rfl _ _

/-- The group is out, and the buffer empty. -/
theorem inv_seGroupDone {m : SeMore} (h : s.Encoding) (hl : lineAtRest s.se) (hm : m.fits s.latched.a1.toNat) :
    (seGroupDone m s).Inv := by
  cases m with
  | one => exact inv_endSe h (u := { s.se with count := 0 }) (fun _ => ⟨show (0 : BitVec 2) ≠ 3 by decide, hl⟩) rfl _ _
  | many k rest => exact inv_seWriteMany (h.setSe h.opened) (show (0 : BitVec 2) ≠ 3 by decide) hl hm

/-- The line counter goes up by 4 to 76 or stays a rest value (R142). -/
theorem inv_seSymbolsSent {m : SeMore} (h : s.Encoding) (hc : s.se.count = 3) (hl : lineAtRest s.se)
    (hm : m.fits s.latched.a1.toNat) : (seSymbolsSent m s).Inv := by
  obtain ⟨h4, h72⟩ := hl
  have hnext : (s.se.line + 4).toNat = s.se.line.toNat + 4 := by
    rw [BitVec.toNat_add]
    exact Nat.mod_eq_of_lt (show s.se.line.toNat + 4 < 2 ^ 7 by omega)
  unfold seSymbolsSent
  split
  · next h76 =>
    have hline : s.se.line + 4 = 76 := BitVec.eq_of_toNat_eq h76
    exact inv_ask_se (s := { s with se := { s.se with line := s.se.line + 4 } }) (h.setSe h.opened) ⟨hc, hline, hm⟩
  · next h76 =>
    unfold maxLineLength at h76
    have hrest : (s.se.line + 4).toNat % 4 = 0 ∧ (s.se.line + 4).toNat ≤ 72 := by omega
    exact inv_seGroupDone (h.setSe h.opened) hrest hm

theorem inv_seFlushBody (h : s.Encoding) (hc : s.se.count ≠ 3) (hl : lineAtRest s.se) (closing : Bool) :
    (seFlushBody closing s).Inv := by
  unfold seFlushBody
  split
  · exact inv_ask_se h ⟨hc, hl, Nat.le_refl 3⟩
  · exact inv_ask_se h ⟨hc, hl⟩

theorem inv_seAcked {w : SeWait} (h : s.Encoding) (hw : w.agrees s.latched.a1.toNat s.se) : (seAcked w s).Inv := by
  unfold seAcked
  split
  · next b rest m =>
    obtain ⟨hc, hl, hlen, hm⟩ := hw
    exact inv_ask_se h ⟨hc, hl, Nat.le_of_succ_le hlen, hm⟩
  · obtain ⟨hc, hl, -, hm⟩ := hw
    exact inv_seSymbolsSent h hc hl hm
  · obtain ⟨-, -, hm⟩ := hw
    exact inv_seGroupDone (h.setSe h.opened) (show lineAtRest { s.se with line := 0 } from ⟨rfl, Nat.zero_le _⟩) hm
  · obtain ⟨hc, hl, hlen⟩ := hw
    exact inv_ask_se h ⟨hc, hl, Nat.le_of_succ_le hlen⟩
  · obtain ⟨hc, hl, -⟩ := hw
    exact inv_ask_se h ⟨hc, hl⟩
  · exact inv_ask_se h hw
  · exact inv_complete h.working (fun _ => hw) h.sd rfl _ _
  · exact inv_endSe h (SeUnit.atRest_of_not_open (u := { s.se with state := .closed }) (by simp)) rfl _ _

theorem inv_seGoesOn {w : SeWait} (h : s.Encoding) (hw : w.agrees s.latched.a1.toNat s.se) (a : Ack) :
    (seGoesOn w a s).Inv := by
  cases a with
  | ack => exact inv_seAcked h hw
  | fail e => exact inv_raiseSe h rfl _ _

/-! ## Stream Decoder commands (R163–R168) -/

/-- A unit that waits for a symbol of a quartet (R164). -/
def SdUnit.filling (u : SdUnit) : Prop := u.phase = .empty ∧ u.count.toNat ≤ 3

/-- What one byte leaves in a unit that fills its quartet, by what the loop does next. -/
def FillStep.leaves (u : SdUnit) : FillStep → Prop
  | .more => u.filling
  | .filled => u.phase = .ready ∧ u.atRest
  | .eos => u.bound ∧ u.atRest
  | .error c _ _ => c.isFault = false

theorem sdByte_leaves {u : SdUnit} (h : u.filling) (raw : Byte) : (sdByte raw u).1.leaves (sdByte raw u).2 := by
  obtain ⟨hp, hc⟩ := h
  rcases sdByte_cases raw u with ⟨-, e⟩ | ⟨-, e⟩ | ⟨c, -, h3, e⟩ | ⟨_, -, -, -, e⟩ | ⟨c, bytes, n, -, -, hq, e⟩ <;>
    rw [e]
  · rfl
  · exact ⟨hp, hc⟩
  · have h3' : u.count.toNat ≠ 3 := fun e => h3 (BitVec.eq_of_toNat_eq e)
    have hcount : (u.count + 1).toNat ≤ 3 := by
      rw [BitVec.toNat_add]
      exact Nat.le_trans (Nat.mod_le _ _) (show u.count.toNat + 1 ≤ 3 by omega)
    exact ⟨hp, hcount⟩
  · rfl
  · have hpos : (0 : BitVec 2).toNat < n.toNat := (decodeQuartet_count hq).2
    exact ⟨rfl, fun _ => rfl, fun _ => hpos⟩

theorem sdFillStep_leaves {u : SdUnit} (h : u.filling) (p : Params) (a : ReadAnswer) :
    (sdFillStep p a u).1.leaves (sdFillStep p a u).2 := by
  rcases sdFillStep_cases p a u with ⟨raw, -, e⟩ | ⟨-, hc, e⟩ | ⟨-, -, e⟩ | ⟨_, -, -, e⟩ | ⟨_, -, -, e⟩ <;> rw [e]
  · exact sdByte_leaves h raw
  · exact ⟨.inr (.inr rfl), fun _ => hc, fun hr => by cases hr⟩
  all_goals rfl

/-- A bound unit that is neither Exhausted nor Empty has a byte to serve. -/
theorem ready_of_bound {u : SdUnit} (h : u.bound) (h1 : u.phase ≠ .exhausted) (h2 : u.phase ≠ .empty) :
    u.phase = .ready := by
  rcases h with h | h | h
  · exact absurd h h2
  · exact h
  · exact absurd h h1

/-- Serving a byte of a Ready unit leaves it bound and at rest (R163). -/
theorem sdServe_leaves {u : SdUnit} (h : u.atRest) (hp : u.phase = .ready) :
    (sdServe u).2.bound ∧ (sdServe u).2.atRest := by
  obtain ⟨hcount, hpos⟩ := h
  have e := sdServe_unit (hpos hp) hp
  have hc : u.count = 0 := hcount (.inr (.inl hp))
  by_cases hlast : u.pos.toNat + 1 < u.nsig.toNat
  · rw [if_pos hlast] at e
    rw [e]
    exact ⟨.inr (.inl rfl), fun _ => hc, fun _ => by rw [toNat_pos_succ (hpos hp)]; exact hlast⟩
  · rw [if_neg hlast] at e
    rw [e]
    cases u.padded
    · exact ⟨.inl rfl, fun _ => hc, fun hr => by cases hr⟩
    · exact ⟨.inr (.inr rfl), fun _ => hc, fun hr => by cases hr⟩

theorem inv_sdReadServe (h : s.Decoding) (hsd : s.sd.atRest) (hp : s.sd.phase = .ready) : (sdReadServe s).Inv :=
  inv_endSd h (sdServe_leaves hsd hp).2 rfl _ _

theorem inv_sdReadNEos (h : s.Resting) (k : Nat) : (sdReadNEos k s).Inv := by
  unfold sdReadNEos
  split <;> exact inv_complete h.working h.se h.sd rfl _ _

/-- The range of SD_READN lies in HB (R61). -/
def State.rangeFits (s : State) : Prop := s.latched.a0.toNat + s.latched.a1.toNat ≤ s.params.hbSize

/-- A store inside an admitted range. -/
theorem decoding_sdStore {k : Nat} (h : s.Decoding) (hk : k < s.latched.a1.toNat) (hr : s.rangeFits) :
    (sdStore k s).Decoding where
  working :=
    { busy := h.working.busy
      faulted_eq := h.working.faulted_eq
      hb_wf := wf_write _ _ _ h.working.hb_wf
      hb_below := below_write _ _ _ _ h.working.hb_below
        (show s.latched.a0.toNat + k < s.params.hbSize by unfold State.rangeFits at hr; omega) }
  se := h.se

/-- SD_READN's loop, at rest before each byte. -/
theorem inv_sdReadUpTo {n left k : Nat} (h : s.Decoding) (hb : s.sd.bound) (hsd : s.sd.atRest)
    (hk : k + left = s.latched.a1.toNat) (hr : s.rangeFits) : (sdReadUpTo n left k s).Inv := by
  induction left generalizing n k s with
  | zero => rw [sdReadUpTo_zero]; exact inv_complete h.working h.se hsd rfl _ _
  | succ left ih =>
    have hlt : k < s.latched.a1.toNat := by omega
    cases n with
    | zero => rw [sdReadUpTo_stop]; exact inv_hold h.working ⟨hb, hsd, hlt, hr, h.se⟩
    | succ n =>
      by_cases h1 : s.sd.phase = .exhausted
      · rw [sdReadUpTo_of_exhausted _ _ _ h1]
        exact inv_sdReadNEos ⟨h.working, h.se, hsd⟩ k
      by_cases h2 : s.sd.phase = .empty
      · rw [sdReadUpTo_of_empty _ _ _ h2]
        have hcount : s.sd.count.toNat ≤ 3 := by rw [hsd.1 hb]; decide
        exact inv_ask h.working ⟨⟨h2, hcount, hlt, hr⟩, h.se⟩
      · rw [sdReadUpTo_store _ _ _ h1 h2]
        obtain ⟨hb', hsd'⟩ := sdServe_leaves hsd (ready_of_bound hb h1 h2)
        exact ih (decoding_sdStore h hlt hr) hb' hsd' (by rw [sdStore_latched]; omega) hr

theorem inv_sdReadOn {r : FillStep × SdUnit} (h : s.Decoding) (hr : r.1.leaves r.2) : (sdReadOn r s).Inv := by
  obtain ⟨step, u⟩ := r
  cases step with
  | more => exact inv_ask (s := { s with sd := u }) h.working ⟨hr, h.se⟩
  | filled => exact inv_sdReadServe (h.setSd u) hr.2 hr.1
  | eos => exact inv_endSd h hr.2 rfl _ _
  | error c x y => exact inv_raiseSd (h.setSd u) hr _ _

theorem inv_sdReadGoesOn (h : s.Decoding) (hf : s.sd.filling) (a : ReadAnswer) : (sdReadGoesOn a s).Inv :=
  inv_sdReadOn h (sdFillStep_leaves hf s.params a)

theorem inv_sdReadNOn {n k : Nat} {r : FillStep × SdUnit} (h : s.Decoding) (hr : r.1.leaves r.2)
    (hk : k < s.latched.a1.toNat) (hfits : s.rangeFits) : (sdReadNOn n k r s).Inv := by
  obtain ⟨step, u⟩ := r
  cases step with
  | more => exact inv_ask (s := { s with sd := u }) h.working ⟨⟨hr.1, hr.2, hk, hfits⟩, h.se⟩
  | filled => exact inv_sdReadUpTo (h.setSd u) (.inr (.inl hr.1)) hr.2 (Nat.add_sub_cancel' (Nat.le_of_lt hk)) hfits
  | eos => exact inv_sdReadNEos (s := { s with sd := u }) ⟨h.working, h.se, hr.2⟩ k
  | error c x y => exact inv_raiseSd (h.setSd u) hr _ _

theorem inv_sdReadNGoesOn {k : Nat} (h : s.Decoding) (hf : s.sd.filling) (hk : k < s.latched.a1.toNat)
    (hfits : s.rangeFits) (n : Nat) (a : ReadAnswer) : (sdReadNGoesOn n k a s).Inv :=
  inv_sdReadNOn h (sdFillStep_leaves hf s.params a) hk hfits

theorem inv_sdCloseGoesOn (h : s.Decoding) (a : Ack) : (sdCloseGoesOn a s).Inv := by
  cases a with
  | ack => exact inv_endSd h (SdUnit.atRest_of_not_bound (u := { s.sd with phase := .closed }) (by simp)) rfl _ _
  | fail e => exact inv_raiseSd h rfl _ _

/-! ## Answers -/

theorem inv_setInputs (h : s.Inv) (is : List Input) : ({ s with inputs := is } : State).Inv :=
  ⟨h.busy_eq, h.faulted_eq, h.hb_wf, h.hb_below, h.units⟩

/-- The observed exchange is no concern of the invariant. -/
theorem State.Encoding.observe (h : s.Encoding) (e : Exchange) : (observe e s).Encoding :=
  ⟨h.working, h.opened, h.sd⟩

theorem State.Decoding.observe (h : s.Decoding) (e : Exchange) : (observe e s).Decoding := ⟨h.working, h.se⟩

theorem inv_answered {s' : State} {i : Input} (h : s.Inv) (ha : answered i s = some s') : s'.Inv := by
  rcases answered_cases ha with ⟨w, a, hr, -, rfl⟩ | ⟨a, hr, -, rfl⟩ | ⟨k, a, hr, -, rfl⟩ | ⟨a, hr, -, rfl⟩
  · obtain ⟨ho, hw, hsd⟩ := h.se_agrees hr
    exact inv_seGoesOn (State.Encoding.observe ⟨h.working hr, ho, hsd⟩ _) hw a
  · obtain ⟨hf, hse⟩ := h.sd_agrees hr
    exact inv_sdReadGoesOn (State.Decoding.observe ⟨h.working hr, hse⟩ _) hf a
  · obtain ⟨⟨hp, hc, hk, hfits⟩, hse⟩ := h.sd_agrees hr
    exact inv_sdReadNGoesOn (State.Decoding.observe ⟨h.working hr, hse⟩ _) ⟨hp, hc⟩ hk hfits _ a
  · obtain ⟨-, hse⟩ := h.sd_agrees hr
    exact inv_sdCloseGoesOn (State.Decoding.observe ⟨h.working hr, hse⟩ _) a

theorem inv_drive (h : s.Inv) : (drive s).Inv :=
  driveOn_induction (P := State.Inv) (fun _ is h => inv_setInputs h is) (fun _ _ _ h ha => inv_answered h ha)
    s.inputs s h

/-! ## Commands from their start -/

theorem inv_requireOpenSe {body : State} (h : s.Resting) (hb : s.se.state = .opened → body.Inv) :
    (requireOpenSe s body).Inv := by
  rcases requireOpenSe_cases s body with ⟨ho, e⟩ | ⟨-, e⟩ | ⟨-, e⟩ | ⟨-, e⟩ <;> rw [e]
  · exact hb ho
  all_goals exact inv_takeFault h rfl

theorem inv_requireOpenSd {body : State} (h : s.Resting) (hb : s.sd.bound → body.Inv) : (requireOpenSd s body).Inv := by
  rcases requireOpenSd_cases s body with ⟨hp, e⟩ | ⟨-, e⟩ | ⟨-, e⟩ | ⟨-, e⟩ <;> rw [e]
  · exact hb hp
  all_goals exact inv_takeFault h rfl

/-- DECQ ends in OK or ERR_MALFORMED (R106). -/
theorem decqResult_code (r0 r1 r2 r3 : Byte) : (decqResult r0 r1 r2 r3).1.isFault = false := by
  unfold decqResult
  split
  · split <;> rfl
  all_goals rfl

/-- The bulk decoder's errors are no faults (R124). -/
theorem bulkDecodeFrom_code {p : TailPolicy} {bs : List Byte} {i : Nat} {acc : List Sym} {out : List Byte}
    {c : StatusCode} {x y : Word} (h : bulkDecodeFrom p i acc out bs = .err c x y) : c.isFault = false := by
  induction bs generalizing i acc out with
  | nil =>
    unfold bulkDecodeFrom bulkTail at h
    split at h
    · cases h
    · split at h <;> cases h
      rfl
  | cons b bs ih =>
    unfold bulkDecodeFrom at h
    split at h
    · cases h; rfl
    · exact ih h
    · split at h
      · split at h
        · cases h; rfl
        · split at h
          · cases h
          · exact ih h
      · exact ih h

theorem inv_bulkFinish (h : s.Resting) (hfits : s.latched.a2.toNat + s.latched.a3.toNat ≤ s.params.hbSize)
    (out : List Byte) : (bulkFinish out s).Inv := by
  unfold bulkFinish
  split
  · next hlen =>
    have hend : s.latched.a2.toNat + out.length ≤ s.params.hbSize := by omega
    exact inv_complete (s := { s with hb := Memory.writeRange s.hb s.latched.a2.toNat out })
      ⟨h.working.busy, h.working.faulted_eq, wf_writeRange _ _ _ h.working.hb_wf,
        below_writeRange _ _ _ _ h.working.hb_below hend⟩ h.se h.sd rfl _ _
  · exact inv_takeFault h rfl

theorem inv_sdReadnBegin (h : s.Resting) (hb : s.sd.bound) (n : Nat) : (sdReadnBegin n s).Inv := by
  unfold sdReadnBegin
  split
  · next hfits =>
    split
    · exact inv_complete h.working h.se h.sd rfl _ _
    · exact inv_sdReadUpTo h.decoding hb h.sd (Nat.zero_add _) (by simpa [State.rangeFits, admitted] using hfits)
  · exact inv_takeFault h rfl

/-- Every command, from its start. -/
theorem inv_exec {i : Instr} {t : State} (h : s.Resting) (he : exec i s = .next t) : t.Inv := by
  cases i with
  | encgrp cnt =>
    simp only [exec, execEncgrp] at he
    split at he <;> cases he
    · exact inv_takeFault h rfl
    · exact inv_complete h.working h.se h.sd rfl _ _
  | decq =>
    cases he
    exact inv_complete h.working h.se h.sd (decqResult_code _ _ _ _) _ _
  | benc =>
    simp only [exec, execBenc] at he
    split at he <;> cases he
    · next hr => exact inv_bulkFinish h ((bulkRangesAdmitted_iff s).mp hr).2 _
    · exact inv_takeFault h rfl
  | bdec =>
    simp only [exec, execBdec] at he
    split at he
    · next hr =>
      split at he <;> cases he
      · next hd => exact inv_complete h.working h.se h.sd (bulkDecodeFrom_code hd) _ _
      · exact inv_bulkFinish h ((bulkRangesAdmitted_iff s).mp hr).2 _
    · cases he
      exact inv_takeFault h rfl
  | openSink =>
    simp only [exec, execOpenSink] at he
    split at he <;> cases he
    · exact inv_takeFault h rfl
    · exact inv_complete (s := { s with se := { state := .opened, buf := ⟨0, 0, 0⟩, count := 0, line := 0 } })
        h.working (SeUnit.atRest_of_cleared rfl rfl) h.sd rfl _ _
  | seWrite b =>
    cases he
    exact inv_requireOpenSe h fun ho => inv_drive (inv_seWriteOne (h.encoding ho) (h.se ho).2 b)
  | seWriten =>
    cases he
    refine inv_requireOpenSe h fun ho => ?_
    unfold seWritenBody
    split
    · exact inv_drive (inv_seWriteMany (h.encoding ho) (h.se ho).1 (h.se ho).2 (by simp))
    · exact inv_takeFault h rfl
  | seFlush =>
    cases he
    exact inv_requireOpenSe h fun ho => inv_drive (inv_seFlushBody (h.encoding ho) (h.se ho).1 (h.se ho).2 _)
  | seClose =>
    cases he
    exact inv_requireOpenSe h fun ho => inv_drive (inv_seFlushBody (h.encoding ho) (h.se ho).1 (h.se ho).2 _)
  | openSource =>
    simp only [exec, execOpenSource] at he
    split at he <;> cases he
    · exact inv_takeFault h rfl
    · exact inv_takeFault h rfl
    · exact inv_takeFault h rfl
    all_goals exact inv_endSd h.decoding (u := sdOpened) (by decide) rfl _ _
  | sdRead =>
    cases he
    refine inv_requireOpenSd h fun hb => ?_
    unfold sdReadBody
    split
    · exact inv_complete h.working h.se h.sd rfl _ _
    · split
      · next hp =>
        have hcount : s.sd.count.toNat ≤ 3 := by rw [h.sd.1 hb]; decide
        exact inv_drive (inv_ask h.working ⟨⟨hp, hcount⟩, h.se⟩)
      · exact inv_sdReadServe h.decoding h.sd (ready_of_bound hb ‹_› ‹_›)
  | sdReadn =>
    cases (exec_sdReadn s).symm.trans he
    exact inv_drive (inv_requireOpenSd h fun hb => inv_sdReadnBegin h hb _)
  | sdClose =>
    cases he
    refine inv_requireOpenSd h fun hb => ?_
    unfold sdCloseBody
    rw [if_pos (h.sd.1 hb)]
    exact inv_drive (inv_ask h.working ⟨⟨hb, h.sd⟩, h.se⟩)

/-! ## The inputs -/

/-- An idle block on which BUSY is set, as a CMD write finds it (R202). -/
theorem State.Inv.resting (h : s.Inv) (hb : s.busy = false) : ({ s with busy := true } : State).Resting := by
  obtain ⟨hse, hsd⟩ := h.atRest (h.running_of_idle hb)
  exact ⟨⟨rfl, h.faulted_eq, h.hb_wf, h.hb_below⟩, hse, hsd⟩

/-- The latched operands are no concern of a command's start. -/
theorem State.Inv.resting_latch (h : s.Inv) (hb : s.busy = false) : (latch s).Resting := by
  obtain ⟨hw, hse, hsd⟩ := h.resting hb
  exact ⟨hw, hse, hsd⟩

/-- FAULT_CMD_BUSY leaves what runs alone (R205). -/
theorem inv_takeCmdBusy (h : s.Inv) : (takeCmdBusy s).Inv := ⟨h.busy_eq, rfl, h.hb_wf, h.hb_below, h.units⟩

theorem inv_cmdWrite {w : Word} {t : State} (h : s.Inv) (ht : cmdWrite w s = .next t) : t.Inv := by
  unfold cmdWrite at ht
  split at ht
  · cases ht; exact h
  split at ht
  · cases ht; exact inv_takeCmdBusy h
  next hb =>
  have hidle : s.busy = false := Bool.eq_false_of_not_eq_true hb
  split at ht
  · cases ht; exact inv_takeFault (s := { s with busy := true }) (h.resting hidle) rfl
  · exact inv_exec (h.resting_latch hidle) ht

theorem inv_cmdWriteSlowly (h : s.Inv) (w : Word) : (cmdWriteSlowly w s).Inv := by
  unfold cmdWriteSlowly
  split
  · exact h
  split
  · exact inv_takeCmdBusy h
  next hb =>
  have hidle : s.busy = false := Bool.eq_false_of_not_eq_true hb
  split
  · obtain ⟨hw, hse, hsd⟩ := h.resting hidle
    exact inv_hold hw ⟨hse, hsd⟩
  · obtain ⟨hw, hse, hsd⟩ := h.resting_latch hidle
    exact inv_hold hw ⟨hse, hsd⟩

theorem inv_setArg (h : s.Inv) (g : Args) : ({ s with arg := g } : State).Inv :=
  ⟨h.busy_eq, h.faulted_eq, h.hb_wf, h.hb_below, h.units⟩

theorem inv_setRead (h : s.Inv) (w : Word) (n : Nat) : ({ s with readData := w, draws := n } : State).Inv :=
  ⟨h.busy_eq, h.faulted_eq, h.hb_wf, h.hb_below, h.units⟩

theorem inv_writeReg {r : BitVec 6} {w : Word} {t : State} (h : s.Inv) (ht : writeReg r w s = .next t) : t.Inv := by
  unfold writeReg at ht
  split at ht
  · exact inv_cmdWrite h ht
  · cases ht; exact inv_setArg h _
  · cases ht; exact inv_setArg h _
  · cases ht; exact inv_setArg h _
  · cases ht; exact inv_setArg h _
  all_goals cases ht; exact h

theorem inv_readReg (h : s.Inv) (r : BitVec 6) : (readReg r s).Inv := by
  unfold readReg
  split
  · exact inv_setRead h _ s.draws
  · split
    · exact inv_setRead h _ _
    · exact inv_setRead h _ s.draws

theorem inv_hostWriteHb {a : Word} {b : Byte} {t : State} (h : s.Inv) (ht : hostWriteHb a b s = .next t) : t.Inv := by
  unfold hostWriteHb at ht
  split at ht
  · cases ht
  split at ht <;> cases ht
  exact ⟨h.busy_eq, h.faulted_eq, wf_write _ _ _ h.hb_wf, below_write _ _ _ _ h.hb_below (Nat.lt_of_not_le ‹_›),
    h.units⟩

theorem inv_hostReadHb {a : Word} {t : State} (h : s.Inv) (ht : hostReadHb a s = .next t) : t.Inv := by
  unfold hostReadHb at ht
  split at ht
  · cases ht
  split at ht <;> cases ht
  exact inv_setRead h _ s.draws

theorem inv_portAnswer (h : s.Inv) (i : Input) : (portAnswer i s).Inv := by
  unfold portAnswer
  split
  · next ha => exact inv_drive (inv_answered h ha)
  · exact h

/-- A command whose answer came, and that takes its time, stands as it stood when it waited. -/
theorem inv_arriveSlowly (h : s.Inv) (m : Arrival) : (arriveSlowly m s).Inv := by
  unfold arriveSlowly
  split
  · exact inv_cmdWriteSlowly h _
  · split
    · next hr => exact inv_hold (h.working hr) (h.se_agrees hr)
    · exact h
  · split
    · next hr => exact inv_hold (h.working hr) (h.sd_agrees hr)
    · next hr => exact inv_hold (h.working hr) (h.sd_agrees hr)
    · exact h
  · split
    · next hr => exact inv_hold (h.working hr) (h.sd_agrees hr)
    · exact h

/-- A ready command goes on. -/
theorem inv_goOn {r : Ready} {t : State} (hw : s.Working) (hr : r.agrees s) (ht : goOn r s = .next t) : t.Inv := by
  cases r with
  | command i =>
    obtain ⟨hse, hsd⟩ := hr
    exact inv_exec ⟨hw, hse, hsd⟩ ht
  | illegal =>
    obtain ⟨hse, hsd⟩ := hr
    cases ht
    exact inv_takeFault ⟨hw, hse, hsd⟩ rfl
  | sink w a =>
    obtain ⟨ho, hagrees, hsd⟩ := hr
    cases ht
    exact inv_drive (inv_seGoesOn ⟨hw, ho, hsd⟩ hagrees a)
  | read a =>
    obtain ⟨hf, hse⟩ := hr
    cases ht
    exact inv_drive (inv_sdReadGoesOn ⟨hw, hse⟩ hf a)
  | readN k a =>
    obtain ⟨⟨hp, hc, hk, hfits⟩, hse⟩ := hr
    cases ht
    exact inv_drive (inv_sdReadNGoesOn ⟨hw, hse⟩ ⟨hp, hc⟩ hk hfits _ a)
  | storing k =>
    obtain ⟨hb, hsd, hk, hfits, hse⟩ := hr
    cases ht
    exact inv_drive (inv_sdReadUpTo ⟨hw, hse⟩ hb hsd (Nat.add_sub_cancel' (Nat.le_of_lt hk)) hfits)
  | close a =>
    obtain ⟨-, hse⟩ := hr
    cases ht
    exact inv_drive (inv_sdCloseGoesOn ⟨hw, hse⟩ a)

theorem inv_proceed {t : State} (h : s.Inv) (ht : proceed s = .next t) : t.Inv := by
  unfold proceed at ht
  split at ht
  · next r hr => exact inv_goOn (s := { s with running := none }) (h.working hr) (h.ready_agrees hr) ht
  · cases ht; exact h

theorem inv_proceedStores (h : s.Inv) (n : Nat) : (proceedStores n s).Inv := by
  unfold proceedStores
  split
  · next hr =>
    obtain ⟨hse, hsd⟩ := h.ready_agrees hr
    have hresting : ({ s with running := none } : State).Resting := ⟨h.working hr, hse, hsd⟩
    exact inv_drive (inv_requireOpenSd hresting fun hb => inv_sdReadnBegin hresting hb n)
  · next k a hr =>
    obtain ⟨⟨hp, hc, hk, hfits⟩, hse⟩ := h.ready_agrees hr
    exact inv_drive (inv_sdReadNGoesOn (s := { s with running := none }) ⟨h.working hr, hse⟩ ⟨hp, hc⟩ hk hfits n a)
  · next k hr =>
    obtain ⟨hb, hsd, hk, hfits, hse⟩ := h.ready_agrees hr
    exact inv_drive (inv_sdReadUpTo (s := { s with running := none }) ⟨h.working hr, hse⟩ hb hsd
      (Nat.add_sub_cancel' (Nat.le_of_lt hk)) hfits)
  · exact h

/-- Both units are at rest after reset (R46). -/
theorem afterReset_atRest : SeUnit.afterReset.atRest ∧ SdUnit.afterReset.atRest := by decide

theorem inv_resetBlock (h : s.Inv) : (resetBlock s).Inv := ⟨rfl, rfl, h.hb_wf, h.hb_below, afterReset_atRest⟩

theorem inv_takeInput {i : Input} {t : State} (h : s.Inv) (ht : takeInput i s = .next t) : t.Inv := by
  cases i with
  | reset => cases ht; exact inv_resetBlock h
  | regWrite r w => exact inv_writeReg h ht
  | regRead r => cases ht; exact inv_readReg h r
  | hbWrite a b => exact inv_hostWriteHb h ht
  | hbRead a => exact inv_hostReadHb h ht
  | sinkAnswer a => cases ht; exact inv_portAnswer h _
  | readAnswer a => cases ht; exact inv_portAnswer h _
  | closeAnswer a => cases ht; exact inv_portAnswer h _
  | lateAnswer => cases ht; exact h
  | slowly m => cases ht; exact inv_arriveSlowly h m
  | proceed => exact inv_proceed h ht
  | proceedStores n => cases ht; exact inv_proceedStores h n

end

/-- Settles O16: what each input does keeps the invariant, and a step without an input is the end of a command's time. -/
theorem stepKeepsTheInvariant : Obligations.StepKeepsTheInvariant := by
  unfold Obligations.StepKeepsTheInvariant
  intro s t h hs
  cases hi : s.inputs with
  | nil => exact inv_proceed h ((step_of_no_input hi).symm.trans hs)
  | cons i rest => exact inv_takeInput (inv_setInputs h rest) ((step_of_input hi).symm.trans hs)

/-- Settles O15: both units are at rest after reset, and nothing is written in HB. -/
theorem resetMeetsTheInvariant : Obligations.ResetMeetsTheInvariant := by
  unfold Obligations.ResetMeetsTheInvariant
  exact fun p => ⟨rfl, rfl, reset_memory_wf, reset_memory_below p.hbSize, afterReset_atRest⟩

end Sys2Proof.Machine
end

section
/-! SUPPORT. The registers as the host sees them (10_state.md R27–R37, R46; 70_reset_and_hazards.md R223). -/

namespace Sys2Proof.Machine

/-! ## The window (R27) -/

/-- The first eight registers show no unit. -/
theorem regAt_below_eight : ∀ k : BitVec 6, k < 8 → ∃ g, regAt k = some g ∧ g.showsUnit = false := by decide

/-- The unit registers (R223). -/
theorem regAt_unit : ∀ k : BitVec 6, 8 ≤ k → k ≤ 12 → ∃ g, regAt k = some g ∧ g.showsUnit = true := by decide

/-- The reserved offsets (R37). -/
theorem regAt_reserved : ∀ k : BitVec 6, 13 ≤ k → regAt k = none := by decide

/-- The ARG registers. -/
theorem arg_index_cases : ∀ k : BitVec 6, 1 ≤ k → k ≤ 4 → k = 1 ∨ k = 2 ∨ k = 3 ∨ k = 4 := by decide

/-- What a read at an index shows: a register's value, and 0 at a reserved offset (R37). -/
def shownAt (k : BitVec 6) (s : State) : Word :=
  match regAt k with
  | none => 0
  | some g => g.value s

/-- A read outside R223 shows the register and changes nothing else. -/
theorem readReg_of_shown {k : BitVec 6} {s : State} (h : k < 8 ∨ s.busy = false) :
    readReg k s = { s with readData := shownAt k s } := by
  unfold readReg shownAt
  cases hg : regAt k with
  | none => rfl
  | some g =>
    have hfree : (s.busy && g.showsUnit) = false := by
      rcases h with h | h
      · obtain ⟨g', hg', hu⟩ := regAt_below_eight k h
        cases hg.symm.trans hg'
        rw [hu, Bool.and_false]
      · rw [h, Bool.false_and]
    simp only [hfree, Bool.false_eq_true, if_false]

/-- A read of a reserved offset. -/
theorem readReg_of_reserved {k : BitVec 6} (s : State) (h : regAt k = none) : readReg k s = { s with readData := 0 } := by
  unfold readReg
  rw [h]

/-- A read of a unit register while a command runs returns a draw (R223). -/
theorem readReg_of_draw {k : BitVec 6} {s : State} (hb : s.busy = true) (h8 : 8 ≤ k) (h12 : k ≤ 12) :
    readReg k s = { s with readData := Config.busyRead s.draws, draws := s.draws + 1 } := by
  obtain ⟨g, hg, hu⟩ := regAt_unit k h8 h12
  unfold readReg
  simp only [hg, hb, hu, Bool.and_self, if_true]

/-- A write past the ARG registers changes nothing (R37). -/
theorem writeReg_of_not_writable {k : BitVec 6} (w : Word) (s : State) (h : 5 ≤ k) : writeReg k w s = .next s := by
  have hg : ∀ j : BitVec 6, 5 ≤ j →
      regAt j ≠ some .cmd ∧ regAt j ≠ some .arg0 ∧ regAt j ≠ some .arg1 ∧ regAt j ≠ some .arg2 ∧ regAt j ≠ some .arg3 := by
    decide
  obtain ⟨h0, h1, h2, h3, h4⟩ := hg k h
  unfold writeReg
  split
  · contradiction
  · contradiction
  · contradiction
  · contradiction
  · contradiction
  all_goals rfl

/-! ## The fields of the words shown (R30, R32, R34) -/

theorem statusWord_busy (s : State) : (statusWord s).getLsbD 0 = s.busy := by
  simp only [statusWord, BitVec.getLsbD_append]
  simp

theorem statusWord_faulted (s : State) : (statusWord s).getLsbD 1 = s.faulted := by
  simp only [statusWord, BitVec.getLsbD_append]
  simp

/-- The fields of STATUS that hold more than one bit. -/
theorem statusWord_fields (s : State) : (statusWord s).extractLsb' 2 6 = 0 ∧
    (statusWord s).extractLsb' 8 8 = s.code.byte ∧ (statusWord s).extractLsb' 16 16 = 0 := by
  refine ⟨?_, ?_, ?_⟩ <;> apply BitVec.eq_of_getLsbD_eq <;> intro i hi <;>
    simp only [statusWord, BitVec.getLsbD_append, BitVec.getLsbD_extractLsb'] <;> interval_cases i <;> simp

theorem seStatWord_fields (u : SeUnit) : (seStatWord u).extractLsb' 0 2 = u.state.bits ∧
    (seStatWord u).extractLsb' 2 2 = 0 ∧ (seStatWord u).extractLsb' 4 2 = u.count ∧
    (seStatWord u).extractLsb' 6 2 = 0 ∧ (seStatWord u).extractLsb' 8 7 = u.line ∧
    (seStatWord u).extractLsb' 15 17 = 0 := by
  refine ⟨?_, ?_, ?_, ?_, ?_, ?_⟩ <;> apply BitVec.eq_of_getLsbD_eq <;> intro i hi <;>
    simp only [seStatWord, BitVec.getLsbD_append, BitVec.getLsbD_extractLsb'] <;> interval_cases i <;> simp

theorem sdStatWord_fields (u : SdUnit) : (sdStatWord u).extractLsb' 0 3 = u.phase.bits ∧
    (sdStatWord u).extractLsb' 3 1 = 0 ∧ (sdStatWord u).extractLsb' 4 3 = u.count ∧
    (sdStatWord u).extractLsb' 7 1 = 0 ∧ (sdStatWord u).extractLsb' 8 2 = u.pos ∧
    (sdStatWord u).extractLsb' 10 2 = 0 ∧ (sdStatWord u).extractLsb' 12 2 = u.nsig ∧
    (sdStatWord u).extractLsb' 14 2 = 0 ∧ (sdStatWord u).getLsbD 16 = u.padded ∧
    (sdStatWord u).extractLsb' 17 15 = 0 := by
  refine ⟨?_, ?_, ?_, ?_, ?_, ?_, ?_, ?_, ?_, ?_⟩
  case refine_9 => simp only [sdStatWord, BitVec.getLsbD_append]; simp
  all_goals
    apply BitVec.eq_of_getLsbD_eq
    intro i hi
    simp only [sdStatWord, BitVec.getLsbD_append, BitVec.getLsbD_extractLsb']
    interval_cases i <;> simp

/-- Settles O13: a read shows its register's word, the words are made of their fields, and a unit register read while a
command runs is a draw. -/
theorem registerReadsShowTheirFields : Obligations.RegisterReadsShowTheirFields := by
  unfold Obligations.RegisterReadsShowTheirFields
  refine ⟨fun s k rest hi hk => ?_, fun s k rest hb h8 h12 hi => ?_⟩
  · have hread : step s = .next { s with inputs := rest, readData := shownAt k s } := by
      rw [step_of_input hi, takeInput, readReg_of_shown (s := { s with inputs := rest }) hk]
      rfl
    refine ⟨_, hread, rfl, ?_, ?_, ?_, ?_, ?_, ?_, ?_, ?_, ?_⟩ <;> rintro rfl
    · rfl
    · obtain ⟨h2, h8, h16⟩ := statusWord_fields s
      exact ⟨statusWord_busy s, statusWord_faulted s, h2, h16, h8.trans (by cases s.code <;> rfl)⟩
    · rfl
    · rfl
    · obtain ⟨hstate, hrest⟩ := seStatWord_fields s.se
      exact ⟨hstate.trans (by cases s.se.state <;> rfl), hrest⟩
    · exact packBytes_three _ _ _
    · obtain ⟨hphase, hrest⟩ := sdStatWord_fields s.sd
      exact ⟨hphase.trans (by cases s.sd.phase <;> rfl), hrest⟩
    · exact packBytes_three _ _ _
    · rfl
  · rw [step_of_input hi, takeInput, readReg_of_draw (s := { s with inputs := rest }) hb h8 h12]

/-! ## Writes (R29, R37) -/

/-- What the host stores at the ARG register of index `k` (R29). -/
def setArg (k : BitVec 6) (w : Word) (g : Args) : Args :=
  { a0 := if k = 1 then w else g.a0
    a1 := if k = 2 then w else g.a1
    a2 := if k = 3 then w else g.a2
    a3 := if k = 4 then w else g.a3 }

theorem writeReg_of_arg {k : BitVec 6} (w : Word) (s : State) (h1 : 1 ≤ k) (h4 : k ≤ 4) :
    writeReg k w s = .next { s with arg := setArg k w s.arg } := by
  rcases arg_index_cases k h1 h4 with rfl | rfl | rfl | rfl <;> rfl

/-- An ARG register shows what was last written to it, also while a command runs. -/
theorem shownAt_of_arg {k : BitVec 6} (w : Word) (s : State) (g : Args) (h1 : 1 ≤ k) (h4 : k ≤ 4)
    (hg : s.arg = setArg k w g) : shownAt k s = w := by
  rcases arg_index_cases k h1 h4 with rfl | rfl | rfl | rfl <;> simp [shownAt, regAt, Reg.value, hg, setArg]

/-- Settles O12: ARG writes store their word, every other write past CMD does nothing, and reserved offsets show 0. -/
theorem registerWritesByTheHost : Obligations.RegisterWritesByTheHost := by
  unfold Obligations.RegisterWritesByTheHost
  refine ⟨fun s k w rest h1 h4 hi => ?_, fun s k w rest h5 => ⟨fun hi => ?_, fun h13 hi => ?_⟩⟩
  · refine ⟨{ s with inputs := .regRead k :: rest, arg := setArg k w s.arg }, ?_, rfl, ?_⟩
    · rw [step_of_input hi, takeInput, writeReg_of_arg w _ h1 h4]
    · have h8 : k < 8 := by bv_omega
      rw [step_of_input rfl, takeInput, readReg_of_shown (.inl h8), shownAt_of_arg w _ s.arg h1 h4 rfl]
  · rw [step_of_input hi, takeInput, writeReg_of_not_writable w _ h5]
  · rw [step_of_input hi, takeInput, readReg_of_reserved _ (regAt_reserved k h13)]

/-! ## Reset (R46) -/

theorem hasResetValues_resetBlock (s : State) : (resetBlock s).HasResetValues :=
  ⟨rfl, rfl, rfl, rfl, rfl, rfl, rfl, rfl⟩

theorem hasResetValues_reset : State.reset.HasResetValues := ⟨rfl, rfl, rfl, rfl, rfl, rfl, rfl, rfl⟩

/-- Every register reads 0 where its fields have the values of R46. -/
theorem value_of_hasResetValues {s : State} (h : s.HasResetValues) (g : Reg) : g.value s = 0 := by
  obtain ⟨harg, hbusy, hfaulted, hcode, hres0, hres1, hse, hsd⟩ := h
  cases g with
  | cmd => rfl
  | arg0 => simp only [Reg.value, harg]
  | arg1 => simp only [Reg.value, harg]
  | arg2 => simp only [Reg.value, harg]
  | arg3 => simp only [Reg.value, harg]
  | status => simp only [Reg.value, statusWord, hbusy, hfaulted, hcode]; decide
  | res0 => exact hres0
  | res1 => exact hres1
  | seStat => simp only [Reg.value, hse]; decide
  | seBuf => simp only [Reg.value, hse]; decide
  | sdStat => simp only [Reg.value, hsd]; decide
  | sdOut => simp only [Reg.value, hsd]; decide
  | sdSrcidx => simp only [Reg.value, hsd]

/-- Settles O10: reset leaves the values of the table, which all read 0, and HB as it was. -/
theorem resetLeavesTheValuesOfTheTable : Obligations.ResetLeavesTheValuesOfTheTable := by
  unfold Obligations.ResetLeavesTheValuesOfTheTable
  refine ⟨fun s rest hi => ?_, hasResetValues_reset, value_of_hasResetValues hasResetValues_reset⟩
  have hreset := hasResetValues_resetBlock { s with inputs := rest }
  exact ⟨_, by rw [step_of_input hi, takeInput], hreset, value_of_hasResetValues hreset, rfl⟩

end Sys2Proof.Machine
end

section
/-! SUPPORT. What a running command does not mind, along a whole step (10_state.md R29): an update that goes through its
operations goes through every command and every way it goes on. -/

namespace Sys2Proof.Machine

/-- A bystander of the whole run: it leaves the inputs and what runs alone. -/
structure Onlooker (f : State → State) : Prop extends Bystander f f where
  running : ∀ s, (f s).running = s.running
  inputs : ∀ s, (f s).inputs = s.inputs
  setRunning : ∀ r s, { f s with running := r } = f { s with running := r }
  setInputs : ∀ is s, { f s with inputs := is } = f { s with inputs := is }

/-- ARG0–ARG3 are no business of a running command (R29). -/
theorem putArg_onlooker (g : Args) : Onlooker (putArg g) where
  toBystander := putArg_bystander g
  running _ := rfl
  inputs _ := rfl
  setRunning _ _ := rfl
  setInputs _ _ := rfl

namespace Onlooker

variable {f : State → State} (hf : Onlooker f)
include hf

theorem drive (s : State) : Machine.drive (f s) = f (Machine.drive s) := by
  unfold Machine.drive
  rw [hf.inputs]
  exact hf.driveOn hf.running hf.setInputs _ s

theorem exec {i : Instr} {s t : State} (h : exec i s = .next t) : Machine.exec i (f s) = .next (f t) := by
  obtain ⟨b, hb, he⟩ := exec_factors i
  rw [he] at h
  cases h
  rw [he, hb f f hf.toBystander, hf.drive]

theorem goOn {r : Ready} {s t : State} (h : goOn r s = .next t) : Machine.goOn r (f s) = .next (f t) := by
  cases r with
  | command i => exact hf.exec h
  | illegal => cases h; exact congrArg Host.Outcome.next (hf.fault _ s)
  | sink w a => cases h; simp only [Machine.goOn, hf.seGoesOn, hf.drive]
  | read a => cases h; simp only [Machine.goOn, hf.sdReadGoesOn, hf.drive]
  | readN k a => cases h; simp only [Machine.goOn, hf.latched, hf.sdReadNGoesOn, hf.drive]
  | storing k => cases h; simp only [Machine.goOn, hf.latched, hf.sdReadMany, hf.drive]
  | close a => cases h; simp only [Machine.goOn, hf.sdCloseGoesOn, hf.drive]

theorem proceed {s t : State} (h : proceed s = .next t) : Machine.proceed (f s) = .next (f t) := by
  unfold Machine.proceed at h ⊢
  rw [hf.running, hf.setRunning]
  split at h
  · exact hf.goOn h
  · cases h; rfl

theorem proceedStores (n : Nat) (s : State) : Machine.proceedStores n (f s) = f (Machine.proceedStores n s) := by
  unfold Machine.proceedStores
  rw [hf.running]
  split
  · rw [hf.setRunning, hf.sdReadnBegin, hf.requireOpenSd, hf.drive]
  · rw [hf.setRunning, hf.sdReadNGoesOn, hf.drive]
  · rw [hf.setRunning, hf.latched, hf.sdReadUpTo, hf.drive]
  · rfl

theorem portAnswer (i : Input) (s : State) : Machine.portAnswer i (f s) = f (Machine.portAnswer i s) := by
  unfold Machine.portAnswer
  rw [hf.answered hf.running]
  cases Machine.answered i s with
  | none => rfl
  | some s' => exact hf.drive s'

/-- The inputs on which a running command goes on. -/
theorem takeInput {i : Input} {s t : State}
    (hi : (∃ a, i = .sinkAnswer a) ∨ (∃ a, i = .readAnswer a) ∨ (∃ a, i = .closeAnswer a) ∨ i = .proceed ∨
      ∃ n, i = .proceedStores n)
    (h : takeInput i s = .next t) : Machine.takeInput i (f s) = .next (f t) := by
  rcases hi with ⟨a, rfl⟩ | ⟨a, rfl⟩ | ⟨a, rfl⟩ | rfl | ⟨n, rfl⟩
  · cases h; exact congrArg Host.Outcome.next (hf.portAnswer _ s)
  · cases h; exact congrArg Host.Outcome.next (hf.portAnswer _ s)
  · cases h; exact congrArg Host.Outcome.next (hf.portAnswer _ s)
  · exact hf.proceed h
  · cases h; exact congrArg Host.Outcome.next (hf.proceedStores n s)

end Onlooker

/-- Settles O53: the update of ARG0–ARG3 goes through every command and through every input on which one goes on. -/
theorem commandsReadOnlyLatchedOperands : Obligations.CommandsReadOnlyLatchedOperands := by
  unfold Obligations.CommandsReadOnlyLatchedOperands
  exact ⟨fun i s t g h => (putArg_onlooker g).exec h, fun i s t g hi h => (putArg_onlooker g).takeInput hi h⟩

end Sys2Proof.Machine
end

section
/-! SUPPORT. The alphabet tables by what they are read for (10_state.md R21–R24). -/

namespace Sys2Proof.Machine

/-- The 7-bit codes of each class but INV. -/
def Cls.fits (code : Byte) : Cls → Bool
  | .sym (.val v) => code == symOf v
  | .sym .pad => code == 0x3D
  | .ws => code == 0x09 || code == 0x0A || code == 0x0D || code == 0x20
  | .inv => true

set_option maxRecDepth 20000 in
/-- A class is read only from a code of its own (R23). -/
theorem cls_fits : ∀ b : Byte, (cls b).fits (b &&& 0x7F) = true := by decide

/-- Bit 7 is ignored (R24). -/
theorem cls_low7 (b : Byte) : cls (b &&& 0x7F) = cls b := by
  unfold cls
  congr 1
  apply BitVec.eq_of_getLsbD_eq
  intro i hi
  simp only [BitVec.getLsbD_extractLsb', BitVec.getLsbD_and]
  interval_cases i <;> simp

/-- A byte has the class of its low 7 bits. -/
theorem cls_of_low7 {b code : Byte} {k : Cls} (h : b &&& 0x7F = code) (hk : cls code = k) : cls b = k := by
  rw [← cls_low7, h, hk]

theorem cls_eq_val_iff (b : Byte) (v : Sextet) : cls b = .sym (.val v) ↔ b &&& 0x7F = symOf v := by
  refine ⟨fun h => ?_, fun h => cls_of_low7 h (cls_symOf v)⟩
  have hf := cls_fits b
  rw [h] at hf
  simpa only [Cls.fits, beq_iff_eq] using hf

theorem cls_eq_pad_iff (b : Byte) : cls b = .sym .pad ↔ b &&& 0x7F = 0x3D := by
  refine ⟨fun h => ?_, fun h => cls_of_low7 h cls_padChar⟩
  have hf := cls_fits b
  rw [h] at hf
  simpa only [Cls.fits, beq_iff_eq] using hf

theorem cls_eq_ws_iff (b : Byte) : cls b = .ws ↔
    (b &&& 0x7F = 0x09 ∨ b &&& 0x7F = 0x0A ∨ b &&& 0x7F = 0x0D ∨ b &&& 0x7F = 0x20) := by
  constructor
  · intro h
    have hf := cls_fits b
    rw [h] at hf
    simpa only [Cls.fits, Bool.or_eq_true, beq_iff_eq, or_assoc] using hf
  · rintro (h | h | h | h) <;> exact cls_of_low7 h (by decide)

/-- INV is the class of every other byte. -/
theorem cls_eq_inv_iff (b : Byte) :
    cls b = .inv ↔ (∀ v, cls b ≠ .sym (.val v)) ∧ cls b ≠ .sym .pad ∧ cls b ≠ .ws := by
  rcases cls b with (v | _) | _ | _ <;> simp

/-- R21's ranges of the Symbol Table. -/
theorem symOf_ranges : ∀ v : Sextet,
    (v.toNat < 26 → symOf v = 0x41 + v.setWidth 8) ∧
    (26 ≤ v.toNat → v.toNat < 52 → symOf v = 0x61 + (v.setWidth 8 - 26)) ∧
    (52 ≤ v.toNat → v.toNat < 62 → symOf v = 0x30 + (v.setWidth 8 - 52)) ∧
    (v.toNat = 62 → symOf v = 0x2B) ∧ (v.toNat = 63 → symOf v = 0x2F) := by decide

/-- Settles O17: the Symbol Table entry by entry, and each class by the codes it is read from. -/
theorem alphabetTablesByTheirRanges : Obligations.AlphabetTablesByTheirRanges := by
  unfold Obligations.AlphabetTablesByTheirRanges
  refine ⟨symOf_ranges, cls_eq_val_iff, cls_eq_pad_iff, cls_eq_ws_iff, fun b => ?_⟩
  simp only [cls_eq_inv_iff, ne_eq, cls_eq_val_iff, cls_eq_pad_iff, cls_eq_ws_iff, not_or]

end Sys2Proof.Machine
end

section
/-! SUPPORT. Answers in place and answers that come in later steps (20_memory.md R66, R67; 70_reset_and_hazards.md R230):
a command that begins, or goes on, takes the answers that stand next to one state that no input has a part in. -/

namespace Sys2Proof.Machine

/-! ## What runs over the inputs -/

/-- An operation that the inputs have no part in is followed by the answers that stand. -/
theorem drive_over_inputs {b : State → State} {s : State} (hb : ∀ is, b (putInputs is s) = putInputs is (b s))
    (is : List Input) : drive (b (putInputs is s)) = driveOn is (b s) := by
  rw [hb]
  exact driveOn_putInputs is is (b s)

/-- A command runs on from the same state, whatever inputs then stand. -/
theorem exec_over_inputs (i : Instr) (s : State) :
    ∃ u, ∀ is, exec i { s with inputs := is } = .next (driveOn is u) := by
  obtain ⟨b, hb, he⟩ := exec_factors i
  refine ⟨b s, fun is => (he _).trans (congrArg _ ?_)⟩
  exact drive_over_inputs (fun js => hb _ _ (putInputs_bystander js) s) is

/-- So does a command that was ready to go on. -/
theorem goOn_over_inputs (r : Ready) (s : State) :
    ∃ u, ∀ is, goOn r { s with inputs := is } = .next (driveOn is u) := by
  have hf := putInputs_bystander
  cases r with
  | command i => exact exec_over_inputs i s
  | illegal =>
    refine ⟨takeFault .faultIllegalCmd s, fun is => ?_⟩
    rw [driveOn_of_not_running _ (takeFault_running _ s)]
    rfl
  | sink w a => exact ⟨_, fun is => congrArg _ (drive_over_inputs (fun js => (hf js).seGoesOn w a s) is)⟩
  | read a => exact ⟨_, fun is => congrArg _ (drive_over_inputs (fun js => (hf js).sdReadGoesOn a s) is)⟩
  | readN k a =>
    exact ⟨_, fun is => congrArg _
      (drive_over_inputs (fun js => (hf js).sdReadNGoesOn (s.latched.a1.toNat - k) k a s) is)⟩
  | storing k =>
    exact ⟨_, fun is => congrArg _
      (drive_over_inputs (fun js => (hf js).sdReadMany (s.latched.a1.toNat - k) k s) is)⟩
  | close a => exact ⟨_, fun is => congrArg _ (drive_over_inputs (fun js => (hf js).sdCloseGoesOn a s) is)⟩

/-- An answer that is awaited goes to the command, which runs on over the inputs behind it. -/
theorem step_of_awaited {s s' : State} {x : Input} (hx : s.awaits x) (ha : answered x s = some s') (is : List Input) :
    step { s with inputs := x :: is } = .next (driveOn is s') := by
  have h : answered x (putInputs is s) = some (putInputs is s') := by rw [answered_putInputs, ha]; rfl
  calc step { s with inputs := x :: is }
    _ = .next (drive (putInputs is s')) := step_of_answered (awaits_cases hx) rfl h
    _ = .next (driveOn is s') := congrArg _ (driveOn_putInputs is is s')

/-- The step on which a waiting or a ready command goes on runs from the same state, whatever inputs stand behind. -/
theorem step_over_inputs {s : State} {y : Input}
    (hy : s.awaits y ∨ ((∃ r, s.running = some (.ready r)) ∧ y = .proceed)) :
    ∃ u, ∀ is, step { s with inputs := y :: is } = .next (driveOn is u) := by
  rcases hy with hy | ⟨⟨r, hr⟩, rfl⟩
  · obtain ⟨s', ha⟩ := exists_answered_of_awaits hy
    exact ⟨s', step_of_awaited hy ha⟩
  · obtain ⟨u, hu⟩ := goOn_over_inputs r { s with running := none }
    exact ⟨u, fun is => (step_of_proceed (s := { s with inputs := .proceed :: is }) hr rfl).trans (hu is)⟩

/-! ## The next input, in place or later -/

/-- A command that used up the answers `front` does with an awaited answer in place what a later step does with it. -/
theorem driveOn_awaited {u : State} {front : List Input} {x : Input} (rest : List Input)
    (ht : (driveOn front u).inputs = []) (hx : (driveOn front u).awaits x) :
    .next (driveOn (front ++ x :: rest) u) = step { driveOn front u with inputs := x :: rest } := by
  obtain ⟨s', ha⟩ := exists_answered_of_awaits hx
  rw [driveOn_append _ ht, driveOn_cons_of_answered ha, step_of_awaited hx ha]

/-- An input that it does not await stays, with all behind it. -/
theorem driveOn_not_awaited {u : State} {front : List Input} {x : Input} (rest : List Input)
    (ht : (driveOn front u).inputs = []) (hx : ¬ (driveOn front u).awaits x) :
    driveOn (front ++ x :: rest) u = { driveOn front u with inputs := x :: rest } := by
  rw [driveOn_append _ ht, driveOn, answered_eq_none_of_not_awaits hx]

/-- What runs from one state over whatever inputs stand, `F`, does with the next input what a later step does, or leaves
it. -/
theorem next_input_in_place_or_later {F : List Input → Host.Outcome State Fault Refusal}
    (hF : ∃ u, ∀ is, F is = .next (driveOn is u)) {front : List Input} {t : State} (x : Input) (rest : List Input)
    (h : F front = .next t) (ht : t.inputs = []) :
    (t.awaits x → F (front ++ x :: rest) = step { t with inputs := x :: rest }) ∧
      (¬ t.awaits x → F (front ++ x :: rest) = .next { t with inputs := x :: rest }) := by
  obtain ⟨u, hu⟩ := hF
  rw [hu] at h
  cases h
  rw [hu]
  exact ⟨driveOn_awaited rest ht, fun hx => by rw [driveOn_not_awaited rest ht hx]⟩

/-- Settles O57: a command, and the step on which one goes on, runs from one state over the inputs that stand. -/
theorem laterAnswersDoWhatAnswersInPlaceDo : Obligations.LaterAnswersDoWhatAnswersInPlaceDo := by
  unfold Obligations.LaterAnswersDoWhatAnswersInPlaceDo
  exact ⟨fun i s t front x rest h ht => next_input_in_place_or_later (exec_over_inputs i s) x rest h ht,
    fun s t front y x rest hy h ht => next_input_in_place_or_later (step_over_inputs hy) x rest h ht⟩

end Sys2Proof.Machine
end

section
/-! SUPPORT. The host buffer as the host sees it and as the running command names it (20_memory.md R60, R61, R74). -/

namespace Sys2Proof.Machine

/-! ## The host's own accesses (R60) -/

theorem step_hbWrite {s : State} {a : Word} {b : Byte} {rest : List Input} (hi : s.inputs = .hbWrite a b :: rest) :
    step s = hostWriteHb a b { s with inputs := rest } := step_of_input hi

theorem step_hbRead {s : State} {a : Word} {rest : List Input} (hi : s.inputs = .hbRead a :: rest) :
    step s = hostReadHb a { s with inputs := rest } := step_of_input hi

/-- An access the host may make goes through. -/
theorem hostWriteHb_of_free {a : Word} {s : State} (b : Byte) (ha : a.toNat < s.params.hbSize)
    (hu : inUse s a.toNat = false) : hostWriteHb a b s = .next { s with hb := Memory.write s.hb a.toNat b } := by
  simp [hostWriteHb, ha, hu]

theorem hostReadHb_of_free {a : Word} {s : State} (ha : a.toNat < s.params.hbSize) (hu : inUse s a.toNat = false) :
    hostReadHb a s = .next { s with readData := (Memory.read s.hb a.toNat).setWidth 32 } := by
  simp [hostReadHb, ha, hu]

/-- The model stops on an offset past the end (log 8). -/
theorem step_hb_of_absent {s : State} {a : Word} {b : Byte} {rest : List Input}
    (hi : s.inputs = .hbWrite a b :: rest ∨ s.inputs = .hbRead a :: rest) (ha : s.params.hbSize ≤ a.toNat) :
    step s = .fault .hbOffsetAbsent := by
  rcases hi with hi | hi
  · rw [step_hbWrite hi, hostWriteHb, if_pos ha]
  · rw [step_hbRead hi, hostReadHb, if_pos ha]

/-- The model stops on an offset the running command uses (log 9). -/
theorem step_hb_of_inUse {s : State} {a : Word} {b : Byte} {rest : List Input}
    (hi : s.inputs = .hbWrite a b :: rest ∨ s.inputs = .hbRead a :: rest) (ha : a.toNat < s.params.hbSize)
    (hu : inUse s a.toNat = true) : step s = .refused .hbRangeInUse := by
  rcases hi with hi | hi
  · rw [step_hbWrite hi, hostWriteHb, if_neg (Nat.not_le.mpr ha)]
    exact if_pos hu
  · rw [step_hbRead hi, hostReadHb, if_neg (Nat.not_le.mpr ha)]
    exact if_pos hu

/-! ## The ranges in use (R74) -/

/-- The command that runs names A0 and A1 as a range. -/
def Waiting.usesData : Waiting → Prop
  | .ready (.command i) => i = .benc ∨ i = .bdec ∨ i = .seWriten ∨ i = .sdReadn
  | .se w => w.inWriteN
  | .ready (.sink w _) => w.inWriteN
  | .sd (.readN _) => True
  | .ready (.readN _ _) => True
  | .ready (.storing _) => True
  | _ => False

/-- The command that runs names A2 and A3 as a range. -/
def Waiting.usesDestination : Waiting → Prop
  | .ready (.command i) => i = .benc ∨ i = .bdec
  | _ => False

/-- SE_WRITEN's data range, at a request of its loop alone. -/
theorem mem_range_iff (g : Args) (w : SeWait) (r : Word × Word) :
    r ∈ w.range g ↔ w.inWriteN ∧ r = (g.a0, g.a1) := by
  rcases w with ⟨_, _, _ | _⟩ | ⟨_ | _⟩ | _ | _ | _ <;> simp [SeWait.range, SeWait.inWriteN]

/-- R74: the ranges in use are those two. -/
theorem mem_rangesInUse_iff (s : State) (r : Word × Word) : r ∈ rangesInUse s ↔
    ((∃ w, s.running = some w ∧ w.usesData) ∧ r = (s.latched.a0, s.latched.a1)) ∨
      ((∃ w, s.running = some w ∧ w.usesDestination) ∧ r = (s.latched.a2, s.latched.a3)) := by
  unfold rangesInUse
  cases hr : s.running with
  | none => simp
  | some w =>
    cases w with
    | se w => simp [mem_range_iff, Waiting.usesData, Waiting.usesDestination]
    | sd w => cases w <;> simp [Waiting.usesData, Waiting.usesDestination]
    | ready q =>
      cases q with
      | command i => cases i <;> simp [Ready.ranges, rangesOf, Waiting.usesData, Waiting.usesDestination]
      | sink w a => simp [Ready.ranges, mem_range_iff, Waiting.usesData, Waiting.usesDestination]
      | _ => simp [Ready.ranges, Waiting.usesData, Waiting.usesDestination]

theorem inUse_iff (s : State) (a : Nat) : inUse s a = true ↔
    ((∃ w, s.running = some w ∧ w.usesData) ∧
      s.latched.a0.toNat ≤ a ∧ a < s.latched.a0.toNat + s.latched.a1.toNat) ∨
    ((∃ w, s.running = some w ∧ w.usesDestination) ∧
      s.latched.a2.toNat ≤ a ∧ a < s.latched.a2.toNat + s.latched.a3.toNat) := by
  simp only [inUse, List.any_eq_true, Bool.and_eq_true, decide_eq_true_eq, mem_rangesInUse_iff]
  constructor
  · rintro ⟨r, ⟨hw, rfl⟩ | ⟨hw, rfl⟩, ha⟩
    · exact .inl ⟨hw, ha⟩
    · exact .inr ⟨hw, ha⟩
  · rintro (⟨hw, ha⟩ | ⟨hw, ha⟩)
    · exact ⟨_, .inl ⟨hw, rfl⟩, ha⟩
    · exact ⟨_, .inr ⟨hw, rfl⟩, ha⟩

/-- The commands, requests and times at which A0 and A1 are a range. -/
theorem usesData_iff (s : State) : (∃ w, s.running = some w ∧ w.usesData) ↔
    (∃ i, s.running = some (.ready (.command i)) ∧ (i = .benc ∨ i = .bdec ∨ i = .seWriten ∨ i = .sdReadn)) ∨
    (∃ w, (s.running = some (.se w) ∨ ∃ x, s.running = some (.ready (.sink w x))) ∧ w.inWriteN) ∨
    ∃ k, s.running = some (.sd (.readN k)) ∨ (∃ x, s.running = some (.ready (.readN k x))) ∨
      s.running = some (.ready (.storing k)) := by
  cases hr : s.running with
  | none => simp
  | some w =>
    cases w with
    | se w => simp [Waiting.usesData]
    | sd w => cases w <;> simp [Waiting.usesData]
    | ready q => cases q <;> simp [Waiting.usesData]

theorem usesDestination_iff (s : State) : (∃ w, s.running = some w ∧ w.usesDestination) ↔
    ∃ i, s.running = some (.ready (.command i)) ∧ (i = .benc ∨ i = .bdec) := by
  cases hr : s.running with
  | none => simp
  | some w =>
    cases w with
    | se w => simp [Waiting.usesDestination]
    | sd w => simp [Waiting.usesDestination]
    | ready q => cases q <;> simp [Waiting.usesDestination]

/-- Settles O14: the host's accesses case by case, and the ranges in use by what runs. -/
theorem hostBufferAccessByTheHost : Obligations.HostBufferAccessByTheHost := by
  unfold Obligations.HostBufferAccessByTheHost
  refine ⟨fun s a b rest => ⟨fun hi ha hu => ?_, fun hi ha hu => ?_, step_hb_of_absent, step_hb_of_inUse⟩, fun s a => ?_⟩
  · exact ⟨_, (step_hbWrite hi).trans (hostWriteHb_of_free b ha hu), rfl, read_write_same _ _ b,
      fun x hx => read_write_other _ b hx⟩
  · exact (step_hbRead hi).trans (hostReadHb_of_free ha hu)
  · rw [inUse_iff, usesData_iff, usesDestination_iff]

/-! ## Ranges that are not admitted (R61) -/

theorem admitted_iff (p : Params) (a n : Word) : admitted p a n = true ↔ a.toNat + n.toNat ≤ p.hbSize := by
  simp [admitted]

theorem exec_bulk_of_not_admitted {s : State} {i : Instr} (hi : i = .benc ∨ i = .bdec)
    (h : s.params.hbSize < s.latched.a0.toNat + s.latched.a1.toNat ∨
      s.params.hbSize < s.latched.a2.toNat + s.latched.a3.toNat) : exec i s = .next (takeFault .faultRange s) := by
  have hn : ¬ bulkRangesAdmitted s = true := by rw [bulkRangesAdmitted_iff]; omega
  rcases hi with rfl | rfl
  · exact if_neg hn
  · exact if_neg hn

theorem exec_seWriten_of_not_admitted {s : State} (ho : s.se.state = .opened)
    (h : s.params.hbSize < s.latched.a0.toNat + s.latched.a1.toNat) :
    exec .seWriten s = .next (takeFault .faultRange s) := by
  have hn : ¬ admitted s.params s.latched.a0 s.latched.a1 = true := by rw [admitted_iff]; omega
  rw [exec, execSeWriten, requireOpenSe_of_open _ ho, seWritenBody, if_neg hn]

theorem exec_sdReadn_of_not_admitted {s : State} (hb : s.sd.bound)
    (h : s.params.hbSize < s.latched.a0.toNat + s.latched.a1.toNat) :
    exec .sdReadn s = .next (takeFault .faultRange s) := by
  have hn : ¬ admitted s.params s.latched.a0 s.latched.a1 = true := by rw [admitted_iff]; omega
  rw [exec_sdReadn, requireOpenSd_of_bound _ hb, sdReadnBegin, if_neg hn, drive_takeFault]

/-- Settles O30: each command checks its ranges before it does anything else. -/
theorem rangeNotAdmittedFaults : Obligations.RangeNotAdmittedFaults := by
  unfold Obligations.RangeNotAdmittedFaults
  refine ⟨admitted_iff, fun s i hf h => ?_⟩
  rw [← takeFault_of_not_faulted .faultRange hf]
  rcases h with ⟨hi, hn⟩ | ⟨rfl, ho, hn⟩ | ⟨rfl, hb, hn⟩
  · exact exec_bulk_of_not_admitted hi hn
  · exact exec_seWriten_of_not_admitted ho hn
  · exact exec_sdReadn_of_not_admitted hb hn

end Sys2Proof.Machine
end

section
/-! SUPPORT. A command whose answer has not come stands at its first request (20_memory.md R66, R67;
70_reset_and_hazards.md R228). -/

namespace Sys2Proof.Machine

/-- With no input left, a command stands where it asks. -/
theorem drive_of_no_input {s : State} (h : s.inputs = []) : drive s = s := by
  rw [drive, h]
  cases s
  cases h
  rfl

/-! ## Stream Encoder commands (R142–R147) -/

/-- The buffer by the bytes held (R143). -/
theorem sePush_first {s : State} (b : Byte) (hc : s.se.count = 0) :
    sePush b s = { s with se := { s.se with buf := { s.se.buf with b0 := b }, count := 1 } } := by
  simp [sePush, hc, Bytes3.set]

theorem sePush_second {s : State} (b : Byte) (hc : s.se.count = 1) :
    sePush b s = { s with se := { s.se with buf := { s.se.buf with b1 := b }, count := 2 } } := by
  simp [sePush, hc, Bytes3.set]

theorem sePush_third {s : State} (b : Byte) (hc : s.se.count = 2) :
    sePush b s = { s with se := { s.se with buf := { s.se.buf with b2 := b }, count := 3 } } := by
  simp [sePush, hc, Bytes3.set]

/-- The byte that fills a group asks for the group's first symbol: in SE_WRITE (R144). -/
theorem seWriteOne_third {s : State} {b b' : Byte} {rest : List Byte} (hc : s.se.count = 2)
    (he : encodeGroup s.se.buf.b0 s.se.buf.b1 b 3 = b' :: rest) :
    seWriteOne b s = ask (.se (.group b' rest .one))
      { s with se := { s.se with buf := { s.se.buf with b2 := b }, count := 3 } } := by
  rw [seWriteOne, sePush_third b hc, if_pos rfl]
  exact seEmitGroup_eq he

/-- And in SE_WRITEN (R145). -/
theorem seWriteMany_third {s : State} {b b' : Byte} {rest : List Byte} (k : Nat) (bytes : List Byte)
    (hc : s.se.count = 2) (he : encodeGroup s.se.buf.b0 s.se.buf.b1 b 3 = b' :: rest) :
    seWriteMany k (b :: bytes) s = ask (.se (.group b' rest (.many k bytes)))
      { s with se := { s.se with buf := { s.se.buf with b2 := b }, count := 3 } } := by
  rw [seWriteMany, sePush_third b hc, if_pos rfl]
  exact seEmitGroup_eq he

/-- A byte before it is only stored. -/
theorem seWriteMany_second {s : State} (k : Nat) (b : Byte) (bytes : List Byte) (hc : s.se.count = 1) :
    seWriteMany k (b :: bytes) s = seWriteMany (k + 1) bytes
      { s with se := { s.se with buf := { s.se.buf with b1 := b }, count := 2 } } := by
  rw [seWriteMany, sePush_second b hc]
  exact if_neg (show ¬ (2 : BitVec 2) = 3 by decide)

theorem seWriteMany_first {s : State} (k : Nat) (b : Byte) (bytes : List Byte) (hc : s.se.count = 0) :
    seWriteMany k (b :: bytes) s = seWriteMany (k + 1) bytes
      { s with se := { s.se with buf := { s.se.buf with b0 := b }, count := 1 } } := by
  rw [seWriteMany, sePush_first b hc]
  exact if_neg (show ¬ (1 : BitVec 2) = 3 by decide)

/-- SE_WRITEN comes to the byte that fills the group, by the bytes held and the data (R145). -/
theorem seWriteMany_asks {s : State} {k : Nat} {b0 b1 b2 b' : Byte} {bytes rest data : List Byte}
    (hd : (s.se.count = 2 ∧ k = 0 ∧ b0 = s.se.buf.b0 ∧ b1 = s.se.buf.b1 ∧ data = b2 :: bytes) ∨
      (s.se.count = 1 ∧ k = 1 ∧ b0 = s.se.buf.b0 ∧ data = b1 :: b2 :: bytes) ∨
      (s.se.count = 0 ∧ k = 2 ∧ data = b0 :: b1 :: b2 :: bytes))
    (he : encodeGroup b0 b1 b2 3 = b' :: rest) :
    seWriteMany 0 data s = ask (.se (.group b' rest (.many k bytes)))
      { s with se := { s.se with buf := ⟨b0, b1, b2⟩, count := 3 } } := by
  rcases hd with ⟨hc, rfl, rfl, rfl, rfl⟩ | ⟨hc, rfl, rfl, rfl⟩ | ⟨hc, rfl, rfl⟩
  · exact seWriteMany_third 0 bytes hc he
  · rw [seWriteMany_second 0 b1 _ hc]
    exact seWriteMany_third 1 bytes rfl he
  · rw [seWriteMany_first 0 b0 _ hc, seWriteMany_second 1 b1 _ rfl]
    exact seWriteMany_third 2 bytes rfl he

section
variable {s : State} (ho : s.se.state = .opened) (hi : s.inputs = [])
include ho hi

theorem exec_seWrite_waits {b b' : Byte} {rest : List Byte} (hc : s.se.count = 2)
    (he : encodeGroup s.se.buf.b0 s.se.buf.b1 b 3 = b' :: rest) :
    exec (.seWrite b) s = .next { s with
      se := { s.se with buf := { s.se.buf with b2 := b }, count := 3 }
      running := some (.se (.group b' rest .one)) } := by
  rw [exec, execSeWrite, requireOpenSe_of_open _ ho, seWriteOne_third hc he]
  exact congrArg _ (drive_of_no_input hi)

theorem exec_seWriten_waits {k : Nat} {b0 b1 b2 b' : Byte} {bytes rest : List Byte}
    (ha : admitted s.params s.latched.a0 s.latched.a1 = true)
    (hd : (s.se.count = 2 ∧ k = 0 ∧ b0 = s.se.buf.b0 ∧ b1 = s.se.buf.b1 ∧
        Memory.readRange s.hb s.latched.a0.toNat s.latched.a1.toNat = b2 :: bytes) ∨
      (s.se.count = 1 ∧ k = 1 ∧ b0 = s.se.buf.b0 ∧
        Memory.readRange s.hb s.latched.a0.toNat s.latched.a1.toNat = b1 :: b2 :: bytes) ∨
      (s.se.count = 0 ∧ k = 2 ∧
        Memory.readRange s.hb s.latched.a0.toNat s.latched.a1.toNat = b0 :: b1 :: b2 :: bytes))
    (he : encodeGroup b0 b1 b2 3 = b' :: rest) :
    exec .seWriten s = .next { s with
      se := { s.se with buf := ⟨b0, b1, b2⟩, count := 3 }
      running := some (.se (.group b' rest (.many k bytes))) } := by
  rw [exec, execSeWriten, requireOpenSe_of_open _ ho, seWritenBody, if_pos ha, seWriteMany_asks hd he]
  exact congrArg _ (drive_of_no_input hi)

/-- SE_FLUSH and SE_CLOSE stand at the first request of the flush. -/
theorem exec_flush_waits {w : Bool → SeWait} (hw : ∀ closing, seFlushBody closing s = ask (.se (w closing)) s) :
    exec .seFlush s = .next { s with running := some (.se (w false)) } ∧
      exec .seClose s = .next { s with running := some (.se (w true)) } := by
  constructor
  · rw [exec, execSeFlush, requireOpenSe_of_open _ ho, hw]
    exact congrArg _ (drive_of_no_input hi)
  · rw [exec, execSeClose, requireOpenSe_of_open _ ho, hw]
    exact congrArg _ (drive_of_no_input hi)

end

/-! ## Stream Decoder commands (R162–R168) -/

/-- The next `m` bytes of the cache (R163). -/
def SdUnit.nextBytes (u : SdUnit) (m : Nat) : List Byte :=
  ([u.out.b0, u.out.b1, u.out.b2].drop u.pos.toNat).take m

theorem length_nextBytes_le (u : SdUnit) (m : Nat) : (u.nextBytes m).length ≤ m := List.length_take_le _ _

theorem getElem?_nextBytes {u : SdUnit} {m j : Nat} (h : j < m) :
    (u.nextBytes m)[j]? = [u.out.b0, u.out.b1, u.out.b2][u.pos.toNat + j]? := by
  rw [SdUnit.nextBytes, List.getElem?_take_of_lt h, List.getElem?_drop]

/-- Byte `i` of a three-byte field, as the field is listed. -/
theorem getElem_bytes3 (t : Bytes3) {i : BitVec 2} (h : i.toNat < 3) : [t.b0, t.b1, t.b2][i.toNat] = t.get i := by
  have hcases : ∀ i : BitVec 2, i.toNat < 3 → i = 0 ∨ i = 1 ∨ i = 2 := by decide
  rcases hcases i h with rfl | rfl | rfl <;> rfl

/-- The byte at `sd_pos` comes first. -/
theorem nextBytes_succ {u v : SdUnit} (m : Nat) (h : u.pos.toNat < 3) (ho : v.out = u.out)
    (hp : v.pos.toNat = u.pos.toNat + 1) : u.nextBytes (m + 1) = (sdServe u).1 :: v.nextBytes m := by
  unfold SdUnit.nextBytes
  rw [ho, hp, List.drop_eq_getElem_cons h, List.take_succ_cons, getElem_bytes3]
  rfl

/-- A unit whose cache is served. -/
theorem served_eq {u : SdUnit} (hp : u.phase = .empty) (hn : u.pos = u.nsig) :
    ({ u with phase := .empty, pos := u.nsig } : SdUnit) = u := by
  cases u
  cases hp
  cases hn
  rfl

/-- Serving one of `m + 1` cached bytes of a unit without padding leaves `m` (R163). -/
theorem sdServe_phase {u : SdUnit} {m : Nat} (hp : u.phase = .ready) (hq : u.padded = false)
    (hn : u.pos.toNat + (m + 1) = u.nsig.toNat) : (sdServe u).2.phase = if 0 < m then .ready else .empty := by
  have h := congrArg SdUnit.phase (sdServe_unit (by omega) hp)
  rw [h]
  by_cases hm : 0 < m
  · rw [if_pos hm, if_pos (by omega)]
  · rw [if_neg hm, if_neg (by omega), hq]
    rfl

/-- SD_READN stores the `m` bytes left in the cache of a unit without padding, and asks for more (R167). -/
theorem sdReadMany_cached {m left : Nat} (k : Nat) {s : State} (hp : s.sd.phase = if 0 < m then .ready else .empty)
    (hq : s.sd.padded = false) (hn : s.sd.pos.toNat + m = s.sd.nsig.toNat) (hl : m < left) :
    sdReadMany left k s = ask (.sd (.readN (k + m))) { s with
      sd := { s.sd with phase := .empty, pos := s.sd.nsig }
      hb := Memory.writeRange s.hb (s.latched.a0.toNat + k) (s.sd.nextBytes m) } := by
  induction m generalizing left k s with
  | zero =>
    obtain ⟨left, rfl⟩ : ∃ l, left = l + 1 := ⟨left - 1, by omega⟩
    rw [sdReadMany, sdReadUpTo_of_empty _ _ _ hp, served_eq hp (BitVec.eq_of_toNat_eq hn)]
    rfl
  | succ m ih =>
    obtain ⟨left, rfl⟩ : ∃ l, left = l + 1 := ⟨left - 1, by omega⟩
    have hp : s.sd.phase = .ready := hp
    have hpos : (s.sd.pos + 1).toNat = s.sd.pos.toNat + 1 := toNat_pos_succ (by omega)
    have hbytes : s.sd.nextBytes (m + 1) = (sdServe s.sd).1 :: (sdServe s.sd).2.nextBytes m :=
      nextBytes_succ m (by omega) rfl hpos
    have hleft : (sdServe s.sd).2.pos.toNat + m = (sdServe s.sd).2.nsig.toNat := by
      show (s.sd.pos + 1).toNat + m = s.sd.nsig.toNat
      omega
    calc sdReadMany (left + 1) k s
      _ = sdReadMany left (k + 1) (sdStore k s) := sdReadUpTo_store _ _ _ (by simp [hp]) (by simp [hp])
      _ = _ := ih (k + 1) (sdServe_phase hp hq hn) hq hleft (by omega)
      _ = _ := by rw [hbytes, show k + (m + 1) = k + 1 + m by omega]; rfl

/-- SD_READN of a length that is not 0, in an admitted range, is its loop (R167). -/
theorem exec_sdReadn_of_admitted {s : State} (hb : s.sd.bound)
    (ha : admitted s.params s.latched.a0 s.latched.a1 = true) (hz : s.latched.a1 ≠ 0) :
    exec .sdReadn s = .next (drive (sdReadMany s.latched.a1.toNat 0 s)) := by
  rw [exec_sdReadn, requireOpenSd_of_bound _ hb, sdReadnBegin, if_pos ha, if_neg hz]
  rfl

section
variable {s : State} (hi : s.inputs = [])
include hi

theorem exec_sdRead_waits (hp : s.sd.phase = .empty) :
    exec .sdRead s = .next { s with running := some (.sd .read) } := by
  rw [exec, execSdRead, requireOpenSd_of_bound _ (.inl hp), sdReadBody, if_neg (by rw [hp]; decide), if_pos hp]
  exact congrArg _ (drive_of_no_input hi)

theorem exec_sdReadn_waits (hp : s.sd.phase = .empty) (ha : admitted s.params s.latched.a0 s.latched.a1 = true)
    (hz : s.latched.a1 ≠ 0) : exec .sdReadn s = .next { s with running := some (.sd (.readN 0)) } := by
  obtain ⟨left, hl⟩ : ∃ l, s.latched.a1.toNat = l + 1 :=
    Nat.exists_eq_succ_of_ne_zero fun h => hz (BitVec.eq_of_toNat_eq h)
  rw [exec_sdReadn_of_admitted (.inl hp) ha hz, hl, sdReadMany, sdReadUpTo_of_empty _ _ _ hp]
  exact congrArg _ (drive_of_no_input hi)

theorem exec_sdReadn_cached_waits {m : Nat} (hp : s.sd.phase = .ready) (hq : s.sd.padded = false) (hm : 0 < m)
    (hn : s.sd.pos.toNat + m = s.sd.nsig.toNat) (ha : admitted s.params s.latched.a0 s.latched.a1 = true)
    (hl : m < s.latched.a1.toNat) :
    exec .sdReadn s = .next { s with
      sd := { s.sd with phase := .empty, pos := s.sd.nsig }
      hb := Memory.writeRange s.hb s.latched.a0.toNat (s.sd.nextBytes m)
      running := some (.sd (.readN m)) } := by
  have hz : s.latched.a1 ≠ 0 := fun h => by simp [h] at hl
  rw [exec_sdReadn_of_admitted (.inr (.inl hp)) ha hz,
    sdReadMany_cached 0 (by rw [if_pos hm]; exact hp) hq hn hl, Nat.zero_add]
  exact congrArg _ (drive_of_no_input hi)

theorem exec_sdClose_waits (hb : s.sd.bound) (hc : s.sd.count = 0) :
    exec .sdClose s = .next { s with running := some (.sd .close) } := by
  rw [exec, execSdClose, requireOpenSd_of_bound _ hb, sdCloseBody, if_pos hc]
  exact congrArg _ (drive_of_no_input hi)

end

/-! ## Inputs that are no answer (R220) -/

/-- An answer that is not to the pending request changes nothing. -/
theorem step_of_not_awaited {s : State} {x : Input} {rest : List Input} (hi : s.inputs = x :: rest)
    (hx : (∃ a, x = .sinkAnswer a) ∨ (∃ a, x = .readAnswer a) ∨ (∃ a, x = .closeAnswer a) ∨ x = .lateAnswer)
    (hn : ¬ s.awaits x) : step s = .next { s with inputs := rest } := by
  have hstay : portAnswer x { s with inputs := rest } = { s with inputs := rest } := by
    rw [portAnswer, answered_eq_none_of_not_awaits (s := { s with inputs := rest }) hn]
  rw [step_of_input hi]
  rcases hx with ⟨a, rfl⟩ | ⟨a, rfl⟩ | ⟨a, rfl⟩ | rfl
  · exact congrArg _ hstay
  · exact congrArg _ hstay
  · exact congrArg _ hstay
  · rfl

/-- Settles O56: each command by its first request, and a step that brings no answer to it. -/
theorem unansweredCommandWaits : Obligations.UnansweredCommandWaits := by
  unfold Obligations.UnansweredCommandWaits
  refine ⟨fun s _ ho hi => ⟨?_, ?_, ?_, ?_⟩, fun s _ hi => ⟨?_, ?_, ?_, ?_⟩,
    fun s hi hr => step_of_nothing hi hr, fun s x rest hi hx hn => step_of_not_awaited hi hx hn⟩
  · exact fun b s0 s1 s2 s3 hc he => exec_seWrite_waits ho hi hc he
  · exact fun k b0 b1 b2 bytes s0 s1 s2 s3 ha hd he => exec_seWriten_waits ho hi ha hd he
  · exact fun s0 s1 s2 s3 hc he => exec_flush_waits (w := .pad s0 [s1, s2, s3]) ho hi fun _ => seFlushBody_eq_pad hc he
  · exact fun hc => exec_flush_waits (w := .flush) ho hi fun _ => seFlushBody_eq_flush (by rw [hc]; decide)
  · exact exec_sdRead_waits hi
  · exact exec_sdReadn_waits hi
  · intro m hp hq hm hn ha hl
    refine ⟨_, exec_sdReadn_cached_waits hi hp hq hm hn ha hl, rfl, fun j c hj hc => ?_, fun a ha' => ?_⟩
    · exact read_writeRange_inside _ _ _ _ _ ((getElem?_nextBytes hj).trans hc)
    · have hlen := length_nextBytes_le s.sd m
      exact read_writeRange_outside _ _ (by omega)
  · exact exec_sdClose_waits hi

end Sys2Proof.Machine
end

section
/-! SUPPORT. The decoder and the encoder by the fields of the command word (30_encoding.md R80–R85): the words that have a
command are those the encoder makes, and what the decoder and the opcode table answer on one and on any other word. -/

namespace Sys2Proof

/-! ## The decoder on an encoded word (R81–R84) -/

@[simp] theorem fieldsOf_encode (i : Instr) : fieldsOf (encode i) = i.fields := fieldsOf_wordOf _

/-- A word has the command whose fields it has. -/
theorem encode_of_fields {i : Instr} {w : Word} (h : i.fields = fieldsOf w) : encode i = w := by
  rw [encode, h, wordOf_fieldsOf]

/-- Every command's word decodes to it, but for ENCGRP with CNT = 0 (R84(d)). -/
theorem decode_encode (i : Instr) : decode (encode i) = if i.wellFormed then .ok i else .error .zeroCount := by
  cases i with
  | encgrp cnt => by_cases h : cnt = 0 <;> simp [decode, Instr.fields, decodeOperands, Instr.wellFormed, h]
  | openSink | seWrite _ | openSource => simp [decode, Instr.fields, decodeOperands, Instr.wellFormed]
  | decq | benc | bdec | seWriten | seFlush | seClose | sdRead | sdReadn | sdClose =>
    simp [decode, Instr.fields, decodeOperands, plainCommand, Instr.wellFormed]

/-- Settles O2: the fields of the word are those of the command, and each operand passes its checks. -/
theorem decodeOfEncodeIsTheCommand : Obligations.DecodeOfEncodeIsTheCommand := by
  unfold Obligations.DecodeOfEncodeIsTheCommand
  intro i hi
  rw [decode_encode, if_pos hi]

/-- Settles O1: each word of the table is the word of its command. -/
theorem specWordsDecodeToTheirCommands : Obligations.SpecWordsDecodeToTheirCommands :=
  have h := decodeOfEncodeIsTheCommand
  ⟨h (.encgrp 1) rfl, h (.encgrp 2) rfl, h (.encgrp 3) rfl, h .decq rfl, h .benc rfl, h .bdec rfl, h .openSink rfl,
    h (.seWrite 0x61) rfl, h .seWriten rfl, h .seFlush rfl, h .seClose rfl, h .openSource rfl, h .sdRead rfl,
    h .sdReadn rfl, h .sdClose rfl⟩

/-! ## A word the decoder takes (R84) -/

/-- The command of an operation, with the operands the fields give it (R82). -/
def Opcode.instr (f : Fields) : Opcode → Instr
  | .encgrp => .encgrp f.cnt
  | .decq => .decq
  | .benc => .benc
  | .bdec => .bdec
  | .openSink => .openSink
  | .seWrite => .seWrite f.imm8
  | .seWriten => .seWriten
  | .seFlush => .seFlush
  | .seClose => .seClose
  | .openSource => .openSource
  | .sdRead => .sdRead
  | .sdReadn => .sdReadn
  | .sdClose => .sdClose

/-- The fields an operation does not use, and the reserved bits, are 0, and DIR is its own (R84(b), (c), (e)). -/
def Opcode.admits (f : Fields) (op : Opcode) : Prop :=
  f.reserved = 0 ∧ (f.imm8 = 0 ∨ op = .seWrite) ∧ (f.cnt = 0 ∨ op = .encgrp) ∧
    f.dir = if op = .openSource then 1 else 0

/-- Those are the fields of its command. -/
theorem fields_instr_of_admits {f : Fields} {op : Opcode} (ho : f.opc = op.byte) (h : op.admits f) :
    (op.instr f).fields = f := by
  obtain ⟨hr, hi, hc, hd⟩ := h
  cases f
  cases op <;> simp_all [Instr.fields, Opcode.instr]

/-- An operation whose fields are not its own is rejected, and not for its count (R84(c), (e)). -/
theorem decodeOperands_of_not_admits {f : Fields} {op : Opcode} (hr : f.reserved = 0) (h : ¬ op.admits f) :
    ∃ e, decodeOperands f op = .error e ∧ e ≠ .zeroCount := by
  cases op with
  | encgrp =>
    have hu : ¬ (f.imm8 = 0 ∧ f.dir = 0) := fun hu => h ⟨hr, .inl hu.1, .inr rfl, hu.2⟩
    exact ⟨.unusedField, if_neg hu, by decide⟩
  | seWrite =>
    have hu : ¬ (f.cnt = 0 ∧ f.dir = 0) := fun hu => h ⟨hr, .inr rfl, .inl hu.1, hu.2⟩
    exact ⟨.unusedField, if_neg hu, by decide⟩
  | openSink =>
    by_cases hu : f.imm8 = 0 ∧ f.cnt = 0
    · have hd : ¬ f.dir = 0 := fun hd => h ⟨hr, .inl hu.1, .inl hu.2, hd⟩
      exact ⟨.wrongDirection, (if_pos hu).trans (if_neg hd), by decide⟩
    · exact ⟨.unusedField, if_neg hu, by decide⟩
  | openSource =>
    by_cases hu : f.imm8 = 0 ∧ f.cnt = 0
    · have hd : ¬ f.dir = 1 := fun hd => h ⟨hr, .inl hu.1, .inl hu.2, hd⟩
      exact ⟨.wrongDirection, (if_pos hu).trans (if_neg hd), by decide⟩
    · exact ⟨.unusedField, if_neg hu, by decide⟩
  | decq | benc | bdec | seWriten | seFlush | seClose | sdRead | sdReadn | sdClose =>
    have hu : ¬ (f.imm8 = 0 ∧ f.cnt = 0 ∧ f.dir = 0) := fun ⟨hi, hc, hd⟩ => h ⟨hr, .inl hi, .inl hc, hd⟩
    exact ⟨.unusedField, if_neg hu, by decide⟩

/-- No two operations share a byte (R81). -/
theorem opcode_byte_injective : Function.Injective Opcode.byte := fun op op' h => by
  simpa [h] using (opcodeOf_byte op).symm

/-- The other value of a one-bit field. -/
theorem bit_eq_one_iff : ∀ d : BitVec 1, d = 1 ↔ d ≠ 0 := by decide

open Machine in
/-- A word that meets none of R84's letters has the fields of its operation. -/
theorem admits_of_not_illegalWord {w : Word} {op : Opcode} (ho : (fieldsOf w).opc = op.byte) (h : ¬ illegalWord w) :
    op.admits (fieldsOf w) := by
  simp only [illegalWord, ho, not_or, not_and, not_not] at h
  obtain ⟨-, hr, hi, hc, hd, -, hsink, hsource⟩ := h
  refine ⟨hr, Classical.or_iff_not_imp_left.mpr fun hne => opcode_byte_injective (hi hne),
    Classical.or_iff_not_imp_left.mpr fun hne => opcode_byte_injective (hc hne), ?_⟩
  split
  · next hs => exact (bit_eq_one_iff _).mpr (hsource (congrArg Opcode.byte hs))
  · next hs =>
    by_contra hne
    have hk : op.byte ≠ 0x20 := fun hk => hsink hk ((bit_eq_one_iff _).mpr hne)
    exact hs (opcode_byte_injective (hd hne hk))

open Machine in
/-- Only ENCGRP with CNT = 0 has an illegal word (R84(d)). -/
theorem illegalWord_encode (i : Instr) : illegalWord (encode i) ↔ i.wellFormed = false := by
  cases i <;> simp [illegalWord, Instr.fields, Instr.wellFormed, Opcode.byte, opcodeOf]

open Machine in
/-- A word is some command's, or illegal and rejected, under a letter of R84 other than (d). -/
theorem encode_or_illegal (w : Word) :
    (∃ i, encode i = w) ∨ (illegalWord w ∧ ∃ e, decode w = .error e ∧ e ≠ .zeroCount) := by
  cases hop : opcodeOf (fieldsOf w).opc with
  | none => exact .inr ⟨.inl hop, .reservedOpcode, by rw [decode, hop], by decide⟩
  | some op =>
    by_cases hr : (fieldsOf w).reserved = 0
    · have ho := opcodeOf_eq_some.mp hop
      by_cases ha : op.admits (fieldsOf w)
      · exact .inl ⟨op.instr (fieldsOf w), encode_of_fields (fields_instr_of_admits ho ha)⟩
      · have hd : decode w = decodeOperands (fieldsOf w) op := by simp only [decode, hop, if_pos hr]
        rw [hd]
        exact .inr ⟨by_contra fun hn => ha (admits_of_not_illegalWord ho hn), decodeOperands_of_not_admits hr ha⟩
    · exact .inr ⟨.inr (.inl hr), .reservedBits, by simp only [decode, hop, if_neg hr], by decide⟩

/-- No command has the word exactly where it is rejected under a letter other than (d). -/
theorem not_encode_iff (w : Word) : (∀ i, encode i ≠ w) ↔ ∃ e, decode w = .error e ∧ e ≠ .zeroCount := by
  constructor
  · intro h
    rcases encode_or_illegal w with ⟨i, hi⟩ | ⟨-, he⟩
    · exact absurd hi (h i)
    · exact he
  · rintro ⟨e, he, hz⟩ i rfl
    rw [decode_encode] at he
    split at he <;> cases he
    exact hz rfl

/-- Settles O3: a word with no command is rejected, and of those with one only well-formed commands are taken. -/
theorem encodeOfDecodeIsTheWord : Obligations.EncodeOfDecodeIsTheWord := by
  unfold Obligations.EncodeOfDecodeIsTheWord
  intro w i h
  rcases encode_or_illegal w with ⟨j, rfl⟩ | ⟨-, e, he, -⟩
  · rw [decode_encode] at h
    split at h
    · cases h
      exact ⟨‹_›, rfl⟩
    · cases h
  · rw [h] at he
    cases he

/-! ## The opcode table (R85) -/

open Laws
open Laws.EncodingInItsRow (mnemonicOf)

/-- The fields of a masked word are the masked fields. -/
theorem fields_of_and_eq {w : Word} {m : Fields} {i : Instr} (h : w &&& wordOf m = encode i) :
    { opc := (fieldsOf w).opc &&& m.opc, imm8 := (fieldsOf w).imm8 &&& m.imm8, cnt := (fieldsOf w).cnt &&& m.cnt,
      dir := (fieldsOf w).dir &&& m.dir, reserved := (fieldsOf w).reserved &&& m.reserved : Fields } = i.fields := by
  rw [← fieldsOf_encode, ← h, ← wordOf_inj, ← wordOf_and_wordOf, wordOf_fieldsOf, wordOf_fieldsOf]

/-- The row of a command without operands: one word, every bit of it fixed. -/
def operandlessRow (i : Instr) : Row :=
  { mnemonic := mnemonicOf i, pattern := encode i, mask := 0xFFFFFFFF, read := fun _ => i }

/-- The row of ENCGRP, which leaves CNT open. -/
def encgrpRow : Row :=
  { mnemonic := "ENCGRP", pattern := encode (.encgrp 0),
    mask := wordOf { opc := .allOnes 8, imm8 := .allOnes 8, cnt := 0, dir := .allOnes 1, reserved := .allOnes 13 },
    read := fun w => .encgrp (fieldsOf w).cnt }

/-- The row of SE_WRITE, which leaves IMM8 open. -/
def seWriteRow : Row :=
  { mnemonic := "SE_WRITE", pattern := encode (.seWrite 0),
    mask := wordOf { opc := .allOnes 8, imm8 := 0, cnt := .allOnes 2, dir := .allOnes 1, reserved := .allOnes 13 },
    read := fun w => .seWrite (fieldsOf w).imm8 }

/-- The table is those rows. -/
theorem opcodeTable_eq : opcodeTable =
    encgrpRow :: [Instr.decq, .benc, .bdec, .openSink].map operandlessRow ++
      seWriteRow :: [Instr.seWriten, .seFlush, .seClose, .openSource, .sdRead, .sdReadn, .sdClose].map operandlessRow :=
  rfl

/-- Which rows the table has: two that read an operand, and those of commands that are well formed without one. -/
theorem row_cases {r : Row} (hr : r ∈ opcodeTable) : r = encgrpRow ∨ r = seWriteRow ∨
    ∃ i, r = operandlessRow i ∧ i.wellFormed = true ∧ mnemonicOf i ≠ "ENCGRP" := by
  have h1 : ∀ i ∈ [Instr.decq, .benc, .bdec, .openSink], i.wellFormed = true ∧ mnemonicOf i ≠ "ENCGRP" := by decide
  have h2 : ∀ i ∈ [Instr.seWriten, .seFlush, .seClose, .openSource, .sdRead, .sdReadn, .sdClose],
      i.wellFormed = true ∧ mnemonicOf i ≠ "ENCGRP" := by decide
  rw [opcodeTable_eq, List.mem_append, List.mem_cons, List.mem_cons, List.mem_map, List.mem_map] at hr
  rcases hr with (rfl | ⟨i, hi, rfl⟩) | rfl | ⟨i, hi, rfl⟩
  · exact .inl rfl
  · exact .inr (.inr ⟨i, rfl, h1 i hi⟩)
  · exact .inr (.inl rfl)
  · exact .inr (.inr ⟨i, rfl, h2 i hi⟩)

/-- A row's words are the words of the command it reads from them. -/
theorem encode_read_of_takes {r : Row} {w : Word} (hr : r ∈ opcodeTable) (h : r.takes w = true) :
    encode (r.read w) = w := by
  have hm : w &&& r.mask = r.pattern := by simpa [Row.takes] using h
  rcases row_cases hr with rfl | rfl | ⟨i, rfl, -, -⟩
  · obtain ⟨ho, hi, -, hd, hr⟩ := Fields.mk.inj (fields_of_and_eq hm)
    simp only [BitVec.and_allOnes] at ho hi hd hr
    exact encode_of_fields (by simp only [Instr.fields, encgrpRow, ← ho, ← hi, ← hd, ← hr])
  · obtain ⟨ho, -, hc, hd, hr⟩ := Fields.mk.inj (fields_of_and_eq hm)
    simp only [BitVec.and_allOnes] at ho hc hd hr
    exact encode_of_fields (by simp only [Instr.fields, seWriteRow, ← ho, ← hc, ← hd, ← hr])
  · exact hm.symm.trans (BitVec.and_allOnes (x := w))

/-- The rows that take a command's word are its own (R85). -/
theorem rows_of_encode (i : Instr) :
    (opcodeTable.filter fun r => r.takes (encode i)).map Row.mnemonic = [mnemonicOf i] := by
  cases i with
  | encgrp cnt => exact EncodingInItsRow.encgrp cnt
  | decq => exact EncodingInItsRow.decq
  | benc => exact EncodingInItsRow.benc
  | bdec => exact EncodingInItsRow.bdec
  | openSink => exact EncodingInItsRow.openSink
  | seWrite imm8 => exact EncodingInItsRow.seWrite imm8
  | seWriten => exact EncodingInItsRow.seWriten
  | seFlush => exact EncodingInItsRow.seFlush
  | seClose => exact EncodingInItsRow.seClose
  | openSource => exact EncodingInItsRow.openSource
  | sdRead => exact EncodingInItsRow.sdRead
  | sdReadn => exact EncodingInItsRow.sdReadn
  | sdClose => exact EncodingInItsRow.sdClose

/-- A row takes a word exactly where the word has a command. -/
theorem exists_row_iff (w : Word) : (∃ r ∈ opcodeTable, r.takes w = true) ↔ ∃ i, encode i = w := by
  constructor
  · rintro ⟨r, hr, ht⟩
    exact ⟨r.read w, encode_read_of_takes hr ht⟩
  · rintro ⟨i, rfl⟩
    have hne : opcodeTable.filter (fun r => r.takes (encode i)) ≠ [] := fun h => by simpa [h] using rows_of_encode i
    obtain ⟨r, hr⟩ := List.exists_mem_of_ne_nil _ hne
    exact ⟨r, List.mem_filter.mp hr⟩

/-- No row takes a word that is rejected under a letter of R84 other than (d), and only such a word. -/
theorem no_row_iff (w : Word) :
    (∀ r ∈ opcodeTable, r.takes w = false) ↔ ∃ e, decode w = .error e ∧ e ≠ .zeroCount := by
  rw [← not_encode_iff]
  have h := not_congr (exists_row_iff w)
  simpa using h

/-- A row that takes a command's word is the command's own. -/
theorem mnemonic_of_takes {r : Row} {i : Instr} (hr : r ∈ opcodeTable) (ht : r.takes (encode i) = true) :
    r.mnemonic = mnemonicOf i := by
  have hm : r.mnemonic ∈ (opcodeTable.filter fun r => r.takes (encode i)).map Row.mnemonic :=
    List.mem_map_of_mem (List.mem_filter.mpr ⟨hr, ht⟩)
  rw [rows_of_encode] at hm
  exact List.mem_singleton.mp hm

/-- The check beside the rows (R85): only ENCGRP's row reads a command that is not well formed, and only from CNT = 0. -/
theorem wellFormed_read {r : Row} (hr : r ∈ opcodeTable) (w : Word) :
    (r.read w).wellFormed = false ↔ r.mnemonic = "ENCGRP" ∧ w.extractLsb' 16 2 = 0 := by
  rcases row_cases hr with rfl | rfl | ⟨i, rfl, hi, hn⟩
  · simp [encgrpRow, Instr.wellFormed, fieldsOf]
  · simp [seWriteRow, Instr.wellFormed]
  · simp [operandlessRow, hi, hn]

/-- The decoder on a word that a row takes. -/
theorem decode_of_takes {r : Row} {w : Word} (hr : r ∈ opcodeTable) (ht : r.takes w = true) :
    decode w = if (r.read w).wellFormed then .ok (r.read w) else .error .zeroCount := by
  rw [← decode_encode, encode_read_of_takes hr ht]

/-- The first row that takes a word gives what the decoder gives. -/
theorem decodeByTable_eq (w : Word) : decodeByTable w = (decode w).toOption := by
  unfold decodeByTable
  cases hf : opcodeTable.find? fun r => r.takes w with
  | none =>
    obtain ⟨e, he, -⟩ := (no_row_iff w).mp (by simpa using hf)
    rw [he]
    rfl
  | some r =>
    rw [decode_of_takes (List.mem_of_find?_eq_some hf) (by simpa using List.find?_some hf)]
    dsimp only
    cases (r.read w).wellFormed <;> rfl

/-- Settles O4: rows and commands go together, and a row's word has the command the row reads. -/
theorem tableDecoderIsTheDecoder : Obligations.TableDecoderIsTheDecoder := by
  unfold Obligations.TableDecoderIsTheDecoder
  refine ⟨fun w r r' hr hr' ht ht' => ?_, no_row_iff, fun w r hr ht => ?_, decodeByTable_eq⟩
  · have hw := encode_read_of_takes hr ht
    rw [← hw] at ht ht'
    rw [mnemonic_of_takes hr ht, mnemonic_of_takes hr' ht']
  · rw [decode_of_takes hr ht]
    split
    · next hz => rw [(wellFormed_read hr w).mpr hz, if_neg (by decide)]
    · next hz =>
      rw [if_pos]
      simpa using mt (wellFormed_read hr w).mp hz

end Sys2Proof
end

section
/-! SUPPORT. What the host's writes to CMD do with a word (30_encoding.md R84, R86): an illegal word, and an assembly line's. -/

namespace Sys2Proof.Machine

/-! ## Illegal words (R84) -/

/-- The decoder rejects exactly R84's words. -/
theorem decode_error_iff (w : Word) : (∃ e, decode w = .error e) ↔ illegalWord w := by
  rcases encode_or_illegal w with ⟨i, rfl⟩ | ⟨hw, e, he, -⟩
  · rw [illegalWord_encode, decode_encode]
    cases i.wellFormed <;> simp
  · exact ⟨fun _ => hw, fun _ => ⟨e, he⟩⟩

/-- A fault on an idle block changes STATUS alone (R205). -/
theorem takeFault_on_idle {s : State} (hf : s.faulted = false) (hb : s.busy = false) (hr : s.running = none)
    (c : StatusCode) : takeFault c s = { s with faulted := true, code := c } := by
  rw [takeFault_of_not_faulted c hf, ← hb, ← hr]

/-- An illegal word that the block takes its time over is held, and latches nothing (log 12). -/
theorem cmdWriteSlowly_of_illegal {s : State} {w : Word} {e : Illegal} (hf : s.faulted = false) (hb : s.busy = false)
    (hw : decode w = .error e) : cmdWriteSlowly w s = hold .illegal { s with busy := true } := by
  simp [cmdWriteSlowly, hf, hb, hw]

/-- Settles O5: an illegal word faults in its own step, or is held and faults in the next. -/
theorem illegalWordsFaultAndChangeOnlyStatus : Obligations.IllegalWordsFaultAndChangeOnlyStatus := by
  unfold Obligations.IllegalWordsFaultAndChangeOnlyStatus
  refine ⟨decode_error_iff, fun w s rest hw hf hb hr => ?_⟩
  obtain ⟨e, he⟩ := (decode_error_iff w).mpr hw
  have hfault := takeFault_on_idle (s := { s with inputs := rest }) hf hb hr .faultIllegalCmd
  refine ⟨fun hi => ?_, fun hi => ⟨_, ?_, rfl, ?_⟩⟩
  · rw [step_of_input hi]
    exact (cmdWrite_of_illegal (s := { s with inputs := rest }) hf hb he).trans (congrArg _ hfault)
  · rw [step_of_input hi]
    exact congrArg Host.Outcome.next (cmdWriteSlowly_of_illegal (s := { s with inputs := .proceed :: rest }) hf hb he)
  · rw [step_of_proceed rfl rfl, goOn, ← hfault]
    rfl

/-! ## Assembly lines (R86) -/

/-- A line's last move, on an idle block, runs its command on the ARG registers as they stand (R202). -/
theorem makeMoves_cmdWrite {i : Instr} {s : State} (hi : i.wellFormed = true) (hf : s.faulted = false)
    (hb : s.busy = false) : makeMoves [.regWrite 0 (encode i)] s = exec i (latch s) := by
  have h : takeInput (.regWrite 0 (encode i)) s = exec i (latch s) :=
    cmdWrite_of_command hf hb (decodeOfEncodeIsTheCommand i hi)
  rw [makeMoves, h]
  cases exec i (latch s) <;> rfl

/-- A line whose ARG writes leave `g` in ARG0–ARG3 runs its command on `g` (R86, R222). -/
theorem makeMoves_line {l : Line} {s : State} {g : Args} (hg : makeMoves l.moves s =
      makeMoves [.regWrite 0 (encode l.instr)] { s with arg := g }) (hl : l.instr.wellFormed = true)
    (hf : s.faulted = false) (hb : s.busy = false) :
    makeMoves l.moves s = exec l.instr { s with arg := g, latched := g, busy := true } :=
  hg.trans (makeMoves_cmdWrite (s := { s with arg := g }) hl hf hb)

/-- Settles O60: each ARG write stores its word, and the CMD write latches them. -/
theorem lineIssuesItsCommand : Obligations.LineIssuesItsCommand := by
  unfold Obligations.LineIssuesItsCommand
  intro s src len dst cap b s0 s1 s2 s3 n hf hb
  refine ⟨fun hn => ?_, ?_, makeMoves_line rfl rfl hf hb, makeMoves_line rfl rfl hf hb, makeMoves_line rfl rfl hf hb,
    makeMoves_line rfl rfl hf hb, fun l hl => ?_⟩
  · rw [← packBytes_three]
    exact makeMoves_line rfl (by simpa [Line.instr, Instr.wellFormed] using hn) hf hb
  · rw [← packBytes_four]
    exact makeMoves_line rfl rfl hf hb
  · have hm : l.moves = [.regWrite 0 (encode l.instr)] ∧ l.instr.wellFormed = true := by
      simp only [List.mem_cons, List.not_mem_nil, or_false] at hl
      rcases hl with rfl | rfl | rfl | rfl | rfl | rfl | rfl <;> exact ⟨rfl, rfl⟩
    exact makeMoves_line (g := s.arg) (by rw [hm.1]) hm.2 hf hb

end Sys2Proof.Machine
end

section
/-! SUPPORT. The operand bits that a command does not read (30_encoding.md R83): other operands go through its operations. -/

namespace Sys2Proof.Machine

/-- The operands a command was given, replaced (R29). -/
def putLatched (g : Args) (s : State) : State := { s with latched := g }

@[simp] theorem putLatched_se (g : Args) (s : State) : (putLatched g s).se = s.se := rfl
@[simp] theorem putLatched_sd (g : Args) (s : State) : (putLatched g s).sd = s.sd := rfl
@[simp] theorem putLatched_running (g : Args) (s : State) : (putLatched g s).running = s.running := rfl

/-- The range (A0, A1) of SE_WRITEN and SD_READN is the same in `g` as latched in `s` (R83). -/
structure SameRange (g : Args) (s : State) : Prop where
  a0 : g.a0 = s.latched.a0
  a1 : g.a1 = s.latched.a1

section
variable (g : Args) (s : State)

theorem complete_putLatched (c : StatusCode) (x y : Word) :
    complete c x y (putLatched g s) = putLatched g (complete c x y s) := by
  unfold complete putLatched
  split <;> rfl

/-! ## Stream Encoder: no operand after the start -/

theorem sePush_putLatched (b : Byte) : sePush b (putLatched g s) = putLatched g (sePush b s) := rfl

theorem seWriteMany_putLatched (bytes : List Byte) (k : Nat) :
    seWriteMany k bytes (putLatched g s) = putLatched g (seWriteMany k bytes s) := by
  induction bytes generalizing k s with
  | nil => exact complete_putLatched _ _ _ _ _
  | cons b bytes ih =>
    rw [seWriteMany, seWriteMany, sePush_putLatched, putLatched_se]
    split
    · rfl
    · exact ih _ _

theorem seWriteOne_putLatched (b : Byte) : seWriteOne b (putLatched g s) = putLatched g (seWriteOne b s) := by
  rw [seWriteOne, seWriteOne, sePush_putLatched, putLatched_se]
  split
  · rfl
  · exact complete_putLatched _ _ _ _ _

theorem seGroupDone_putLatched (m : SeMore) : seGroupDone m (putLatched g s) = putLatched g (seGroupDone m s) := by
  cases m with
  | one => exact complete_putLatched g { s with se := { s.se with count := 0 } } _ _ _
  | many k rest => exact seWriteMany_putLatched g { s with se := { s.se with count := 0 } } _ _

theorem seFlushBody_putLatched (closing : Bool) :
    seFlushBody closing (putLatched g s) = putLatched g (seFlushBody closing s) := by
  unfold seFlushBody
  rw [putLatched_se]
  split <;> rfl

theorem seAcked_putLatched (w : SeWait) : seAcked w (putLatched g s) = putLatched g (seAcked w s) := by
  unfold seAcked
  split
  · rfl
  · unfold seSymbolsSent
    rw [putLatched_se]
    split
    · rfl
    · exact seGroupDone_putLatched g { s with se := { s.se with line := s.se.line + 4 } } _
  · exact seGroupDone_putLatched g { s with se := { s.se with line := 0 } } _
  · rfl
  · rfl
  · rfl
  · exact complete_putLatched _ _ _ _ _
  · exact complete_putLatched g { s with se := { s.se with state := .closed } } _ _ _

theorem seAnswered_putLatched (w : SeWait) (a : Ack) :
    seAnswered w a (putLatched g s) = putLatched g (seAnswered w a s) := by
  cases a with
  | ack => exact seAcked_putLatched g (observe (.sink w.request (some .ack)) s) w
  | fail e =>
    exact complete_putLatched g { observe (.sink w.request (some (.fail e))) s with
      se := { s.se with state := .failed } } _ _ _

/-! ## Stream Decoder: no operand in SD_READ and SD_CLOSE -/

theorem sdReadGoesOn_putLatched (a : ReadAnswer) :
    sdReadGoesOn a (putLatched g s) = putLatched g (sdReadGoesOn a s) := by
  have h : sdReadGoesOn a (putLatched g s) = sdReadOn (sdFillStep s.params a s.sd) (putLatched g s) := rfl
  rw [h, sdReadGoesOn]
  generalize sdFillStep s.params a s.sd = r
  unfold sdReadOn
  split
  · rfl
  · exact complete_putLatched g { s with sd := (sdServe r.2).2 } _ _ _
  · exact complete_putLatched g { s with sd := r.2 } _ _ _
  · exact complete_putLatched g { s with sd := { r.2 with phase := .failed } } _ _ _

theorem sdReadAnswered_putLatched (a : ReadAnswer) :
    sdReadAnswered a (putLatched g s) = putLatched g (sdReadAnswered a s) :=
  sdReadGoesOn_putLatched g (observe (.sourceRead (some a)) s) a

theorem sdCloseAnswered_putLatched (a : Ack) :
    sdCloseAnswered a (putLatched g s) = putLatched g (sdCloseAnswered a s) := by
  cases a with
  | ack =>
    exact complete_putLatched g { observe (.sourceClose (some .ack)) s with sd := { s.sd with phase := .closed } } _ _ _
  | fail e =>
    exact complete_putLatched g { observe (.sourceClose (some (.fail e))) s with
      sd := { s.sd with phase := .failed } } _ _ _

end

/-! ## SD_READN reads its range alone (R167) -/

section
variable {g : Args} {s : State}

theorem sdReadNEos_putLatched (k : Nat) : sdReadNEos k (putLatched g s) = putLatched g (sdReadNEos k s) := by
  unfold sdReadNEos
  split <;> exact complete_putLatched _ _ _ _ _

theorem sdStore_putLatched (h : SameRange g s) (k : Nat) :
    sdStore k (putLatched g s) = putLatched g (sdStore k s) := by
  unfold sdStore putLatched
  rw [h.a0]

theorem sdReadUpTo_putLatched (h : SameRange g s) (n left k : Nat) :
    sdReadUpTo n left k (putLatched g s) = putLatched g (sdReadUpTo n left k s) := by
  induction left generalizing n k s with
  | zero => rw [sdReadUpTo_zero, sdReadUpTo_zero, complete_putLatched]
  | succ left ih =>
    cases n with
    | zero => rfl
    | succ n =>
      rw [sdReadUpTo, sdReadUpTo, putLatched_sd, sdStore_putLatched h]
      split
      · exact sdReadNEos_putLatched k
      · split
        · rfl
        · exact ih (s := sdStore k s) ⟨h.a0, h.a1⟩ _ _

theorem sdReadNOn_putLatched (h : SameRange g s) (n k : Nat) (r : FillStep × SdUnit) :
    sdReadNOn n k r (putLatched g s) = putLatched g (sdReadNOn n k r s) := by
  have hl : (putLatched g s).latched.a1 = s.latched.a1 := h.a1
  unfold sdReadNOn
  rw [hl]
  split
  · rfl
  · exact sdReadUpTo_putLatched (s := { s with sd := r.2 }) ⟨h.a0, h.a1⟩ _ _ _
  · exact sdReadNEos_putLatched (s := { s with sd := r.2 }) k
  · exact complete_putLatched g { s with sd := { r.2 with phase := .failed } } _ _ _

theorem sdReadNAnswered_putLatched (h : SameRange g s) (k : Nat) (a : ReadAnswer) :
    sdReadNAnswered k a (putLatched g s) = putLatched g (sdReadNAnswered k a s) := by
  have hl : (putLatched g s).latched.a1 = s.latched.a1 := h.a1
  unfold sdReadNAnswered
  rw [hl]
  exact sdReadNOn_putLatched (s := observe (.sourceRead (some a)) s) ⟨h.a0, h.a1⟩ _ _ _

end

/-! ## The answers -/

/-- Only an SD_READN reads operands when an answer comes. -/
theorem answered_putLatched {g : Args} {s : State}
    (h : ∀ k, s.running = some (.sd (.readN k)) → SameRange g s) (i : Input) :
    answered i (putLatched g s) = (answered i s).map (putLatched g) := by
  unfold answered
  rw [putLatched_running]
  split
  · rfl
  · cases i <;> simp [seAnswered_putLatched]
  · cases i <;> simp [sdReadAnswered_putLatched]
  · next k hk => cases i <;> simp [sdReadNAnswered_putLatched (h k hk)]
  · cases i <;> simp [sdCloseAnswered_putLatched]
  · rfl

/-- A command goes over the answers in place alike where its work `P` names no other range. -/
theorem drive_putLatched {g : Args} {P : State → Prop} {s : State} (hs : P s)
    (hrange : ∀ u, P u → ∀ k, u.running = some (.sd (.readN k)) → SameRange g u)
    (hkeep : ∀ i u u', P u → answered i u = some u' → P u') :
    drive (putLatched g s) = putLatched g (drive s) := by
  have h : ∀ is, driveOn is (putLatched g s) = putLatched g (driveOn is s) := by
    intro is
    induction is generalizing s with
    | nil => rfl
    | cons i is ih =>
      rw [driveOn, driveOn, answered_putLatched (hrange s hs)]
      cases ha : answered i s with
      | none => rfl
      | some s' => exact ih (hkeep i s s' hs ha)
  exact h s.inputs

theorem drive_putLatched_of_sinkWork {g : Args} {s u : State} (h : SinkWork s u) :
    drive (putLatched g u) = putLatched g (drive u) := by
  refine drive_putLatched h (fun v hv k hk => ?_) fun _ _ _ hv ha => (sinkWork_answered hv ha).2
  obtain ⟨w, hw⟩ := hv.waits _ hk
  cases hw

theorem drive_putLatched_of_sourceWork {g : Args} {s u : State} (h : SourceWork s u) :
    drive (putLatched g u) = putLatched g (drive u) := by
  refine drive_putLatched h (fun v hv k hk => ?_) fun _ _ _ hv ha => (sourceWork_answered hv ha).2
  rcases hv.waits _ hk with hw | hw <;> cases hw

theorem drive_putLatched_of_readNWork {g : Args} {s u : State} (hg : SameRange g s) (h : ReadNWork 0 s u) :
    drive (putLatched g u) = putLatched g (drive u) := by
  refine drive_putLatched h (fun v hv k _ => ?_) fun _ _ _ hv ha => (readNWork_answered hv ha).2
  have hl := readNWork_latched hv
  exact ⟨by rw [hl, hg.a0], by rw [hl, hg.a1]⟩

/-! ## The commands -/

theorem requireOpenSe_putLatched (g : Args) (s body : State) :
    requireOpenSe (putLatched g s) (putLatched g body) = putLatched g (requireOpenSe s body) := by
  unfold requireOpenSe
  rw [putLatched_se]
  cases s.se.state <;> rfl

theorem requireOpenSd_putLatched (g : Args) (s body : State) :
    requireOpenSd (putLatched g s) (putLatched g body) = putLatched g (requireOpenSd s body) := by
  unfold requireOpenSd
  rw [putLatched_sd]
  cases s.sd.phase <;> rfl

/-- Command `i` does on operands `g` what it does on those that `s` has latched. -/
def ReadsAlike (g : Args) (i : Instr) (s : State) : Prop :=
  ∀ t, exec i s = .next t → exec i (putLatched g s) = .next (putLatched g t)

/-- What waited before a command began makes no difference to it. -/
theorem exec_putRunning (i : Instr) (r : Option Waiting) (s : State) : exec i (putRunning r s) = exec i s := by
  obtain ⟨b, hb, he⟩ := exec_factors i
  rw [he, he, hb _ _ (putRunning_bystander r)]
  rfl

/-- So a command may be looked at from an idle block. -/
theorem readsAlike_of_idle {g : Args} {i : Instr} {s : State} (h : ReadsAlike g i { s with running := none }) :
    ReadsAlike g i s := by
  intro t ht
  rw [← exec_putRunning i none] at ht ⊢
  exact h t ht

section
variable {g : Args} {s : State}

/-- A Stream Encoder command reads what it does on an Open unit reads (R141). -/
theorem readsAlike_of_requireOpenSe {i : Instr} {body : State → State}
    (he : ∀ u, exec i u = .next (requireOpenSe u (body u))) (hb : body (putLatched g s) = putLatched g (body s)) :
    ReadsAlike g i s := by
  intro t ht
  rw [he] at ht ⊢
  cases ht
  rw [hb, requireOpenSe_putLatched]

/-- A Stream Decoder command reads what it does on a bound unit reads (R161). -/
theorem readsAlike_of_requireOpenSd {i : Instr} {body : State → State}
    (he : ∀ u, exec i u = .next (requireOpenSd u (body u))) (hb : body (putLatched g s) = putLatched g (body s)) :
    ReadsAlike g i s := by
  intro t ht
  rw [he] at ht ⊢
  cases ht
  rw [hb, requireOpenSd_putLatched]

/-- ENCGRP reads the bytes its group takes (R100). -/
theorem readsAlike_encgrp {n : BitVec 2} (h : encodeGroup (byte0 g.a0) (byte1 g.a0) (byte2 g.a0) n =
    encodeGroup (byte0 s.latched.a0) (byte1 s.latched.a0) (byte2 s.latched.a0) n) : ReadsAlike g (.encgrp n) s := by
  intro t ht
  rw [exec, execEncgrp] at ht ⊢
  split at ht <;> cases ht
  · rw [if_pos ‹_›]
    rfl
  · rw [if_neg ‹_›, ← h, ← complete_putLatched]
    rfl

theorem readsAlike_decq (h : g.a0 = s.latched.a0) : ReadsAlike g .decq s := by
  intro t ht
  cases ht
  refine congrArg Host.Outcome.next ?_
  rw [← complete_putLatched, ← h]
  rfl

theorem readsAlike_openSink : ReadsAlike g .openSink s := by
  intro t ht
  rw [exec, execOpenSink] at ht ⊢
  rw [putLatched_se]
  split at ht <;> cases ht
  · rw [if_pos ‹_›]
    rfl
  · rw [if_neg ‹_›, ← complete_putLatched]
    rfl

/-- OPEN_SOURCE by whether the unit is bound (R160). -/
theorem exec_openSource (s : State) : exec .openSource s = .next
    (if s.sd.bound then takeFault .faultUnitBusy s else complete .ok 0 0 { s with sd := sdOpened }) := by
  rw [exec, execOpenSource]
  split <;> next h => simp [SdUnit.bound, h]

theorem readsAlike_openSource : ReadsAlike g .openSource s := by
  intro t ht
  rw [exec_openSource] at ht ⊢
  rw [putLatched_sd]
  split at ht <;> cases ht
  · rw [if_pos ‹_›]
    rfl
  · rw [if_neg ‹_›, ← complete_putLatched]
    rfl

end

section
variable {g : Args} {s : State} (hr : s.running = none)
include hr

theorem sinkWork_of_idle : SinkWork s s := .refl (by simp [hr])

theorem readsAlike_seWrite (b : Byte) : ReadsAlike g (.seWrite b) s :=
  readsAlike_of_requireOpenSe (fun _ => rfl) <| by
    rw [seWriteOne_putLatched, drive_putLatched_of_sinkWork (sinkWork_seWriteOne (sinkWork_of_idle hr) b)]

theorem readsAlike_seFlush : ReadsAlike g .seFlush s :=
  readsAlike_of_requireOpenSe (fun _ => rfl) <| by
    rw [seFlushBody_putLatched, drive_putLatched_of_sinkWork (sinkWork_seFlushBody (sinkWork_of_idle hr) false)]

theorem readsAlike_seClose : ReadsAlike g .seClose s :=
  readsAlike_of_requireOpenSe (fun _ => rfl) <| by
    rw [seFlushBody_putLatched, drive_putLatched_of_sinkWork (sinkWork_seFlushBody (sinkWork_of_idle hr) true)]

theorem seWritenBody_putLatched (hg : SameRange g s) : seWritenBody (putLatched g s) = putLatched g (seWritenBody s) := by
  have hw := sinkWork_seWriteMany (sinkWork_of_idle hr)
    (Memory.readRange s.hb s.latched.a0.toNat s.latched.a1.toNat) 0
  have he : seWritenBody (putLatched g s) = if admitted s.params g.a0 g.a1 then
      drive (seWriteMany 0 (Memory.readRange s.hb g.a0.toNat g.a1.toNat) (putLatched g s))
    else takeFault .faultRange (putLatched g s) := rfl
  rw [he, seWritenBody, hg.a0, hg.a1, seWriteMany_putLatched, drive_putLatched_of_sinkWork hw]
  split <;> rfl

theorem sourceWork_of_idle : SourceWork s s := .refl (by simp [hr])

theorem sdReadBody_putLatched : sdReadBody (putLatched g s) = putLatched g (sdReadBody s) := by
  unfold sdReadBody
  rw [putLatched_sd]
  split
  · exact complete_putLatched _ _ _ _ _
  · split
    · exact drive_putLatched_of_sourceWork ((sourceWork_of_idle hr).ask (.inl rfl))
    · exact complete_putLatched g { s with sd := (sdServe s.sd).2 } _ _ _

theorem sdCloseBody_putLatched : sdCloseBody (putLatched g s) = putLatched g (sdCloseBody s) := by
  unfold sdCloseBody
  rw [putLatched_sd]
  split
  · exact drive_putLatched_of_sourceWork ((sourceWork_of_idle hr).ask (.inr rfl))
  · exact complete_putLatched g { s with sd := { s.sd with phase := .failed } } _ _ _

theorem sdReadnBody_putLatched (hg : SameRange g s) : sdReadnBody (putLatched g s) = putLatched g (sdReadnBody s) := by
  have hw : ReadNWork 0 s s := .refl (by simp [hr])
  have he : sdReadnBody (putLatched g s) = drive (if admitted s.params g.a0 g.a1 then
      if g.a1 = 0 then complete .ok 0 0 (putLatched g s)
      else sdReadUpTo g.a1.toNat g.a1.toNat 0 (putLatched g s)
    else takeFault .faultRange (putLatched g s)) := rfl
  rw [he, hg.a0, hg.a1, sdReadnBody, sdReadnBegin, complete_putLatched, sdReadUpTo_putLatched hg]
  split
  · split
    · exact drive_putLatched_of_readNWork hg (hw.complete _ _ _)
    · exact drive_putLatched_of_readNWork hg (readNWork_sdReadUpTo hw (Nat.le_refl 0) (Nat.le_refl _))
  · rw [drive_takeFault, drive_takeFault]
    rfl

end

/-! ## The bits an operand shows -/

/-- A byte inside a mask is the same of two words that agree under it. -/
theorem extractLsb'_of_masked {v w m : Word} {o : Nat} (hm : m.extractLsb' o 8 = BitVec.allOnes 8)
    (h : v &&& m = w &&& m) : v.extractLsb' o 8 = w.extractLsb' o 8 := by
  have hx := congrArg (BitVec.extractLsb' o 8) h
  simpa only [BitVec.extractLsb'_and, hm, BitVec.and_allOnes] using hx

theorem encodeGroup_one_of_masked {v w : Word} (h : v &&& 0xFF = w &&& 0xFF) :
    encodeGroup (byte0 v) (byte1 v) (byte2 v) 1 = encodeGroup (byte0 w) (byte1 w) (byte2 w) 1 := by
  have h0 : byte0 v = byte0 w := extractLsb'_of_masked (by decide) h
  rw [encodeGroup_one, encodeGroup_one, h0]

theorem encodeGroup_two_of_masked {v w : Word} (h : v &&& 0xFFFF = w &&& 0xFFFF) :
    encodeGroup (byte0 v) (byte1 v) (byte2 v) 2 = encodeGroup (byte0 w) (byte1 w) (byte2 w) 2 := by
  have h0 : byte0 v = byte0 w := extractLsb'_of_masked (by decide) h
  have h1 : byte1 v = byte1 w := extractLsb'_of_masked (by decide) h
  rw [encodeGroup_two, encodeGroup_two, h0, h1]

theorem encodeGroup_three_of_masked {v w : Word} (h : v &&& 0xFFFFFF = w &&& 0xFFFFFF) :
    encodeGroup (byte0 v) (byte1 v) (byte2 v) 3 = encodeGroup (byte0 w) (byte1 w) (byte2 w) 3 := by
  have h0 : byte0 v = byte0 w := extractLsb'_of_masked (by decide) h
  have h1 : byte1 v = byte1 w := extractLsb'_of_masked (by decide) h
  have h2 : byte2 v = byte2 w := extractLsb'_of_masked (by decide) h
  rw [h0, h1, h2]

/-- Settles O54: other operands go through each command, from an idle block and hence from any. -/
theorem commandsIgnoreOtherOperandBits : Obligations.CommandsIgnoreOtherOperandBits := by
  unfold Obligations.CommandsIgnoreOtherOperandBits
  intro s t g i ht hi
  refine readsAlike_of_idle ?_ t ht
  rcases hi with ⟨rfl, h⟩ | ⟨rfl, h⟩ | ⟨rfl, h⟩ | ⟨rfl, h⟩ | ⟨rfl | rfl, h0, h1⟩ |
    rfl | ⟨b, rfl⟩ | rfl | rfl | rfl | rfl | rfl
  · exact readsAlike_encgrp (encodeGroup_one_of_masked h)
  · exact readsAlike_encgrp (encodeGroup_two_of_masked h)
  · exact readsAlike_encgrp (encodeGroup_three_of_masked h)
  · exact readsAlike_decq h
  · exact readsAlike_of_requireOpenSe (fun _ => rfl) (seWritenBody_putLatched rfl ⟨h0, h1⟩)
  · exact readsAlike_of_requireOpenSd (fun _ => rfl) (sdReadnBody_putLatched rfl ⟨h0, h1⟩)
  · exact readsAlike_openSink
  · exact readsAlike_seWrite rfl b
  · exact readsAlike_seFlush rfl
  · exact readsAlike_seClose rfl
  · exact readsAlike_openSource
  · exact readsAlike_of_requireOpenSd (fun _ => rfl) (sdReadBody_putLatched rfl)
  · exact readsAlike_of_requireOpenSd (fun _ => rfl) (sdCloseBody_putLatched rfl)

end Sys2Proof.Machine
end

section
/-! SUPPORT. The group codec bit by bit (41_group_codec.md R100–R106): the fields of a group and the bytes of a quartet as
appended pieces, the ends of ENCGRP and DECQ, and DECQ of what ENCGRP left. -/

namespace Sys2Proof.Machine

/-! ## Pieces of words (R63, R64, R82) -/

/-- A piece of a piece. -/
theorem extractLsb'_extractLsb' {w : Nat} (x : BitVec w) {i j n m : Nat} (h : i + n ≤ m) :
    (x.extractLsb' j m).extractLsb' i n = x.extractLsb' (j + i) n := by
  apply BitVec.eq_of_getLsbD_eq
  intro k hk
  simp [hk, show i + k < m by omega, Nat.add_assoc]

/-- A piece that lies over the seam of two appended words. -/
theorem extractLsb'_append_across {v w : Nat} (x : BitVec v) (y : BitVec w) {i n m : Nat} (h : i + m = w) :
    (x ++ y).extractLsb' i (n + m) = x.extractLsb' 0 n ++ y.extractLsb' i m := by
  subst h
  apply BitVec.eq_of_getLsbD_eq
  intro k hk
  simp only [BitVec.getLsbD_extractLsb', BitVec.getLsbD_append, hk, decide_true, Bool.true_and]
  by_cases hm : k < m
  · simp [hm]
  · simp [hm, show k - m < n by omega, show i + k - (i + m) = k - m by omega]

/-- A mask of low ones keeps the low piece. -/
theorem and_lowMask {m k : Nat} (x : BitVec (m + k)) :
    x &&& (0#m ++ BitVec.allOnes k) = 0#m ++ x.extractLsb' 0 k := by
  conv_lhs => rw [← BitVec.extractLsb'_append_extractLsb' (x := x)]
  rw [BitVec.and_append, BitVec.and_zero, BitVec.and_allOnes]

theorem packBytes_one (a : Byte) : packBytes [a] = (0 : BitVec 24) ++ a := packBytes_three a 0 0

theorem packBytes_two (a b : Byte) : packBytes [a, b] = (0 : BitVec 16) ++ b ++ a := packBytes_three a b 0

/-- The low bytes of a word packed again: the word with the other bytes masked off. -/
theorem packBytes_low_one (w : Word) : packBytes [byte0 w] = w &&& 0xFF :=
  (packBytes_one _).trans (and_lowMask (m := 24) (k := 8) w).symm

theorem packBytes_low_two (w : Word) : packBytes [byte0 w, byte1 w] = w &&& 0xFFFF := by
  rw [packBytes_two]
  refine Eq.trans ?_ (and_lowMask (m := 16) (k := 16) w).symm
  rw [← BitVec.extractLsb'_append_extractLsb'_eq_extractLsb' (len₁ := 8) (len₂ := 8) (x := w) rfl]
  exact BitVec.append_assoc

theorem packBytes_low_three (w : Word) : packBytes [byte0 w, byte1 w, byte2 w] = w &&& 0xFFFFFF := by
  rw [packBytes_three]
  refine Eq.trans ?_ (and_lowMask (m := 8) (k := 24) w).symm
  rw [← BitVec.extractLsb'_append_extractLsb'_eq_extractLsb' (len₁ := 16) (len₂ := 8) (x := w) rfl,
    ← BitVec.extractLsb'_append_extractLsb'_eq_extractLsb' (start₂ := 8) (len₁ := 8) (len₂ := 8) (x := w) rfl]
  exact BitVec.append_assoc.trans BitVec.append_assoc

/-- The bytes of a word of four packed bytes. -/
theorem byte0_packBytes (a b c d : Byte) : byte0 (packBytes [a, b, c, d]) = a := by
  rw [packBytes_four, byte0, BitVec.extractLsb'_append_eq_right]

theorem byte1_packBytes (a b c d : Byte) : byte1 (packBytes [a, b, c, d]) = b := by
  rw [packBytes_four, byte1, BitVec.extractLsb'_append_eq_of_le (by decide), BitVec.extractLsb'_append_eq_right]

theorem byte2_packBytes (a b c d : Byte) : byte2 (packBytes [a, b, c, d]) = c := by
  rw [packBytes_four, byte2, BitVec.extractLsb'_append_eq_of_le (by decide),
    BitVec.extractLsb'_append_eq_of_le (by decide), BitVec.extractLsb'_append_eq_right]

theorem byte3_packBytes (a b c d : Byte) : byte3 (packBytes [a, b, c, d]) = d := by
  rw [packBytes_four, byte3, BitVec.extractLsb'_append_eq_of_le (by decide),
    BitVec.extractLsb'_append_eq_of_le (by decide), BitVec.extractLsb'_append_eq_left]

/-! ## The fields of a group (R100) -/

theorem groupInt_s0 (b0 b1 b2 : Byte) : (groupInt b0 b1 b2).extractLsb' 18 6 = b0.extractLsb' 2 6 := by
  rw [groupInt, BitVec.extractLsb'_append_eq_of_le (by decide), BitVec.extractLsb'_append_eq_of_le (by decide)]

theorem groupInt_s1 (b0 b1 b2 : Byte) :
    (groupInt b0 b1 b2).extractLsb' 12 6 = b0.extractLsb' 0 2 ++ b1.extractLsb' 4 4 := by
  rw [groupInt, BitVec.extractLsb'_append_eq_of_le (by decide)]
  exact extractLsb'_append_across (n := 2) (m := 4) b0 b1 rfl

theorem groupInt_s2 (b0 b1 b2 : Byte) :
    (groupInt b0 b1 b2).extractLsb' 6 6 = b1.extractLsb' 0 4 ++ b2.extractLsb' 6 2 := by
  refine (extractLsb'_append_across (n := 4) (m := 2) (b0 ++ b1) b2 rfl).trans ?_
  rw [BitVec.extractLsb'_append_eq_of_add_le (by decide)]

theorem groupInt_s3 (b0 b1 b2 : Byte) : (groupInt b0 b1 b2).extractLsb' 0 6 = b2.extractLsb' 0 6 := by
  rw [groupInt, BitVec.extractLsb'_append_eq_of_add_le (by decide)]

/-! ## Encoding (R102) -/

theorem eq_one_or_two_or_three {n : BitVec 2} (h : n ≠ 0) : n = 1 ∨ n = 2 ∨ n = 3 := by
  revert n; decide

theorem exec_encgrp {n : BitVec 2} (hn : n ≠ 0) (s : State) :
    exec (.encgrp n) s = .next (complete .ok
      (packBytes (encodeGroup (byte0 s.latched.a0) (byte1 s.latched.a0) (byte2 s.latched.a0) n)) 0 s) := if_neg hn

/-- The symbols of ENCGRP's result by the bits of A0 (R100, R103). -/
theorem packBytes_encodeGroup (w : Word) {n : BitVec 2} (hn : n ≠ 0) :
    packBytes (encodeGroup (byte0 w) (byte1 w) (byte2 w) n) =
      (if n = 3 then symOf (w.extractLsb' 16 6) else 0x3D) ++
      (if n = 3 then symOf (w.extractLsb' 8 4 ++ w.extractLsb' 22 2)
       else if n = 2 then symOf (w.extractLsb' 8 4 ++ (0 : BitVec 2)) else 0x3D) ++
      (if n = 1 then symOf (w.extractLsb' 0 2 ++ (0 : BitVec 4))
       else symOf (w.extractLsb' 0 2 ++ w.extractLsb' 12 4)) ++
      symOf (w.extractLsb' 2 6) := by
  rcases eq_one_or_two_or_three hn with rfl | rfl | rfl
  · rw [encodeGroup_one, packBytes_four, groupInt_s0, groupInt_s1]
    simp (disch := decide) only [byte0, extractLsb'_extractLsb']
    rfl
  · rw [encodeGroup_two, packBytes_four, groupInt_s0, groupInt_s1, groupInt_s2]
    simp (disch := decide) only [byte0, byte1, extractLsb'_extractLsb']
    rfl
  · rw [encodeGroup_three, packBytes_four, groupInt_s0, groupInt_s1, groupInt_s2, groupInt_s3]
    simp (disch := decide) only [byte0, byte1, byte2, extractLsb'_extractLsb']
    rfl

/-- Settles O18: ENCGRP completes with the group packed, whose symbols are the fields of A0. -/
theorem encgrpPacksTheGroup : Obligations.EncgrpPacksTheGroup := by
  unfold Obligations.EncgrpPacksTheGroup
  refine ⟨by decide, fun s n hf hn => ?_⟩
  rw [exec_encgrp hn, complete_of_not_faulted _ _ _ hf, packBytes_encodeGroup _ hn]

/-! ## Quartets (R104) -/

/-- Four 6-bit values joined as R104 joins them. -/
theorem join_eq_append (v0 v1 v2 v3 : Sextet) :
    (v0.setWidth 24 <<< 18) ||| (v1.setWidth 24 <<< 12) ||| (v2.setWidth 24 <<< 6) ||| v3.setWidth 24 =
      v0 ++ v1 ++ v2 ++ v3 := by
  have h := BitVec.setWidth_append_append_append_eq_shiftLeft_setWidth_or (w'''' := 24) (b := v0) (b' := v1)
    (b'' := v2) (b''' := v3)
  exact h.symm.trans (BitVec.setWidth_eq (v0 ++ v1 ++ v2 ++ v3))

theorem join_byte0 (v0 v1 v2 v3 : Sextet) :
    (v0 ++ v1 ++ v2 ++ v3).extractLsb' 16 8 = v0 ++ v1.extractLsb' 4 2 := by
  rw [BitVec.extractLsb'_append_eq_of_le (by decide), BitVec.extractLsb'_append_eq_of_le (by decide)]
  refine (extractLsb'_append_across (n := 6) (m := 2) v0 v1 rfl).trans ?_
  rw [BitVec.extractLsb'_eq_self]

theorem join_byte1 (v0 v1 v2 v3 : Sextet) :
    (v0 ++ v1 ++ v2 ++ v3).extractLsb' 8 8 = v1.extractLsb' 0 4 ++ v2.extractLsb' 2 4 := by
  rw [BitVec.extractLsb'_append_eq_of_le (by decide)]
  refine (extractLsb'_append_across (n := 4) (m := 4) (v0 ++ v1) v2 rfl).trans ?_
  rw [BitVec.extractLsb'_append_eq_of_add_le (by decide)]

theorem join_byte2 (v0 v1 v2 v3 : Sextet) :
    (v0 ++ v1 ++ v2 ++ v3).extractLsb' 0 8 = v2.extractLsb' 0 2 ++ v3 := by
  refine (extractLsb'_append_across (n := 2) (m := 6) (v0 ++ v1 ++ v2) v3 rfl).trans ?_
  rw [BitVec.extractLsb'_append_eq_of_add_le (by decide), BitVec.extractLsb'_eq_self]

theorem decodeQuartet_vals (v0 v1 v2 v3 : Sextet) : decodeQuartet (.val v0) (.val v1) (.val v2) (.val v3) =
    .ok [v0 ++ v1.extractLsb' 4 2, v1.extractLsb' 0 4 ++ v2.extractLsb' 2 4, v2.extractLsb' 0 2 ++ v3] 3 := by
  rw [decodeQuartet, join_eq_append, join_byte0, join_byte1, join_byte2]

/-- A symbol that is padding adds no bits: the quartet joins as with a 0 in its place. -/
theorem decodeQuartet_padded_two (v0 v1 v2 : Sextet) : decodeQuartet (.val v0) (.val v1) (.val v2) .pad =
    .ok [v0 ++ v1.extractLsb' 4 2, v1.extractLsb' 0 4 ++ v2.extractLsb' 2 4] 2 := by
  have h := join_eq_append v0 v1 v2 0
  rw [show (0 : Sextet).setWidth 24 = 0#24 from rfl, BitVec.or_zero] at h
  rw [decodeQuartet, h, join_byte0, join_byte1]

theorem decodeQuartet_padded_one (v0 v1 : Sextet) : decodeQuartet (.val v0) (.val v1) .pad .pad =
    .ok [v0 ++ v1.extractLsb' 4 2] 1 := by
  have h := join_eq_append v0 v1 0 0
  rw [show (0 : Sextet).setWidth 24 = 0#24 from rfl, BitVec.or_zero, BitVec.zero_shiftLeft, BitVec.or_zero] at h
  rw [decodeQuartet, h, join_byte0]

theorem decodeQuartet_badPad_iff (c0 c1 c2 c3 : Sym) :
    decodeQuartet c0 c1 c2 c3 = .badPad ↔ (c0 = .pad ∨ c1 = .pad ∨ (c2 = .pad ∧ c3 ≠ .pad)) := by
  unfold decodeQuartet
  split <;> simp

/-- Settles O19: the legal forms join their 6-bit values, and every other form is misplaced padding. -/
theorem decodeQuartetByItsForms : Obligations.DecodeQuartetByItsForms := by
  unfold Obligations.DecodeQuartetByItsForms
  exact ⟨decodeQuartet_badPad_iff, decodeQuartet_padded_one, decodeQuartet_padded_two, decodeQuartet_vals⟩

/-! ## DECQ (R106) -/

theorem exec_decq {s : State} {c : StatusCode} {x y : Word}
    (h : decqResult (byte0 s.latched.a0) (byte1 s.latched.a0) (byte2 s.latched.a0) (byte3 s.latched.a0) = (c, x, y)) :
    exec .decq s = .next (complete c x y s) := by
  rw [exec, execDecq, h]

theorem setWidth_eq_zero_append (r : Byte) : r.setWidth 32 = (0 : BitVec 24) ++ r :=
  BitVec.setWidth_eq_append (by decide)

theorem padCause_eq_append (r : Byte) : padCause r = (0 : BitVec 23) ++ (1 : BitVec 1) ++ r := by
  rw [padCause, setWidth_eq_zero_append]
  change (0#24 ++ r) ||| (1#24 ++ 0#8) = 1#24 ++ r
  rw [BitVec.or_append, BitVec.zero_or, BitVec.or_zero]

/-- The class of a byte that is no symbol. -/
theorem Cls.eq_ws_or_inv {k : Cls} (h : ∀ c, k ≠ .sym c) : k = .ws ∨ k = .inv := by
  rcases k with c | _ | _
  · exact absurd rfl (h c)
  · exact .inl rfl
  · exact .inr rfl

section
variable {r0 r1 r2 r3 : Byte} {c0 c1 c2 c3 : Sym} (h0 : cls r0 = .sym c0) (h1 : cls r1 = .sym c1)
  (h2 : cls r2 = .sym c2) (h3 : cls r3 = .sym c3)
include h0 h1 h2 h3

/-- Four symbols: the quartet decides. -/
theorem decqResult_of_quartet {bytes : List Byte} {n : BitVec 2} (hq : decodeQuartet c0 c1 c2 c3 = .ok bytes n) :
    decqResult r0 r1 r2 r3 = (.ok, packBytes bytes, n.setWidth 32) := by
  simp only [decqResult, h0, h1, h2, h3, hq]

theorem decqResult_of_badPad (hq : decodeQuartet c0 c1 c2 c3 = .badPad) :
    decqResult r0 r1 r2 r3 = (.errMalformed, 3, padCause r3) := by
  simp only [decqResult, h0, h1, h2, h3, hq]

end

/-- The lowest byte that is no symbol decides. -/
theorem decqResult_of_not_symbol {w : Word} {k : Nat} (hk : k < 4)
    (hs : ∀ j, j < k → ∃ c, cls (w.extractLsb' (8 * j) 8) = .sym c)
    (hn : ∀ c, cls (w.extractLsb' (8 * k) 8) ≠ .sym c) :
    decqResult (byte0 w) (byte1 w) (byte2 w) (byte3 w) =
      (.errMalformed, BitVec.ofNat 32 k, (w.extractLsb' (8 * k) 8).setWidth 32) := by
  have hc := Cls.eq_ws_or_inv hn
  interval_cases k
  · change cls (byte0 w) = _ ∨ cls (byte0 w) = _ at hc
    rcases hc with h | h <;> simp only [decqResult, h] <;> rfl
  · obtain ⟨c0, (h0 : cls (byte0 w) = _)⟩ := hs 0 (by decide)
    change cls (byte1 w) = _ ∨ cls (byte1 w) = _ at hc
    rcases hc with h | h <;> simp only [decqResult, h0, h] <;> rfl
  · obtain ⟨c0, (h0 : cls (byte0 w) = _)⟩ := hs 0 (by decide)
    obtain ⟨c1, (h1 : cls (byte1 w) = _)⟩ := hs 1 (by decide)
    change cls (byte2 w) = _ ∨ cls (byte2 w) = _ at hc
    rcases hc with h | h <;> simp only [decqResult, h0, h1, h] <;> rfl
  · obtain ⟨c0, (h0 : cls (byte0 w) = _)⟩ := hs 0 (by decide)
    obtain ⟨c1, (h1 : cls (byte1 w) = _)⟩ := hs 1 (by decide)
    obtain ⟨c2, (h2 : cls (byte2 w) = _)⟩ := hs 2 (by decide)
    change cls (byte3 w) = _ ∨ cls (byte3 w) = _ at hc
    rcases hc with h | h <;> simp only [decqResult, h0, h1, h2, h] <;> rfl

/-- Settles O20: the lowest byte that is no symbol ends DECQ, and where there is none the quartet does. -/
theorem decqDecodesTheQuartet : Obligations.DecqDecodesTheQuartet := by
  unfold Obligations.DecqDecodesTheQuartet
  refine ⟨by decide, fun s hf => ⟨fun c0 c1 c2 c3 h0 h1 h2 h3 => ?_, fun k hk hs hn => ?_⟩⟩
  · cases hq : decodeQuartet c0 c1 c2 c3 with
    | ok bytes n =>
      exact (exec_decq (decqResult_of_quartet h0 h1 h2 h3 hq)).trans (congrArg _ (complete_of_not_faulted _ _ _ hf))
    | badPad =>
      have hr := decqResult_of_badPad h0 h1 h2 h3 hq
      rw [padCause_eq_append] at hr
      exact (exec_decq hr).trans (congrArg _ (complete_of_not_faulted _ _ _ hf))
  · have hr := decqResult_of_not_symbol hk hs hn
    rw [setWidth_eq_zero_append] at hr
    rw [exec_decq hr, complete_of_not_faulted _ _ _ hf]

/-! ## DECQ of ENCGRP's result (R101) -/

/-- DECQ gives back a group's significant bytes and their count (R101(d)). -/
theorem decqResult_encodeGroup (b0 b1 b2 : Byte) {n : BitVec 2} (hn : n ≠ 0) {r0 r1 r2 r3 : Byte}
    (h : encodeGroup b0 b1 b2 n = [r0, r1, r2, r3]) :
    decqResult r0 r1 r2 r3 = (.ok, packBytes ([b0, b1, b2].take n.toNat), n.setWidth 32) := by
  rcases eq_one_or_two_or_three hn with rfl | rfl | rfl
  · rw [encodeGroup_one] at h
    cases h
    exact decqResult_of_quartet (cls_symOf _) (cls_symOf _) cls_padChar cls_padChar (decodeQuartet_one b0)
  · rw [encodeGroup_two] at h
    cases h
    exact decqResult_of_quartet (cls_symOf _) (cls_symOf _) (cls_symOf _) cls_padChar (decodeQuartet_two b0 b1)
  · rw [encodeGroup_three] at h
    cases h
    exact decqResult_of_quartet (cls_symOf _) (cls_symOf _) (cls_symOf _) (cls_symOf _) (decodeQuartet_three b0 b1 b2)

/-- The significant bytes of A0 packed again. -/
theorem packBytes_take (w : Word) {n : BitVec 2} (hn : n ≠ 0) : packBytes ([byte0 w, byte1 w, byte2 w].take n.toNat) =
    (if n = 1 then w &&& 0xFF else if n = 2 then w &&& 0xFFFF else w &&& 0xFFFFFF) := by
  rcases eq_one_or_two_or_three hn with rfl | rfl | rfl
  · exact packBytes_low_one w
  · exact packBytes_low_two w
  · exact packBytes_low_three w

/-- DECQ of the word ENCGRP leaves. -/
theorem decqResult_packBytes_encodeGroup (w v : Word) {n : BitVec 2} (hn : n ≠ 0)
    (hv : v = packBytes (encodeGroup (byte0 w) (byte1 w) (byte2 w) n)) :
    decqResult (byte0 v) (byte1 v) (byte2 v) (byte3 v) =
      (.ok, if n = 1 then w &&& 0xFF else if n = 2 then w &&& 0xFFFF else w &&& 0xFFFFFF, n.setWidth 32) := by
  obtain ⟨r0, r1, r2, r3, hg⟩ : ∃ r0 r1 r2 r3, encodeGroup (byte0 w) (byte1 w) (byte2 w) n = [r0, r1, r2, r3] :=
    ⟨_, _, _, _, rfl⟩
  rw [hv, hg, byte0_packBytes, byte1_packBytes, byte2_packBytes, byte3_packBytes, decqResult_encodeGroup _ _ _ hn hg,
    packBytes_take w hn]

/-- Settles O21: DECQ reads the four symbols ENCGRP packed. -/
theorem decqUndoesEncgrp : Obligations.DecqUndoesEncgrp := by
  unfold Obligations.DecqUndoesEncgrp
  intro s t n hf hn ht
  rw [exec_encgrp hn] at ht
  injection ht with ht
  have htf : t.faulted = false := by rw [← ht, complete_faulted, hf]
  have hres : t.res0 = packBytes (encodeGroup (byte0 s.latched.a0) (byte1 s.latched.a0) (byte2 s.latched.a0) n) := by
    rw [← ht, complete_of_not_faulted _ _ _ hf]
  refine ⟨_, exec_decq (decqResult_packBytes_encodeGroup s.latched.a0 t.res0 hn hres), ?_⟩
  simp [htf]

end Sys2Proof.Machine
end

section
/-! SUPPORT. What the group and bulk commands leave unchanged (60_exceptions.md R203, 20_memory.md R65): how each can end,
said once, and the frame of each end. -/

namespace Sys2Proof.Machine

/-! ## How the commands end (R102, R106, R122, R130) -/

theorem exec_group_cases {s t : State} {i : Instr} (hi : (∃ n, i = .encgrp n) ∨ i = .decq) (h : exec i s = .next t) :
    (∃ c, t = takeFault c s) ∨ ∃ c x y, t = complete c x y s := by
  rcases hi with ⟨n, rfl⟩ | rfl
  · by_cases hn : n = 0
    · subst hn
      cases h
      exact .inl ⟨_, rfl⟩
    · rw [exec_encgrp hn] at h
      cases h
      exact .inr ⟨_, _, _, rfl⟩
  · rw [exec_decq rfl] at h
    cases h
    exact .inr ⟨_, _, _, rfl⟩

theorem exec_benc_cases {s t : State} (h : exec .benc s = .next t) :
    t = takeFault .faultRange s ∨ t = bulkFinish (bulkEncode (bulkSource s)) s := by
  rw [exec, execBenc] at h
  split at h <;> cases h
  · exact .inr rfl
  · exact .inl rfl

theorem exec_bdec_cases {s t : State} (h : exec .bdec s = .next t) :
    t = takeFault .faultRange s ∨
    (∃ c x y, bulkDecode s.params.bulkTailPolicy (bulkSource s) = .err c x y ∧ t = complete c x y s) ∨
    ∃ out, bulkDecode s.params.bulkTailPolicy (bulkSource s) = .ok out ∧ t = bulkFinish out s := by
  rw [exec, execBdec] at h
  split at h
  · split at h <;> cases h
    · next hd => exact .inr (.inl ⟨_, _, _, hd, rfl⟩)
    · next hd => exact .inr (.inr ⟨_, hd, rfl⟩)
  · cases h
    exact .inl rfl

/-! ## The frame of each end -/

/-- From `s` to `t` the command has ended, and nothing but STATUS, RES0, RES1 and HB has changed. -/
def EndFrame (s t : State) : Prop :=
  t = { s with code := t.code, faulted := t.faulted, res0 := t.res0, res1 := t.res1, busy := false, running := none,
               hb := t.hb }

theorem endFrame_takeFault (c : StatusCode) (s : State) : EndFrame s (takeFault c s) := rfl

theorem endFrame_complete (c : StatusCode) (x y : Word) (s : State) : EndFrame s (complete c x y s) := by
  unfold EndFrame complete
  split <;> rfl

theorem endFrame_bulkFinish (out : List Byte) (s : State) : EndFrame s (bulkFinish out s) := by
  unfold bulkFinish
  split
  · exact endFrame_complete _ _ _ { s with hb := Memory.writeRange s.hb s.latched.a2.toNat out }
  · exact endFrame_takeFault _ s

theorem EndFrame.of_hb_eq {s t : State} (h : EndFrame s t) (hb : t.hb = s.hb) :
    t = { s with code := t.code, faulted := t.faulted, res0 := t.res0, res1 := t.res1, busy := false,
                 running := none } := by
  unfold EndFrame at h
  rwa [hb] at h

/-- BENC and BDEC store inside the range of their output alone (R65). -/
theorem read_bulkFinish_outside {out : List Byte} {s : State} {a : Nat}
    (ha : a < s.latched.a2.toNat ∨ s.latched.a2.toNat + out.length ≤ a) :
    Memory.read (bulkFinish out s).hb a = Memory.read s.hb a := by
  unfold bulkFinish
  split
  · rw [complete_hb]
    exact read_writeRange_outside out s.hb ha
  · rw [takeFault_hb]

theorem group_frame {s t : State} {i : Instr} (hi : (∃ n, i = .encgrp n) ∨ i = .decq) (h : exec i s = .next t) :
    EndFrame s t ∧ t.hb = s.hb := by
  rcases exec_group_cases hi h with ⟨c, rfl⟩ | ⟨c, x, y, rfl⟩
  · exact ⟨endFrame_takeFault c s, takeFault_hb c s⟩
  · exact ⟨endFrame_complete c x y s, complete_hb c x y s⟩

theorem benc_frame {s t : State} (h : exec .benc s = .next t) :
    EndFrame s t ∧ ∀ a, a < s.latched.a2.toNat ∨ s.latched.a2.toNat + (bulkEncode (bulkSource s)).length ≤ a →
      Memory.read t.hb a = Memory.read s.hb a := by
  rcases exec_benc_cases h with rfl | rfl
  · exact ⟨endFrame_takeFault _ s, fun a _ => rfl⟩
  · exact ⟨endFrame_bulkFinish _ s, fun a ha => read_bulkFinish_outside ha⟩

theorem bdec_frame {s t : State} (h : exec .bdec s = .next t) :
    EndFrame s t ∧
    (∀ out, bulkDecode s.params.bulkTailPolicy (bulkSource s) = .ok out → ∀ a,
      a < s.latched.a2.toNat ∨ s.latched.a2.toNat + out.length ≤ a → Memory.read t.hb a = Memory.read s.hb a) ∧
    ∀ c x y, bulkDecode s.params.bulkTailPolicy (bulkSource s) = .err c x y → t.hb = s.hb := by
  rcases exec_bdec_cases h with rfl | ⟨c, x, y, hd, rfl⟩ | ⟨out, hd, rfl⟩
  · exact ⟨endFrame_takeFault _ s, fun _ _ _ _ => rfl, fun _ _ _ _ => rfl⟩
  · exact ⟨endFrame_complete c x y s, fun _ _ _ _ => by rw [complete_hb], fun _ _ _ _ => complete_hb c x y s⟩
  · refine ⟨endFrame_bulkFinish out s, fun out' hd' a ha => ?_, fun c x y hd' => ?_⟩
    · cases hd.symm.trans hd'
      exact read_bulkFinish_outside ha
    · cases hd.symm.trans hd'

/-- Settles O49: every end of the four commands leaves the frame, and only an output that fits is stored. -/
theorem groupAndBulkCommandsFrame : Obligations.GroupAndBulkCommandsFrame := by
  unfold Obligations.GroupAndBulkCommandsFrame
  refine ⟨fun s t i hi h => ?_, fun s t i hi h => ?_⟩
  · obtain ⟨hf, hb⟩ := group_frame hi h
    exact ⟨hf.of_hb_eq hb, fun a => by rw [hb]⟩
  · rcases hi with rfl | rfl
    · obtain ⟨hf, hread⟩ := benc_frame h
      exact ⟨hf, fun _ => hread, nofun, nofun⟩
    · obtain ⟨hf, hok, herr⟩ := bdec_frame h
      exact ⟨hf, nofun, fun _ => hok, fun _ c x y hd a => by rw [herr c x y hd]⟩

end Sys2Proof.Machine
end

section
/-! SUPPORT. The bulk encoder over whole texts (42_bulk_codec.md R120, R121, R123): one induction over its groups and lines,
and what it counts: the text's length, its padding and its line-feeds. -/

namespace Sys2Proof.Machine

/-! ## The encoder by lines of 19 groups (R120, R121) -/

/-- A property of input and output, `g` full groups into a line, holds of the encoder where it holds of every way a text
can end and every full group keeps it, the 19th of its line with its line-feed. -/
theorem bulkEncodeFrom_induction {P : Nat → List Byte → List Byte → Prop}
    (nil : ∀ g, g ≤ 18 → P g [] [])
    (one : ∀ g x, g ≤ 18 → P g [x] (encodeGroup x 0 0 1))
    (two : ∀ g x y, g ≤ 18 → P g [x, y] (encodeGroup x y 0 2))
    (fullLine : ∀ x y z rest text, P 0 rest text → P 18 (x :: y :: z :: rest) (encodeGroup x y z 3 ++ lineFeed :: text))
    (insideLine : ∀ g x y z rest text, g < 18 → P (g + 1) rest text →
      P g (x :: y :: z :: rest) (encodeGroup x y z 3 ++ text))
    {g : Nat} (hg : g ≤ 18) (b : List Byte) : P g b (bulkEncodeFrom (4 * g) b) := by
  match b with
  | [] => exact nil g hg
  | [x] => exact one g x hg
  | [x, y] => exact two g x y hg
  | x :: y :: z :: rest =>
    rcases Nat.lt_or_eq_of_le hg with hlt | rfl
    · rw [bulkEncodeFrom_inside_line (by omega)]
      exact insideLine g x y z rest _ hlt
        (bulkEncodeFrom_induction nil one two fullLine insideLine (g := g + 1) hlt rest)
    · rw [bulkEncodeFrom_full_line rfl]
      exact fullLine x y z rest _
        (bulkEncodeFrom_induction nil one two fullLine insideLine (g := 0) (Nat.zero_le _) rest)
termination_by b.length

/-- A text starts at the start of a line. -/
theorem bulkEncode_eq (b : List Byte) : bulkEncode b = bulkEncodeFrom (4 * 0) b := rfl

/-! ## The characters of a group (R100) -/

theorem mem_encodeGroup {b0 b1 b2 c : Byte} {n : BitVec 2} (h : c ∈ encodeGroup b0 b1 b2 n) :
    c = padChar ∨ ∃ v, c = symOf v := by
  simp only [encodeGroup, List.mem_cons, List.not_mem_nil, or_false] at h
  rcases h with rfl | rfl | rfl | rfl
  · exact .inr ⟨_, rfl⟩
  · exact .inr ⟨_, rfl⟩
  · split
    · exact .inl rfl
    · exact .inr ⟨_, rfl⟩
  · split
    · exact .inl rfl
    · exact .inr ⟨_, rfl⟩

theorem ne_lineFeed_of_mem_encodeGroup {b0 b1 b2 c : Byte} {n : BitVec 2} (h : c ∈ encodeGroup b0 b1 b2 n) :
    c ≠ lineFeed := by
  rcases mem_encodeGroup h with rfl | ⟨v, rfl⟩
  · decide
  · exact symOf_ne_lineFeed v

theorem filter_lineFeed_encodeGroup (b0 b1 b2 : Byte) (n : BitVec 2) :
    (encodeGroup b0 b1 b2 n).filter (fun c => c = lineFeed) = [] :=
  List.filter_eq_nil_iff.mpr fun _ hc => by simpa using ne_lineFeed_of_mem_encodeGroup hc

theorem filter_padChar_symOf (v : Sextet) (text : List Byte) :
    (symOf v :: text).filter (fun c => c = padChar) = text.filter (fun c => c = padChar) :=
  List.filter_cons_of_neg (by simpa using symOf_ne_padChar v)

theorem filter_padChar_encodeGroup_three (b0 b1 b2 : Byte) :
    (encodeGroup b0 b1 b2 3).filter (fun c => c = padChar) = [] := by
  simp only [encodeGroup_three, filter_padChar_symOf, List.filter_nil]

/-! ## What the encoder counts (R121, R123) -/

/-- R123's length: four symbols for each group begun, and a line-feed for each 19 full groups. -/
theorem length_bulkEncodeFrom {g : Nat} (hg : g ≤ 18) (b : List Byte) :
    (bulkEncodeFrom (4 * g) b).length = 4 * ((b.length + 2) / 3) + (g + b.length / 3) / 19 := by
  refine bulkEncodeFrom_induction
    (P := fun g b text => text.length = 4 * ((b.length + 2) / 3) + (g + b.length / 3) / 19)
    (fun g _ => ?_) (fun g x _ => ?_) (fun g x y _ => ?_) (fun x y z rest text ih => ?_)
    (fun g x y z rest text _ ih => ?_) hg b <;>
    simp only [List.length_append, List.length_cons, List.length_nil, encodeGroup_length] <;> omega

/-- R121's count: a line-feed for each 19 full groups. -/
theorem lineFeeds_bulkEncodeFrom {g : Nat} (hg : g ≤ 18) (b : List Byte) :
    ((bulkEncodeFrom (4 * g) b).filter (fun c => c = lineFeed)).length = (g + b.length / 3) / 19 := by
  refine bulkEncodeFrom_induction
    (P := fun g b text => (text.filter (fun c => c = lineFeed)).length = (g + b.length / 3) / 19)
    (fun g hg => ?_) (fun g x hg => ?_) (fun g x y hg => ?_) (fun x y z rest text ih => ?_)
    (fun g x y z rest text _ ih => ?_) hg b
  · exact (Nat.div_eq_of_lt (Nat.lt_succ_of_le hg)).symm
  · rw [filter_lineFeed_encodeGroup]
    simp only [List.length_cons, List.length_nil]
    omega
  · rw [filter_lineFeed_encodeGroup]
    simp only [List.length_cons, List.length_nil]
    omega
  · rw [List.filter_append, filter_lineFeed_encodeGroup, List.filter_cons_of_pos (by decide), List.nil_append,
      List.length_cons, ih]
    simp only [List.length_cons]
    omega
  · rw [List.filter_append, filter_lineFeed_encodeGroup, List.nil_append, ih]
    simp only [List.length_cons]
    omega

/-- R123's padding: what the last group lacks to three bytes. -/
theorem padding_bulkEncodeFrom {g : Nat} (hg : g ≤ 18) (b : List Byte) :
    ((bulkEncodeFrom (4 * g) b).filter (fun c => c = padChar)).length = (3 - b.length % 3) % 3 := by
  refine bulkEncodeFrom_induction
    (P := fun _ b text => (text.filter (fun c => c = padChar)).length = (3 - b.length % 3) % 3)
    (fun g _ => rfl) (fun g x _ => ?_) (fun g x y _ => ?_) (fun x y z rest text ih => ?_)
    (fun g x y z rest text _ ih => ?_) hg b
  · rw [encodeGroup_one, filter_padChar_symOf, filter_padChar_symOf]; rfl
  · rw [encodeGroup_two, filter_padChar_symOf, filter_padChar_symOf, filter_padChar_symOf]; rfl
  · rw [List.filter_append, filter_padChar_encodeGroup_three, List.filter_cons_of_neg (by decide), List.nil_append, ih,
      List.length_cons, List.length_cons, List.length_cons]
    omega
  · rw [List.filter_append, filter_padChar_encodeGroup_three, List.nil_append, ih,
      List.length_cons, List.length_cons, List.length_cons]
    omega

/-- Settles O23: the length and the padding from the encoder's groups; the line-feed terms are one number. -/
theorem bulkEncodeLength : Obligations.BulkEncodeLength := by
  unfold Obligations.BulkEncodeLength
  intro b
  have hterm : 4 * b.length / 3 / 76 = b.length / 3 / 19 := by omega
  refine ⟨?_, by omega, by omega, padding_bulkEncodeFrom (Nat.zero_le 18) b⟩
  rw [bulkEncode_eq, length_bulkEncodeFrom (Nat.zero_le 18), Nat.zero_add, hterm]

/-! ## Where the line-feeds stand (R121) -/

/-- `text`, begun `g` groups into a line, has its line-feeds exactly after every 76 symbols. -/
def LineFeedsInPlace (g : Nat) (text : List Byte) : Prop :=
  ∀ k c, text[k]? = some c → (c = lineFeed ↔ (4 * g + k) % 77 = 76)

theorem lineFeedsInPlace_encodeGroup {g : Nat} (hg : g ≤ 18) (b0 b1 b2 : Byte) (n : BitVec 2) :
    LineFeedsInPlace g (encodeGroup b0 b1 b2 n) := by
  intro k c h
  have hk : k < 4 := (List.getElem?_eq_some_iff.mp h).1
  have hc := ne_lineFeed_of_mem_encodeGroup (List.mem_of_getElem? h)
  rw [Nat.mod_eq_of_lt (by omega)]
  exact iff_of_false hc (by omega)

/-- A group inside a line comes before text in place after it. -/
theorem LineFeedsInPlace.group {g : Nat} {text : List Byte} (hg : g ≤ 18) (h : LineFeedsInPlace (g + 1) text)
    (b0 b1 b2 : Byte) (n : BitVec 2) : LineFeedsInPlace g (encodeGroup b0 b1 b2 n ++ text) := by
  intro k c hk
  rcases Nat.lt_or_ge k 4 with h4 | h4
  · rw [List.getElem?_append_left h4] at hk
    exact lineFeedsInPlace_encodeGroup hg b0 b1 b2 n k c hk
  · rw [List.getElem?_append_right h4] at hk
    rw [h _ c hk, encodeGroup_length]
    omega

/-- The line-feed of a full line, before a new line. -/
theorem LineFeedsInPlace.lineFeed {text : List Byte} (h : LineFeedsInPlace 0 text) :
    LineFeedsInPlace 19 (lineFeed :: text) := by
  intro k c hk
  cases k with
  | zero => simpa using (Option.some.inj hk).symm
  | succ k => rw [h k c hk]; omega

theorem lineFeedsInPlace_bulkEncodeFrom {g : Nat} (hg : g ≤ 18) (b : List Byte) :
    LineFeedsInPlace g (bulkEncodeFrom (4 * g) b) :=
  bulkEncodeFrom_induction (P := fun g _ text => LineFeedsInPlace g text)
    (fun _ _ => nofun)
    (fun _ x hg => lineFeedsInPlace_encodeGroup hg x 0 0 1)
    (fun _ x y hg => lineFeedsInPlace_encodeGroup hg x y 0 2)
    (fun x y z _ _ ih => ih.lineFeed.group (Nat.le_refl 18) x y z 3)
    (fun _ x y z _ _ hlt ih => ih.group (Nat.le_of_lt hlt) x y z 3) hg b

/-- Settles O24: the places and the number of the line-feeds, from the start of a line. -/
theorem lineFeedsAfterEvery76Symbols : Obligations.LineFeedsAfterEvery76Symbols := by
  unfold Obligations.LineFeedsAfterEvery76Symbols
  refine fun b => ⟨fun k c h => ?_, ?_⟩
  · exact (lineFeedsInPlace_bulkEncodeFrom (Nat.zero_le 18) b k c h).trans (by rw [Nat.mul_zero, Nat.zero_add])
  · exact (lineFeeds_bulkEncodeFrom (Nat.zero_le 18) b).trans (by rw [Nat.zero_add])

end Sys2Proof.Machine
end

section
/-! SUPPORT. The bulk decoder over whole texts (42_bulk_codec.md R124–R129): the round trip, whitespace, complete quartets
without padding, the symbols of a quartet not yet complete, and the end of the text. -/

namespace Sys2Proof.Machine

/-! ## The round trip (R129) -/

theorem bulkDecodeFrom_end (p : TailPolicy) (i : Nat) (out : List Byte) : bulkDecodeFrom p i [] out [] = .ok out := by
  cases p <;> rfl

/-- The decoder between two quartets adds what was encoded. -/
theorem bulkDecodeFrom_bulkEncodeFrom {g : Nat} (hg : g ≤ 18) (b : List Byte) (p : TailPolicy) (i : Nat)
    (out : List Byte) : bulkDecodeFrom p i [] out (bulkEncodeFrom (4 * g) b) = .ok (out ++ b) := by
  refine bulkEncodeFrom_induction (P := fun _ b text => ∀ i out, bulkDecodeFrom p i [] out text = .ok (out ++ b))
    (fun g _ i out => ?_) (fun g x _ i out => ?_) (fun g x y _ i out => ?_) (fun x y z rest text ih i out => ?_)
    (fun g x y z rest text _ ih i out => ?_) hg b i out
  · rw [bulkDecodeFrom_end, List.append_nil]
  · exact bulkDecodeFrom_padded_one (decodeQuartet_one x) p i out []
  · exact bulkDecodeFrom_padded_two (decodeQuartet_two x y) p i out []
  · refine (bulkDecodeFrom_quartet (decodeQuartet_three x y z) p i out _).trans ?_
    exact (bulkDecodeFrom_ws cls_lineFeed p _ [] _ text).trans ((ih _ _).trans (by rw [List.append_assoc]; rfl))
  · refine (bulkDecodeFrom_quartet (decodeQuartet_three x y z) p i out _).trans ?_
    exact (ih _ _).trans (by rw [List.append_assoc]; rfl)

/-- Settles O22: the decoder gives back each group the encoder wrote. -/
theorem bulkRoundTrip : Obligations.BulkRoundTrip := by
  unfold Obligations.BulkRoundTrip
  exact fun p b => bulkDecodeFrom_bulkEncodeFrom (Nat.zero_le 18) b p 0 []

/-! ## Whitespace (R125) -/

theorem significant_cons_ws {b : Byte} (h : cls b = .ws) (text : List Byte) :
    significant (b :: text) = significant text := by
  simp [significant, isWhitespace, h]

theorem significant_cons_of_ne_ws {b : Byte} (h : cls b ≠ .ws) (text : List Byte) :
    significant (b :: text) = b :: significant text := by
  simp [significant, isWhitespace, h]

/-- Fewer than three symbols held, or exactly the three before a quartet's fourth. -/
theorem held_cases {acc : List Sym} (h : acc.length ≤ 3) : acc.length < 3 ∨ ∃ c0 c1 c2, acc = [c0, c1, c2] := by
  rcases Nat.lt_or_eq_of_le h with h | h
  · exact .inl h
  · exact .inr (List.length_eq_three.mp h)

/-- A text decodes to what its significant bytes decode to; positions matter to errors alone. -/
theorem bulkDecodeFrom_significant {p : TailPolicy} {r : List Byte} (text : List Byte) (i j : Nat) (acc : List Sym)
    (hacc : acc.length ≤ 3) (out : List Byte) :
    bulkDecodeFrom p i acc out text = .ok r ↔ bulkDecodeFrom p j acc out (significant text) = .ok r := by
  induction text generalizing i j acc out with
  | nil => rfl
  | cons b text ih =>
    cases hb : cls b with
    | ws => rw [bulkDecodeFrom_ws hb, significant_cons_ws hb, ih (i + 1) j acc hacc out]
    | inv => simp [bulkDecodeFrom_inv hb, significant_cons_of_ne_ws (by simp [hb] : cls b ≠ .ws)]
    | sym c =>
      rw [significant_cons_of_ne_ws (by simp [hb])]
      rcases held_cases hacc with hlt | ⟨c0, c1, c2, rfl⟩
      · rw [bulkDecodeFrom_hold hb hlt, bulkDecodeFrom_hold hb hlt]
        exact ih _ _ _ (by simpa using hlt) _
      · rw [bulkDecodeFrom_fourth hb, bulkDecodeFrom_fourth hb]
        cases decodeQuartet c0 c1 c2 c with
        | badPad => simp
        | ok bytes n =>
          by_cases hc : c = .pad
          · simp only [if_pos hc]
          · simp only [if_neg hc]
            exact ih _ _ [] (Nat.zero_le 3) _

/-- Settles O25: both texts decode as their common significant bytes, the encoded one by the round trip. -/
theorem bulkDecodeIgnoresWhitespace : Obligations.BulkDecodeIgnoresWhitespace := by
  unfold Obligations.BulkDecodeIgnoresWhitespace
  intro p b t ht
  have hround := bulkRoundTrip p b
  rw [bulkDecode, bulkDecodeFrom_significant _ 0 0 [] (Nat.zero_le 3), ← ht] at hround
  rwa [bulkDecode, bulkDecodeFrom_significant _ 0 0 [] (Nat.zero_le 3)]

/-! ## The symbols of a text -/

/-- The symbol a byte of this class stands for, if any. -/
def Cls.symbol? : Cls → Option Sym
  | .sym c => some c
  | .ws => none
  | .inv => none

/-- The symbols of a text, in order. -/
def symbolsOf (text : List Byte) : List Sym := text.filterMap fun b => (cls b).symbol?

theorem symbolsOf_append (t u : List Byte) : symbolsOf (t ++ u) = symbolsOf t ++ symbolsOf u := List.filterMap_append

theorem symbolsOf_cons_sym {b : Byte} {c : Sym} (h : cls b = .sym c) (text : List Byte) :
    symbolsOf (b :: text) = c :: symbolsOf text := by
  simp [symbolsOf, h, Cls.symbol?]

theorem symbolsOf_cons_ws {b : Byte} (h : cls b = .ws) (text : List Byte) : symbolsOf (b :: text) = symbolsOf text := by
  simp [symbolsOf, h, Cls.symbol?]

theorem mem_symbolsOf {b : Byte} {c : Sym} {text : List Byte} (hb : b ∈ text) (h : cls b = .sym c) :
    c ∈ symbolsOf text :=
  List.mem_filterMap.mpr ⟨b, hb, by rw [h]; rfl⟩

/-- Without invalid bytes the significant bytes are the symbols. -/
theorem length_symbolsOf {text : List Byte} (h : ∀ c ∈ text, cls c ≠ .inv) :
    (symbolsOf text).length = (significant text).length := by
  induction text with
  | nil => rfl
  | cons b text ih =>
    obtain ⟨hb, htext⟩ := List.forall_mem_cons.mp h
    cases hk : cls b with
    | inv => exact absurd hk hb
    | ws => rw [symbolsOf_cons_ws hk, significant_cons_ws hk, ih htext]
    | sym c =>
      rw [symbolsOf_cons_sym hk, significant_cons_of_ne_ws (by simp [hk]), List.length_cons, List.length_cons, ih htext]

/-! ## Quartets without padding, and a quartet not yet complete (R124, R128) -/

/-- A text without invalid bytes and without padding. -/
abbrev Unpadded (text : List Byte) : Prop := ∀ c ∈ text, cls c ≠ .inv ∧ cls c ≠ .sym .pad

/-- A text of symbols and whitespace that the quartet in progress has room for is held. -/
theorem bulkDecodeFrom_hold_text {part : List Byte} (hpart : ∀ c ∈ part, cls c ≠ .inv) {acc : List Sym}
    (hroom : acc.length + (symbolsOf part).length ≤ 3) (p : TailPolicy) (i : Nat) (out rest : List Byte) :
    bulkDecodeFrom p i acc out (part ++ rest) =
      bulkDecodeFrom p (i + part.length) (acc ++ symbolsOf part) out rest := by
  induction part generalizing acc i with
  | nil => simp [symbolsOf]
  | cons b part ih =>
    obtain ⟨hb, htail⟩ := List.forall_mem_cons.mp hpart
    have hi : i + (b :: part).length = i + 1 + part.length := by simp only [List.length_cons]; omega
    rw [List.cons_append, hi]
    cases hk : cls b with
    | inv => exact absurd hk hb
    | ws =>
      rw [symbolsOf_cons_ws hk] at hroom ⊢
      rw [bulkDecodeFrom_ws hk, ih htail hroom]
    | sym c =>
      rw [symbolsOf_cons_sym hk, List.length_cons] at hroom
      have hroom' : (acc ++ [c]).length + (symbolsOf part).length ≤ 3 := by
        rw [List.length_append, List.length_singleton]
        omega
      rw [symbolsOf_cons_sym hk, bulkDecodeFrom_hold hk (by omega), ih htail hroom', List.append_assoc,
        List.singleton_append]

/-- No symbol held is padding. -/
abbrev NoPad (acc : List Sym) : Prop := ∀ c ∈ acc, c ≠ .pad

/-- A quartet without padding decodes. -/
theorem decodeQuartet_of_noPad {c0 c1 c2 c : Sym} (h : NoPad [c0, c1, c2]) :
    ∃ bytes n, decodeQuartet c0 c1 c2 c = .ok bytes n := by
  cases hq : decodeQuartet c0 c1 c2 c with
  | ok bytes n => exact ⟨bytes, n, rfl⟩
  | badPad =>
    rcases (decodeQuartet_badPad_iff ..).mp hq with hp | hp | ⟨hp, -⟩ <;> exact absurd hp (h _ (by simp))

/-- A text without padding is decoded quartet by quartet, whatever comes behind it and under either policy. -/
theorem bulkDecodeFrom_unpadded {front : List Byte} (hfront : Unpadded front) {acc : List Sym} (hacc : NoPad acc)
    (hlen : acc.length ≤ 3) (out : List Byte) :
    ∃ acc' out', acc'.length = (acc.length + (significant front).length) % 4 ∧ ∀ p i rest,
      bulkDecodeFrom p i acc out (front ++ rest) = bulkDecodeFrom p (i + front.length) acc' out' rest := by
  induction front generalizing acc out with
  | nil => exact ⟨acc, out, (Nat.mod_eq_of_lt (Nat.lt_succ_of_le hlen)).symm, fun _ _ _ => rfl⟩
  | cons b front ih =>
    obtain ⟨⟨hinv, hpad⟩, htail⟩ := List.forall_mem_cons.mp hfront
    have hi : ∀ i, i + (b :: front).length = i + 1 + front.length := fun i => by simp only [List.length_cons]; omega
    simp only [List.cons_append, hi]
    cases hk : cls b with
    | inv => exact absurd hk hinv
    | ws =>
      obtain ⟨acc', out', hl, hd⟩ := ih htail hacc hlen out
      exact ⟨acc', out', by rw [hl, significant_cons_ws hk], fun p i rest => by rw [bulkDecodeFrom_ws hk, hd]⟩
    | sym c =>
      have hc : c ≠ .pad := fun h => hpad (h ▸ hk)
      rw [significant_cons_of_ne_ws (by simp [hk]), List.length_cons]
      rcases held_cases hlen with hlt | ⟨c0, c1, c2, rfl⟩
      · obtain ⟨acc', out', hl, hd⟩ := ih htail (acc := acc ++ [c])
          (List.forall_mem_append.mpr ⟨hacc, List.forall_mem_singleton.mpr hc⟩) (by simpa using hlt) out
        refine ⟨acc', out', by rw [hl, List.length_append, List.length_singleton]; omega, fun p i rest => ?_⟩
        rw [bulkDecodeFrom_hold hk hlt, hd]
      · obtain ⟨bytes, n, hq⟩ := decodeQuartet_of_noPad (c := c) hacc
        obtain ⟨acc', out', hl, hd⟩ := ih htail (acc := []) (List.forall_mem_nil _) (Nat.zero_le 3) (out ++ bytes)
        refine ⟨acc', out', by rw [hl]; simp only [List.length_cons, List.length_nil]; omega, fun p i rest => ?_⟩
        rw [bulkDecodeFrom_fourth hk, hq]
        simp only [if_neg hc]
        exact hd p (i + 1) rest

/-- Complete quartets without padding leave nothing held. -/
theorem bulkDecode_quartets {front : List Byte} (hfront : Unpadded front) (h4 : (significant front).length % 4 = 0) :
    ∃ out, ∀ p rest, bulkDecode p (front ++ rest) = bulkDecodeFrom p front.length [] out rest := by
  obtain ⟨acc, out, hlen, hd⟩ := bulkDecodeFrom_unpadded hfront (acc := []) (List.forall_mem_nil _) (Nat.zero_le 3) []
  have hnil : acc = [] := List.length_eq_zero_iff.mp (by simpa [h4] using hlen)
  subst hnil
  exact ⟨out, fun p rest => by rw [bulkDecode, hd, Nat.zero_add]⟩

/-- Behind complete quartets, the symbols of one not yet complete are held. -/
theorem bulkDecode_quartets_part {front part : List Byte} (hfront : Unpadded front)
    (h4 : (significant front).length % 4 = 0) (hpart : ∀ c ∈ part, cls c ≠ .inv)
    (h3 : (significant part).length ≤ 3) : ∃ out, (∀ p, bulkDecode p front = .ok out) ∧ ∀ p rest,
      bulkDecode p (front ++ part ++ rest) =
        bulkDecodeFrom p (front ++ part).length (symbolsOf part) out rest := by
  obtain ⟨out, hd⟩ := bulkDecode_quartets hfront h4
  refine ⟨out, fun p => ?_, fun p rest => ?_⟩
  · simpa only [List.append_nil, bulkDecodeFrom_end] using hd p []
  · rw [List.append_assoc, hd, bulkDecodeFrom_hold_text hpart (by simpa [length_symbolsOf hpart] using h3),
      List.nil_append, List.length_append]

/-- Settles O26: the decoder stands at the invalid byte with the symbols before it held. -/
theorem bulkDecodeRejectsInvalidBytes : Obligations.BulkDecodeRejectsInvalidBytes := by
  unfold Obligations.BulkDecodeRejectsInvalidBytes
  intro p front part rest b hfront h4 hpart h3 hb
  obtain ⟨out, -, hd⟩ := bulkDecode_quartets_part hfront h4 hpart h3
  rw [hd, bulkDecodeFrom_inv hb]

/-! ## The end of the text (R128) -/

/-- The text ends inside a quartet, behind complete quartets without padding. -/
def EndsInsideQuartet (text : List Byte) : Prop :=
  ∃ front tail : List Byte, text = front ++ tail ∧ Unpadded front ∧ (significant front).length % 4 = 0 ∧
    (∀ c ∈ tail, cls c ≠ .inv) ∧ 1 ≤ (significant tail).length ∧ (significant tail).length ≤ 3

theorem significant_append (t u : List Byte) : significant (t ++ u) = significant t ++ significant u :=
  List.filter_append ..

/-- A complete quartet without padding in front of such a text. -/
theorem EndsInsideQuartet.append {text quartet : List Byte} (h : EndsInsideQuartet text) (hq : Unpadded quartet)
    (h4 : (significant quartet).length % 4 = 0) : EndsInsideQuartet (quartet ++ text) := by
  obtain ⟨front, tail, rfl, hf, hf4, htail, h1, h3⟩ := h
  refine ⟨quartet ++ front, tail, (List.append_assoc ..).symm, List.forall_mem_append.mpr ⟨hq, hf⟩, ?_, htail, h1, h3⟩
  rw [significant_append, List.length_append]
  omega

/-- Three symbols held and a fourth that decode without padding: the quartet has none. -/
theorem unpadded_of_quartet {held : List Byte} {b : Byte} {c0 c1 c2 c : Sym} {bytes : List Byte} {n : BitVec 2}
    (hheld : ∀ x ∈ held, cls x ≠ .inv) (hs : symbolsOf held = [c0, c1, c2]) (hb : cls b = .sym c) (hc : c ≠ .pad)
    (hq : decodeQuartet c0 c1 c2 c = .ok bytes n) : Unpadded (held ++ [b]) := by
  have hbad : ¬ (c0 = .pad ∨ c1 = .pad ∨ c2 = .pad ∧ c ≠ .pad) := by
    rw [← decodeQuartet_badPad_iff, hq]
    exact nofun
  have hnopad : Sym.pad ∉ symbolsOf held := by
    rw [hs]
    intro hmem
    simp only [List.mem_cons, List.not_mem_nil, or_false] at hmem
    rcases hmem with h | h | h
    · exact hbad (.inl h.symm)
    · exact hbad (.inr (.inl h.symm))
    · exact hbad (.inr (.inr ⟨h.symm, hc⟩))
  refine List.forall_mem_append.mpr ⟨fun x hx => ⟨hheld x hx, fun h => hnopad (mem_symbolsOf hx h)⟩, ?_⟩
  simp [hb, hc]

/-- The policies differ only on a text that ends inside a quartet; `held` is the part of the quartet in progress. -/
theorem policies_agree_or_endsInsideQuartet (text : List Byte) {held : List Byte} (hheld : ∀ c ∈ held, cls c ≠ .inv)
    (h3 : (symbolsOf held).length ≤ 3) (i : Nat) (out : List Byte) :
    bulkDecodeFrom .drop i (symbolsOf held) out text = bulkDecodeFrom .error i (symbolsOf held) out text ∨
      EndsInsideQuartet (held ++ text) := by
  induction text generalizing held i out with
  | nil =>
    rcases Nat.eq_zero_or_pos (symbolsOf held).length with h0 | h0
    · rw [List.length_eq_zero_iff.mp h0, bulkDecodeFrom_end, bulkDecodeFrom_end]
      exact .inl rfl
    · rw [length_symbolsOf hheld] at h0 h3
      exact .inr ⟨[], held, by simp, nofun, rfl, hheld, h0, h3⟩
  | cons b text ih =>
    rw [List.append_cons held b text]
    have hheld' : cls b ≠ .inv → ∀ c ∈ held ++ [b], cls c ≠ .inv := fun h =>
      List.forall_mem_append.mpr ⟨hheld, List.forall_mem_singleton.mpr h⟩
    cases hb : cls b with
    | inv => exact .inl (by rw [bulkDecodeFrom_inv hb, bulkDecodeFrom_inv hb])
    | ws =>
      have hs : symbolsOf (held ++ [b]) = symbolsOf held := by
        rw [symbolsOf_append, symbolsOf_cons_ws hb]; exact List.append_nil _
      rw [bulkDecodeFrom_ws hb, bulkDecodeFrom_ws hb, ← hs]
      exact ih (hheld' (by simp [hb])) (hs ▸ h3) _ _
    | sym c =>
      have hs : symbolsOf (held ++ [b]) = symbolsOf held ++ [c] := by
        rw [symbolsOf_append, symbolsOf_cons_sym hb]; rfl
      rcases held_cases h3 with hlt | ⟨c0, c1, c2, hacc⟩
      · rw [bulkDecodeFrom_hold hb hlt, bulkDecodeFrom_hold hb hlt, ← hs]
        exact ih (hheld' (by simp [hb])) (by rw [hs]; simpa using hlt) _ _
      · rw [hacc, bulkDecodeFrom_fourth hb, bulkDecodeFrom_fourth hb]
        cases hq : decodeQuartet c0 c1 c2 c with
        | badPad => exact .inl rfl
        | ok bytes n =>
          by_cases hc : c = .pad
          · exact .inl (by simp only [if_pos hc])
          · simp only [if_neg hc]
            refine (ih (held := []) nofun (Nat.zero_le 3) (i + 1) (out ++ bytes)).imp_right fun h => ?_
            refine h.append (unpadded_of_quartet hheld hacc hb hc hq) ?_
            rw [← length_symbolsOf (hheld' (by simp [hb])), hs, hacc]
            simp

/-- Settles O27: the symbols left over are held at the end of the text, which alone the policies treat differently. -/
theorem bulkTailPolicies : Obligations.BulkTailPolicies := by
  unfold Obligations.BulkTailPolicies
  refine ⟨fun front tail hfront h4 htail h1 h3 => ?_, fun t =>
    policies_agree_or_endsInsideQuartet t (held := []) nofun (Nat.zero_le 3) 0 []⟩
  obtain ⟨out, hout, hd⟩ := bulkDecode_quartets_part hfront h4 htail h3
  have hend : ∀ p, bulkDecode p (front ++ tail) = bulkTail p (symbolsOf tail) out := fun p => by
    simpa only [List.append_nil, bulkDecodeFrom] using hd p []
  refine ⟨out, hout .error, hend .drop, ?_⟩
  rw [hend, bulkTail, length_symbolsOf htail, if_neg (by omega)]

end Sys2Proof.Machine
end

section
/-! SUPPORT. BENC and BDEC on the machine (42_bulk_codec.md R122, R130): what each end stores and reports. -/

namespace Sys2Proof.Machine

/-! ## The output (R122, R130) -/

/-- From `s` to `t` the command has completed with the output `out` at A2, its length in RES0, and all else unchanged. -/
def StoresOutput (out : List Byte) (s t : State) : Prop :=
  t = { s with
        code := .ok, res0 := BitVec.ofNat 32 out.length, res1 := 0, busy := false, running := none,
        hb := t.hb } ∧
  (∀ k c, out[k]? = some c → Memory.read t.hb (s.latched.a2.toNat + k) = c) ∧
  (∀ a, a < s.latched.a2.toNat ∨ s.latched.a2.toNat + out.length ≤ a → Memory.read t.hb a = Memory.read s.hb a)

theorem storesOutput_bulkFinish {out : List Byte} {s : State} (hf : s.faulted = false)
    (h : out.length ≤ s.latched.a3.toNat) : StoresOutput out s (bulkFinish out s) := by
  have hend := (bulkFinish_of_fits h).trans
    (complete_of_not_faulted .ok (BitVec.ofNat 32 out.length) 0
      (s := { s with hb := Memory.writeRange s.hb s.latched.a2.toNat out }) hf)
  refine ⟨by rw [hend], fun k c hk => ?_, fun a ha => read_bulkFinish_outside ha⟩
  rw [hend]
  exact read_writeRange_inside out s.hb _ k c hk

section
variable {s : State} {i : Instr} {out : List Byte} (hf : s.faulted = false)
include hf

/-- A range that is not admitted (R61). -/
theorem exec_bulk_of_range_fault (hi : i = .benc ∨ i = .bdec)
    (h : admitted s.params s.latched.a0 s.latched.a1 = false ∨ admitted s.params s.latched.a2 s.latched.a3 = false) :
    exec i s = .next { s with faulted := true, code := .faultRange, busy := false, running := none } := by
  rw [← takeFault_of_not_faulted .faultRange hf]
  refine exec_bulk_of_not_admitted hi (h.imp (fun h => ?_) fun h => ?_) <;> simpa [admitted] using h

/-- A command that ends with an output: it is stored where it fits, and else a capacity fault. -/
theorem bulk_end (h : exec i s = .next (bulkFinish out s)) :
    (out.length ≤ s.latched.a3.toNat → ∃ t, exec i s = .next t ∧ StoresOutput out s t) ∧
    (s.latched.a3.toNat < out.length →
      exec i s = .next { s with faulted := true, code := .faultRange, busy := false, running := none }) := by
  refine ⟨fun hfits => ⟨_, h, storesOutput_bulkFinish hf hfits⟩, fun hlong => ?_⟩
  rw [h, bulkFinish_of_too_long hlong, takeFault_of_not_faulted _ hf]

end

section
variable {s : State} (h0 : admitted s.params s.latched.a0 s.latched.a1 = true)
  (h2 : admitted s.params s.latched.a2 s.latched.a3 = true)
include h0 h2

theorem bulkRangesAdmitted_of_admitted : bulkRangesAdmitted s = true := Bool.and_eq_true_iff.mpr ⟨h0, h2⟩

theorem exec_benc_of_admitted : exec .benc s = .next (bulkFinish (bulkEncode (bulkSource s)) s) :=
  if_pos (bulkRangesAdmitted_of_admitted h0 h2)

theorem exec_bdec_of_err {c : StatusCode} {x y : Word}
    (hd : bulkDecode s.params.bulkTailPolicy (bulkSource s) = .err c x y) : exec .bdec s = .next (complete c x y s) := by
  rw [exec, execBdec, if_pos (bulkRangesAdmitted_of_admitted h0 h2), hd]

theorem exec_bdec_of_ok {out : List Byte} (hd : bulkDecode s.params.bulkTailPolicy (bulkSource s) = .ok out) :
    exec .bdec s = .next (bulkFinish out s) := by
  rw [exec, execBdec, if_pos (bulkRangesAdmitted_of_admitted h0 h2), hd]

end

/-- Settles O28: BENC ends with its encoder's output, or faults on a range. -/
theorem bencEncodesTheRange : Obligations.BencEncodesTheRange := by
  unfold Obligations.BencEncodesTheRange
  refine ⟨by decide, fun s hf h => exec_bulk_of_range_fault hf (.inl rfl) h, ?_⟩
  rintro s hf h0 h2 out rfl
  exact bulk_end hf (exec_benc_of_admitted h0 h2)

/-- Settles O29: BDEC ends with its decoder's error or output, or faults on a range. -/
theorem bdecDecodesTheRange : Obligations.BdecDecodesTheRange := by
  unfold Obligations.BdecDecodesTheRange
  refine ⟨by decide, fun s hf h => exec_bulk_of_range_fault hf (.inr rfl) h, fun s hf h0 h2 => ?_⟩
  split
  · next c x y hd => rw [exec_bdec_of_err h0 h2 hd, complete_of_not_faulted _ _ _ hf]
  · next out hd => exact bulk_end hf (exec_bdec_of_ok h0 h2 hd)

end Sys2Proof.Machine
end

section
/-! SUPPORT. How a Stream Encoder command begins and how a failing sink ends it (43_stream_encoder.md R140, R141, R148). -/

namespace Sys2Proof.Machine

/-! ## Binding the unit, and the unit a command needs (R140, R141) -/

/-- Settles O31: OPEN_SINK is one test of the unit's state. -/
theorem openSinkBindsTheUnit : Obligations.OpenSinkBindsTheUnit := by
  unfold Obligations.OpenSinkBindsTheUnit
  refine ⟨by decide, ⟨.wrongDirection, by decide⟩, fun s => ⟨fun ho hf => ?_, fun ho hf => ?_⟩⟩
  · rw [exec, execOpenSink, if_neg ho, complete_of_not_faulted]
    exact hf
  · rw [exec, execOpenSink, if_pos ho, takeFault_of_not_faulted _ hf]

/-- Every SE command but OPEN_SINK does something on an Open unit alone. -/
theorem exec_requires_open {i : Instr} (hi : (∃ b, i = .seWrite b) ∨ i = .seWriten ∨ i = .seFlush ∨ i = .seClose)
    (s : State) : ∃ body, exec i s = .next (requireOpenSe s body) := by
  rcases hi with ⟨b, rfl⟩ | rfl | rfl | rfl <;> exact ⟨_, rfl⟩

/-- Settles O32: the unit is looked at first. -/
theorem sinkCommandsNeedAnOpenUnit : Obligations.SinkCommandsNeedAnOpenUnit := by
  unfold Obligations.SinkCommandsNeedAnOpenUnit
  intro s i hi hf
  obtain ⟨body, h⟩ := exec_requires_open hi s
  refine ⟨fun hs => ?_, fun hs => ?_, fun hs => ?_⟩ <;>
    simp only [h, requireOpenSe, hs, takeFault_of_not_faulted _ hf]

/-! ## A failing answer (R148) -/

/-- A code of the port's width passes unchanged (R66, R200). -/
theorem portCode_of_lt {p : Params} {e : Word} (h : e.toNat < 2 ^ p.upstreamCodeW) : portCode p e = e := by
  apply BitVec.eq_of_toNat_eq
  rw [portCode, BitVec.toNat_setWidth, BitVec.toNat_setWidth, Nat.mod_eq_of_lt h, Nat.mod_eq_of_lt e.isLt]

/-- An error outside a fault: the unit fails, and the code and the result words are written (R203). -/
theorem raiseSe_of_not_faulted (c : StatusCode) (x y : Word) {s : State} (h : s.faulted = false) :
    raiseSe c x y s = { s with
      se := { s.se with state := .failed }, code := c, res0 := x, res1 := y, busy := false, running := none } :=
  complete_of_not_faulted _ _ _ h

/-- After a FAULT_CMD_BUSY the unit fails and the command ends (R203, R205). -/
theorem raiseSe_of_faulted (c : StatusCode) (x y : Word) {s : State} (h : s.faulted = true) :
    raiseSe c x y s = { s with se := { s.se with state := .failed }, busy := false, running := none } :=
  complete_of_faulted _ _ _ h

/-- The command ends at the request that fails, and takes no further answer. -/
theorem drive_seAnswered_fail (w : SeWait) (e : Word) (s : State) :
    drive (seAnswered w (.fail e) s) =
      raiseSe .errUpstream (portCode s.params e) w.consumed (observe (.sink w.request (some (.fail e))) s) :=
  drive_complete _ _ _ _

/-- Settles O37: the answer goes to the waiting command, which raises the error at its request. -/
theorem sinkFailureEndsTheCommand : Obligations.SinkFailureEndsTheCommand := by
  unfold Obligations.SinkFailureEndsTheCommand
  intro s w e rest hr he hi
  have ha : answered (.sinkAnswer (.fail e)) { s with inputs := rest } =
      some (seAnswered w (.fail e) { s with inputs := rest }) := by simp only [answered, hr]
  rw [step_of_answered (.inl ⟨_, rfl⟩) hi ha, drive_seAnswered_fail, portCode_of_lt he]
  cases hf : s.faulted with
  | false =>
    rw [raiseSe_of_not_faulted _ _ _ rfl]
    rcases w with ⟨_, _, _ | _⟩ | (_ | _) | _ | _ | _ <;> rfl
  | true => rw [raiseSe_of_faulted _ _ _ rfl]; rfl

end Sys2Proof.Machine
end

section
/-! SUPPORT. Bytes written to the Stream Encoder (43_stream_encoder.md R142–R145): what a byte sends and leaves in the unit. -/

namespace Sys2Proof.Machine

/-! ## One byte (R142, R143) -/

/-- The symbols, and the line-feed, that writing byte `b` to unit `u` sends: none before the third byte of a group. -/
def SeUnit.sentByWrite (b : Byte) (u : SeUnit) : List Byte :=
  if u.count = 2 then encodeGroup u.buf.b0 u.buf.b1 b 3 ++ (if u.line = 72 then [lineFeed] else []) else []

/-- The unit after byte `b` is written to it and all that it sends is answered `Ack`. -/
def SeUnit.afterWrite (b : Byte) (u : SeUnit) : SeUnit :=
  if u.count = 2 then
    { u with buf := { u.buf with b2 := b }, count := 0, line := if u.line = 72 then 0 else u.line + 4 }
  else { u with buf := u.buf.set u.count b, count := u.count + 1 }

/-- The state after byte `b` is written and all that it sends is answered `Ack`, with the inputs `is` behind. -/
def State.afterWrite (b : Byte) (is : List Input) (s : State) : State :=
  { s with se := s.se.afterWrite b, log := s.log ++ sent (s.se.sentByWrite b), inputs := is }

/-- What an SE write command does once a byte is consumed: SE_WRITE ends, SE_WRITEN goes on with the next (R144, R145). -/
def SeMore.next (m : SeMore) (s : State) : State :=
  match m with
  | .one => complete .ok 0 0 s
  | .many k rest => seWriteMany (k + 1) rest s

/-- `seWriteByte(b)` (R143) up to its first request, inside a command that goes on with `m`. -/
def seWriteByte (b : Byte) (m : SeMore) (s : State) : State :=
  if (sePush b s).se.count = 3 then seEmitGroup m (sePush b s) else m.next (sePush b s)

theorem seWriteOne_eq (b : Byte) (s : State) : seWriteOne b s = seWriteByte b .one s := rfl

theorem seWriteMany_cons (k : Nat) (b : Byte) (rest : List Byte) (s : State) :
    seWriteMany k (b :: rest) s = seWriteByte b (.many k rest) s := rfl

theorem seGroupDone_eq (m : SeMore) (s : State) :
    seGroupDone m s = m.next { s with se := { s.se with count := 0 } } := by
  cases m <;> rfl

theorem Bystander.next {f g : State → State} (hf : Bystander f g) (m : SeMore) (s : State) :
    m.next (f s) = g (m.next s) := by
  cases m with
  | one => exact hf.complete _ _ _ s
  | many k rest => exact hf.seWriteMany _ _ s

/-- A command that goes on to its next byte does not mind which inputs stood before. -/
theorem driveOn_next (is : List Input) (m : SeMore) (s : State) :
    driveOn is (m.next s) = drive (m.next { s with inputs := is }) :=
  (drive_over_inputs (fun js => (putInputs_bystander js).next m s) is).symm

/-- Nor what it waited on. -/
theorem next_ask (m : SeMore) (w : Waiting) (s : State) : m.next (ask w s) = m.next s :=
  (putRunning_bystander (some w)).next m s

theorem line_full_iff : ∀ l : BitVec 7, (l + 4).toNat = maxLineLength ↔ l = 72 := by decide

/-- A byte before the third is only stored. -/
theorem seWriteByte_held {s : State} (b : Byte) (m : SeMore) (hc : s.se.count ≠ 2) :
    seWriteByte b m s = m.next { s with se := s.se.afterWrite b } := by
  have h : ¬ s.se.count + 1 = 3 := by bv_omega
  rw [seWriteByte, if_neg (by exact h), SeUnit.afterWrite, if_neg hc]
  rfl

/-- The third byte asks for the group's first symbol. -/
theorem seWriteByte_third {s : State} {b b' : Byte} {rest : List Byte} (m : SeMore) (hc : s.se.count = 2)
    (he : encodeGroup s.se.buf.b0 s.se.buf.b1 b 3 = b' :: rest) :
    seWriteByte b m s = ask (.se (.group b' rest m))
      { s with se := { s.se with buf := { s.se.buf with b2 := b }, count := 3 } } := by
  rw [seWriteByte, sePush_third b hc, if_pos rfl]
  exact seEmitGroup_eq he

/-- The group's symbols are out (R142): inside a line the command goes on to its next byte. -/
theorem seSymbolsSent_inside_line {s : State} (m : SeMore) (hl : s.se.line ≠ 72) :
    seSymbolsSent m s = m.next { s with se := { s.se with line := s.se.line + 4, count := 0 } } := by
  rw [seSymbolsSent, if_neg (mt (line_full_iff _).mp hl), seGroupDone_eq]

/-- A full line asks for its line-feed. -/
theorem seSymbolsSent_full_line {s : State} (m : SeMore) (hl : s.se.line = 72) :
    seSymbolsSent m s = ask (.se (.lineFeed m)) { s with se := { s.se with line := s.se.line + 4 } } :=
  if_pos ((line_full_iff _).mpr hl)

/-- The line-feed answered `Ack`: the command goes on to its next byte. -/
theorem driveOn_lineFeed (m : SeMore) (is : List Input) (s : State) :
    driveOn (.sinkAnswer .ack :: is) (ask (.se (.lineFeed m)) s) = drive (m.next { s with
      se := { s.se with line := 0, count := 0 }, log := s.log ++ sent [lineFeed], inputs := is }) := by
  have h : seAnswered (.lineFeed m) .ack (ask (.se (.lineFeed m)) s) = m.next (ask (.se (.lineFeed m))
      { s with se := { s.se with line := 0, count := 0 }, log := s.log ++ sent [lineFeed] }) := seGroupDone_eq m _
  rw [driveOn_sinkAnswer .ack is rfl, h, next_ask, driveOn_next]

theorem sent_append (t u : List Byte) : sent (t ++ u) = sent t ++ sent u := List.map_append

section
variable {u : SeUnit} (b : Byte) (hc : u.count = 2)
include hc

theorem sentByWrite_inside_line (hl : u.line ≠ 72) : u.sentByWrite b = encodeGroup u.buf.b0 u.buf.b1 b 3 := by
  rw [SeUnit.sentByWrite, if_pos hc, if_neg hl, List.append_nil]

theorem sentByWrite_full_line (hl : u.line = 72) :
    u.sentByWrite b = encodeGroup u.buf.b0 u.buf.b1 b 3 ++ [lineFeed] := by
  rw [SeUnit.sentByWrite, if_pos hc, if_pos hl]

theorem afterWrite_inside_line (hl : u.line ≠ 72) :
    u.afterWrite b = { u with buf := { u.buf with b2 := b }, count := 0, line := u.line + 4 } := by
  rw [SeUnit.afterWrite, if_pos hc, if_neg hl]

theorem afterWrite_full_line (hl : u.line = 72) :
    u.afterWrite b = { u with buf := { u.buf with b2 := b }, count := 0, line := 0 } := by
  rw [SeUnit.afterWrite, if_pos hc, if_pos hl]

end

theorem sentByWrite_held {u : SeUnit} (b : Byte) (hc : u.count ≠ 2) : u.sentByWrite b = [] := if_neg hc

theorem afterWrite_held {u : SeUnit} (b : Byte) (hc : u.count ≠ 2) :
    u.afterWrite b = { u with buf := u.buf.set u.count b, count := u.count + 1 } := if_neg hc

/-- A byte written with all that it sends answered `Ack`. -/
theorem drive_seWriteByte_acked {s : State} {b : Byte} {is : List Input} (m : SeMore)
    (hi : s.inputs = List.replicate (s.se.sentByWrite b).length (.sinkAnswer .ack) ++ is) :
    drive (seWriteByte b m s) = drive (m.next (s.afterWrite b is)) := by
  rw [State.afterWrite]
  by_cases hc : s.se.count = 2
  · obtain ⟨s0, s1, s2, s3, he⟩ := encodeGroup_cons s.se.buf.b0 s.se.buf.b1 b 3
    rw [seWriteByte_third m hc he, drive, ask_inputs]
    by_cases hl : s.se.line = 72
    · rw [sentByWrite_full_line b hc hl, he] at hi ⊢
      rw [afterWrite_full_line b hc hl, hi, sent_append, ← List.append_assoc]
      refine (driveOn_group [s1, s2, s3] s0 m (.sinkAnswer .ack :: is) _).trans ?_
      rw [seSymbolsSent_full_line m (by exact hl)]
      exact driveOn_lineFeed m is _
    · rw [sentByWrite_inside_line b hc hl, he] at hi ⊢
      rw [afterWrite_inside_line b hc hl, hi]
      refine (driveOn_group [s1, s2, s3] s0 m is _).trans ?_
      rw [seSymbolsSent_inside_line m (by exact hl)]
      exact driveOn_next is m _
  · rw [sentByWrite_held b hc] at hi ⊢
    rw [seWriteByte_held b m hc, ← (show s.inputs = is from hi), sent, List.map_nil, List.append_nil]

/-- SE_WRITE on an Open unit, with all that it sends answered `Ack` (R144). -/
theorem exec_seWrite_acked {s : State} {b : Byte} {is : List Input} (hf : s.faulted = false)
    (ho : s.se.state = .opened)
    (hi : s.inputs = List.replicate (s.se.sentByWrite b).length (.sinkAnswer .ack) ++ is) :
    exec (.seWrite b) s = .next { s.afterWrite b is with
      code := .ok, res0 := 0, res1 := 0, busy := false, running := none } := by
  rw [exec, execSeWrite, requireOpenSe_of_open _ ho, seWriteOne_eq, drive_seWriteByte_acked .one hi, SeMore.next,
    drive_complete, complete_of_not_faulted _ _ _ (by exact hf)]

/-- SE_WRITE of a byte before the third makes no request. -/
theorem exec_seWrite_held {s : State} (b : Byte) (hf : s.faulted = false) (ho : s.se.state = .opened)
    (hc : s.se.count ≠ 2) : exec (.seWrite b) s = .next { s with
      se := { s.se with buf := s.se.buf.set s.se.count b, count := s.se.count + 1 }
      code := .ok, res0 := 0, res1 := 0, busy := false, running := none } := by
  rw [exec_seWrite_acked (is := s.inputs) hf ho (by rw [sentByWrite_held b hc]; rfl), State.afterWrite,
    sentByWrite_held b hc, afterWrite_held b hc, sent, List.map_nil, List.append_nil]

/-- Settles O33: what SE_WRITE sends and leaves, by the count and the line. -/
theorem seWriteByTheBytesHeld : Obligations.SeWriteByTheBytesHeld := by
  unfold Obligations.SeWriteByTheBytesHeld
  intro s b rest hr hf ho
  refine ⟨fun hc => ?_, fun hc => ?_, fun hc hl hi => ?_, fun hc hl hi => ?_⟩
  · rw [exec_seWrite_held b hf ho (by simp [hc]), hc, hr]
    rfl
  · rw [exec_seWrite_held b hf ho (by simp [hc]), hc, hr]
    rfl
  · have hl' : s.se.line ≠ 72 := fun h => by simp [h] at hl
    rw [exec_seWrite_acked hf ho (by rw [sentByWrite_inside_line b hc hl']; exact hi), State.afterWrite,
      sentByWrite_inside_line b hc hl', afterWrite_inside_line b hc hl', hr]
  · rw [exec_seWrite_acked hf ho (by rw [sentByWrite_full_line b hc hl]; exact hi), State.afterWrite,
      sentByWrite_full_line b hc hl, afterWrite_full_line b hc hl, hr, lineFeed]

/-! ## The flush and the close (R146, R147) -/

/-- The symbols that a flush of unit `u` sends before it: the padded group where 1 or 2 bytes are held. -/
def SeUnit.sentByFlush (u : SeUnit) : List Byte :=
  if u.count = 1 ∨ u.count = 2 then encodeGroup u.buf.b0 u.buf.b1 u.buf.b2 u.count else []

theorem sentByFlush_of_held {u : SeUnit} (hc : u.count = 1 ∨ u.count = 2) :
    u.sentByFlush = encodeGroup u.buf.b0 u.buf.b1 u.buf.b2 u.count := if_pos hc

theorem sentByFlush_of_empty {u : SeUnit} (hc : u.count = 0) : u.sentByFlush = [] := if_neg (by simp [hc])

/-- The symbols before the flush answered `Ack`: the flush is asked for. -/
theorem driveOn_seFlushBody (closing : Bool) (is : List Input) (s : State) :
    driveOn (List.replicate s.se.sentByFlush.length (.sinkAnswer .ack) ++ is) (seFlushBody closing s) =
      driveOn is (ask (.se (.flush closing)) { s with log := s.log ++ sent s.se.sentByFlush }) := by
  by_cases hc : s.se.count = 1 ∨ s.se.count = 2
  · obtain ⟨s0, s1, s2, s3, he⟩ := encodeGroup_cons s.se.buf.b0 s.se.buf.b1 s.se.buf.b2 s.se.count
    rw [seFlushBody_eq_pad hc he, sentByFlush_of_held hc, he]
    exact driveOn_pad [s1, s2, s3] s0 closing is s
  · rw [seFlushBody_eq_flush hc, SeUnit.sentByFlush, if_neg hc, sent, List.map_nil, List.append_nil]
    rfl

theorem inputs_seFlushBody (closing : Bool) (s : State) : (seFlushBody closing s).inputs = s.inputs :=
  (sinkWork_seFlushBody (.start s) closing).inputs

section
variable {s : State} {is : List Input} (hf : s.faulted = false) (ho : s.se.state = .opened)
include hf ho

/-- SE_FLUSH on an Open unit, with all its requests answered `Ack` (R146). -/
theorem exec_seFlush_acked
    (hi : s.inputs = List.replicate s.se.sentByFlush.length (.sinkAnswer .ack) ++ .sinkAnswer .ack :: is) :
    exec .seFlush s = .next { s with
      log := s.log ++ sent s.se.sentByFlush ++ [.sink .flush (some .ack)], inputs := is
      code := .ok, res0 := 0, res1 := 0, busy := false, running := none } := by
  rw [exec, execSeFlush, requireOpenSe_of_open _ ho, drive, inputs_seFlushBody, hi, driveOn_seFlushBody, driveOn_flush,
    complete_of_not_faulted _ _ _ (by exact hf)]

/-- SE_CLOSE on an Open unit, with all its requests answered `Ack` (R147). -/
theorem exec_seClose_acked
    (hi : s.inputs = List.replicate s.se.sentByFlush.length (.sinkAnswer .ack) ++
      .sinkAnswer .ack :: .sinkAnswer .ack :: is) :
    exec .seClose s = .next { s with
      se := { s.se with state := .closed }
      log := s.log ++ sent s.se.sentByFlush ++ [.sink .flush (some .ack), .sink .close (some .ack)], inputs := is
      code := .ok, res0 := 0, res1 := 0, busy := false, running := none } := by
  rw [exec, execSeClose, requireOpenSe_of_open _ ho, drive, inputs_seFlushBody, hi, driveOn_seFlushBody,
    driveOn_flush_close, complete_of_not_faulted _ _ _ (by exact hf)]

end

/-- Settles O35: the padded group where bytes are held, and the flush. -/
theorem seFlushSendsThePaddedGroup : Obligations.SeFlushSendsThePaddedGroup := by
  unfold Obligations.SeFlushSendsThePaddedGroup
  refine fun s rest hr hf ho => ⟨fun hc hi => ?_, fun hc hi => ?_⟩
  · have hs := sentByFlush_of_held hc
    rw [exec_seFlush_acked (is := rest) hf ho (by rw [hs]; exact hi), hs, hr]
  · have hs := sentByFlush_of_empty hc
    rw [exec_seFlush_acked (is := rest) hf ho (by rw [hs]; exact hi), hs, hr, sent, List.map_nil, List.append_nil]

/-- Settles O36: the requests of the flush, and the close. -/
theorem seCloseFlushesThenCloses : Obligations.SeCloseFlushesThenCloses := by
  unfold Obligations.SeCloseFlushesThenCloses
  refine fun s rest hr hf ho => ⟨fun hc hi => ?_, fun hc hi => ?_⟩
  · have hs := sentByFlush_of_held hc
    rw [exec_seClose_acked (is := rest) hf ho (by rw [hs]; exact hi), hs, hr]
  · have hs := sentByFlush_of_empty hc
    rw [exec_seClose_acked (is := rest) hf ho (by rw [hs]; exact hi), hs, hr, sent, List.map_nil, List.append_nil]

end Sys2Proof.Machine
end

section
/-! SUPPORT. Many bytes written to the Stream Encoder (43_stream_encoder.md R145, R149): SE_WRITEN and SE_WRITE of each byte
over one account of what the bytes send and leave, and that account against the bulk encoder. -/

namespace Sys2Proof.Machine

/-! ## What the bytes send and leave -/

/-- All that writing `bytes` to unit `u` sends. -/
def SeUnit.sentByWrites : List Byte → SeUnit → List Byte
  | [], _ => []
  | b :: bs, u => u.sentByWrite b ++ (u.afterWrite b).sentByWrites bs

/-- The unit after `bytes` are written to it and all that they send is answered `Ack`. -/
def SeUnit.afterWrites : List Byte → SeUnit → SeUnit
  | [], u => u
  | b :: bs, u => (u.afterWrite b).afterWrites bs

/-- The state after `bytes` are written and all that they send is answered `Ack`, with the inputs `is` behind. -/
def State.afterWrites (bytes : List Byte) (is : List Input) (s : State) : State :=
  { s with se := s.se.afterWrites bytes, log := s.log ++ sent (s.se.sentByWrites bytes), inputs := is }

theorem afterWrites_nil {s : State} {is : List Input} (hi : s.inputs = is) : s.afterWrites [] is = s := by
  subst hi
  simp [State.afterWrites, SeUnit.afterWrites, SeUnit.sentByWrites, sent]

theorem afterWrites_cons (b : Byte) (bs : List Byte) (is js : List Input) (s : State) :
    s.afterWrites (b :: bs) is = (s.afterWrite b js).afterWrites bs is := by
  simp only [State.afterWrite, State.afterWrites, SeUnit.afterWrites, SeUnit.sentByWrites, sent_append, List.append_assoc]

theorem state_afterWrite (b : Byte) (u : SeUnit) : (u.afterWrite b).state = u.state := by
  unfold SeUnit.afterWrite
  split <;> rfl

theorem state_afterWrites (bytes : List Byte) (u : SeUnit) : (u.afterWrites bytes).state = u.state := by
  induction bytes generalizing u with
  | nil => rfl
  | cons b bs ih => exact (ih _).trans (state_afterWrite b u)

theorem length_sentByWrite_le (b : Byte) (u : SeUnit) : (u.sentByWrite b).length ≤ 5 := by
  unfold SeUnit.sentByWrite
  split
  · split <;> simp [encodeGroup_length]
  · simp

theorem length_sentByWrites_le (bytes : List Byte) (u : SeUnit) : (u.sentByWrites bytes).length ≤ 5 * bytes.length := by
  induction bytes generalizing u with
  | nil => simp [SeUnit.sentByWrites]
  | cons b bs ih =>
    have h1 := length_sentByWrite_le b u
    have h2 := ih (u.afterWrite b)
    simp only [SeUnit.sentByWrites, List.length_append, List.length_cons]
    omega

/-! ## SE_WRITEN and SE_WRITE over the bytes, all answered `Ack` (R144, R145) -/

/-- The answers to what a first byte sends stand before those to what the bytes after it send. -/
theorem replicate_sentByWrites_cons (b : Byte) (bs : List Byte) (u : SeUnit) (is : List Input) :
    List.replicate (u.sentByWrites (b :: bs)).length (.sinkAnswer .ack) ++ is =
      List.replicate (u.sentByWrite b).length (.sinkAnswer .ack) ++
        (List.replicate ((u.afterWrite b).sentByWrites bs).length (.sinkAnswer .ack) ++ is) := by
  rw [SeUnit.sentByWrites, List.length_append, List.replicate_add, List.append_assoc]

/-- SE_WRITEN writes the bytes `front` and comes to those behind them. -/
theorem drive_seWriteMany_acked (front back : List Byte) (k : Nat) (is : List Input) (s : State)
    (hi : s.inputs = List.replicate (s.se.sentByWrites front).length (.sinkAnswer .ack) ++ is) :
    drive (seWriteMany k (front ++ back) s) =
      drive (seWriteMany (k + front.length) back (s.afterWrites front is)) := by
  induction front generalizing k s with
  | nil => rw [afterWrites_nil (is := is) hi]; rfl
  | cons b front ih =>
    rw [replicate_sentByWrites_cons] at hi
    rw [List.cons_append, seWriteMany_cons, drive_seWriteByte_acked _ hi, SeMore.next, ih _ _ rfl, List.length_cons,
      ← afterWrites_cons, Nat.add_assoc, Nat.add_comm 1]

/-- From `s` the commands have come to `v`: `bytes` are written, and only what a command reports may stand otherwise. -/
def Written (bytes : List Byte) (is : List Input) (s v : State) : Prop :=
  ∃ c x y b r, v = { s.afterWrites bytes is with code := c, res0 := x, res1 := y, busy := b, running := r }

/-- SE_WRITE of each byte of `front` writes them and comes to what is behind them, in a run of commands and in one that
stops at a failure. -/
theorem seWrites_acked (front : List Byte) (is : List Input) (s : State) (hf : s.faulted = false)
    (ho : s.se.state = .opened)
    (hi : s.inputs = List.replicate (s.se.sentByWrites front).length (.sinkAnswer .ack) ++ is) :
    ∃ v, Written front is s v ∧
      (∀ cs, runCommands (front.map Instr.seWrite ++ cs) s = runCommands cs v) ∧
      ∀ back, writeWhileOk (front ++ back) s = ((writeWhileOk back v).1 + front.length, (writeWhileOk back v).2) := by
  induction front generalizing s with
  | nil =>
    exact ⟨s, ⟨_, _, _, _, _, by rw [afterWrites_nil (is := is) hi]⟩, fun _ => rfl, fun _ => rfl⟩
  | cons b front ih =>
    rw [replicate_sentByWrites_cons] at hi
    obtain ⟨t, he, ht⟩ : ∃ t, exec (.seWrite b) s = .next t ∧ t = _ := ⟨_, exec_seWrite_acked hf ho hi, rfl⟩
    obtain ⟨v, hv, hrun, hwhile⟩ := ih t (by rw [ht]; exact hf) (by rw [ht]; exact (state_afterWrite b s.se).trans ho)
      (by rw [ht]; rfl)
    have hok : t.code = .ok := by rw [ht]
    refine ⟨v, ?_, fun cs => ?_, fun back => ?_⟩
    · obtain ⟨c, x, y, z, r, hv⟩ := hv
      exact ⟨c, x, y, z, r, by rw [hv, ht, afterWrites_cons b front is s.inputs]; rfl⟩
    · rw [List.map_cons, List.cons_append, runCommands, he]
      exact hrun cs
    · rw [List.cons_append, writeWhileOk, he]
      simp only [hok, if_true, hwhile, List.length_cons, Nat.add_assoc]

theorem exec_seWriten_of_admitted {s : State} (ho : s.se.state = .opened)
    (ha : admitted s.params s.latched.a0 s.latched.a1 = true) : exec .seWriten s =
      .next (drive (seWriteMany 0 (Memory.readRange s.hb s.latched.a0.toNat s.latched.a1.toNat) s)) := by
  rw [exec, execSeWriten, requireOpenSe_of_open _ ho, seWritenBody, if_pos ha]

/-- SE_WRITEN on an Open unit, with all that its range sends answered `Ack` (R145). -/
theorem exec_seWriten_acked {s : State} {bytes : List Byte} {is : List Input} (hf : s.faulted = false)
    (ho : s.se.state = .opened) (ha : admitted s.params s.latched.a0 s.latched.a1 = true)
    (hd : Memory.readRange s.hb s.latched.a0.toNat s.latched.a1.toNat = bytes)
    (hi : s.inputs = List.replicate (s.se.sentByWrites bytes).length (.sinkAnswer .ack) ++ is) :
    exec .seWriten s = .next { s.afterWrites bytes is with
      code := .ok, res0 := s.latched.a1, res1 := 0, busy := false, running := none } := by
  have hlen : bytes.length = s.latched.a1.toNat := by rw [← hd, length_readRange]
  have h := drive_seWriteMany_acked bytes [] 0 is s hi
  rw [List.append_nil, Nat.zero_add, hlen, seWriteMany, drive_complete, BitVec.ofNat_toNat, BitVec.setWidth_eq,
    complete_of_not_faulted _ _ _ (by exact hf)] at h
  rw [exec_seWriten_of_admitted ho ha, hd, h]

/-! ## A failing request (R145, R148) -/

/-- The unit as it stands when the request behind `j` answered ones of writing byte `b` fails (R142, R143): the line-feed is
the fifth. -/
def SeUnit.whereWriteFails (b : Byte) (j : Nat) (u : SeUnit) : SeUnit :=
  { u with buf := { u.buf with b2 := b }, count := 3, line := if j < 4 then u.line else u.line + 4 }

/-- The state there, the failing exchange observed, with the inputs `is` behind. -/
def State.whereWriteFails (b : Byte) (j : Nat) (e : Word) (is : List Input) (s : State) : State :=
  { s with
    se := s.se.whereWriteFails b j
    log := s.log ++ sent ((s.se.sentByWrite b).take j) ++
      [.sink (.write ((s.se.sentByWrite b).getD j 0)) (some (.fail e))]
    inputs := is }

/-- `j` symbols of a group are answered `Ack`: the next is asked for. -/
theorem driveOn_group_partly (j : Nat) (b : Byte) (rest : List Byte) (m : SeMore) (is : List Input) (s : State)
    (hj : j ≤ rest.length) :
    driveOn (List.replicate j (.sinkAnswer .ack) ++ is) (ask (.se (.group b rest m)) s) =
      driveOn is (ask (.se (.group ((b :: rest).getD j 0) (rest.drop j) m))
        { s with log := s.log ++ sent ((b :: rest).take j) }) := by
  induction j generalizing b rest s with
  | zero => simp [sent]
  | succ j ih =>
    match rest, hj with
    | c :: rest, hj =>
      have h : seAnswered (.group b (c :: rest) m) .ack (ask (.se (.group b (c :: rest) m)) s) =
          ask (.se (.group c rest m)) { s with log := s.log ++ sent [b] } := rfl
      rw [List.replicate_succ, List.cons_append, driveOn_sinkAnswer .ack _ rfl, h,
        ih c rest _ (Nat.le_of_succ_le_succ hj)]
      simp [sent]

/-- A failing answer ends the command at its request. -/
theorem driveOn_fail (w : SeWait) (e : Word) (is : List Input) (s : State) :
    driveOn (.sinkAnswer (.fail e) :: is) (ask (.se w) s) =
      raiseSe .errUpstream (portCode s.params e) w.consumed
        { s with log := s.log ++ [.sink w.request (some (.fail e))], inputs := is } := by
  have h : seAnswered w (.fail e) (ask (.se w) s) = raiseSe .errUpstream (portCode s.params e) w.consumed
      (observe (.sink w.request (some (.fail e))) s) :=
    (putRunning_bystander (some (.se w))).raiseSe _ _ _ (observe _ s)
  rw [driveOn_sinkAnswer _ is rfl, h, driveOn_of_not_running is (by exact complete_running _ _ _ _)]
  exact ((putInputs_bystander is).raiseSe _ _ _ (observe _ s)).symm

/-- A byte written with `j` of its requests answered `Ack` and the next one failing. -/
theorem drive_seWriteByte_failed {s : State} {b : Byte} {j : Nat} {e : Word} {is : List Input} (m : SeMore)
    (hj : j < (s.se.sentByWrite b).length)
    (hi : s.inputs = List.replicate j (.sinkAnswer .ack) ++ .sinkAnswer (.fail e) :: is) :
    drive (seWriteByte b m s) =
      raiseSe .errUpstream (portCode s.params e) m.consumed (s.whereWriteFails b j e is) := by
  have hc : s.se.count = 2 := by
    by_contra hc
    simp [sentByWrite_held b hc] at hj
  obtain ⟨s0, s1, s2, s3, he⟩ := encodeGroup_cons s.se.buf.b0 s.se.buf.b1 b 3
  have hs : s.se.sentByWrite b = [s0, s1, s2, s3] ++ if s.se.line = 72 then [lineFeed] else [] := by
    rw [SeUnit.sentByWrite, if_pos hc, he]
  rw [seWriteByte_third m hc he, drive, ask_inputs, State.whereWriteFails, SeUnit.whereWriteFails]
  by_cases h4 : j < 4
  · have htake : (s.se.sentByWrite b).take j = [s0, s1, s2, s3].take j := by
      rw [hs, List.take_append_of_le_length (Nat.le_of_lt h4)]
    have hget : (s.se.sentByWrite b).getD j 0 = [s0, s1, s2, s3].getD j 0 := by
      rw [hs, List.getD_append _ _ _ _ h4]
    rw [htake, hget, if_pos h4, hi]
    refine (driveOn_group_partly j s0 [s1, s2, s3] m _ _ (Nat.le_of_lt_succ h4)).trans ?_
    exact driveOn_fail _ e is _
  · have hl : s.se.line = 72 := by
      by_contra hl
      rw [hs, if_neg hl] at hj
      exact h4 hj
    obtain rfl : j = 4 := by
      rw [hs, if_pos hl] at hj
      exact Nat.eq_of_lt_succ_of_not_lt hj h4
    rw [hs, if_pos hl, if_neg h4, hi]
    refine (driveOn_group [s1, s2, s3] s0 m _ _).trans ?_
    rw [seSymbolsSent_full_line m (by exact hl)]
    exact driveOn_fail _ e is _

/-- Answers too few for all that the bytes send run out at one byte, with those before it written. -/
theorem exists_byte_of_lt_sentByWrites {bytes : List Byte} {u : SeUnit} {n : Nat}
    (hn : n < (u.sentByWrites bytes).length) :
    ∃ front b back j, bytes = front ++ b :: back ∧ n = (u.sentByWrites front).length + j ∧
      j < ((u.afterWrites front).sentByWrite b).length := by
  induction bytes generalizing u n with
  | nil => cases hn
  | cons b bs ih =>
    rw [SeUnit.sentByWrites, List.length_append] at hn
    by_cases hb : n < (u.sentByWrite b).length
    · exact ⟨[], b, bs, n, rfl, (Nat.zero_add n).symm, hb⟩
    · obtain ⟨front, c, back, j, rfl, hj, hlt⟩ := ih (u := u.afterWrite b) (n := n - (u.sentByWrite b).length) (by omega)
      refine ⟨b :: front, c, back, j, rfl, ?_, hlt⟩
      rw [SeUnit.sentByWrites, List.length_append]
      omega

/-- SE_WRITE of a byte with a failing request ends in the error there, and no byte behind it is written. -/
theorem writeWhileOk_failed {s : State} {b : Byte} {j : Nat} {e : Word} {is : List Input} (back : List Byte)
    (hf : s.faulted = false) (ho : s.se.state = .opened) (hj : j < (s.se.sentByWrite b).length)
    (hi : s.inputs = List.replicate j (.sinkAnswer .ack) ++ .sinkAnswer (.fail e) :: is) :
    writeWhileOk (b :: back) s =
      (0, raiseSe .errUpstream (portCode s.params e) 0 (s.whereWriteFails b j e is)) := by
  have hcode : (raiseSe .errUpstream (portCode s.params e) 0 (s.whereWriteFails b j e is)).code ≠ .ok := by
    rw [raiseSe_of_not_faulted _ _ _ (by exact hf)]
    show StatusCode.errUpstream ≠ .ok
    decide
  have he : exec (.seWrite b) s =
      .next (raiseSe .errUpstream (portCode s.params e) 0 (s.whereWriteFails b j e is)) := by
    rw [exec, execSeWrite, requireOpenSe_of_open _ ho, seWriteOne_eq, drive_seWriteByte_failed .one hj hi, SeMore.consumed]
  rw [writeWhileOk, he]
  exact if_neg hcode

/-- Settles O34: the answers are enough for all bytes, or one byte's request fails with those before it written. -/
theorem seWritenIsSeWriteOfEachByte : Obligations.SeWritenIsSeWriteOfEachByte := by
  unfold Obligations.SeWritenIsSeWriteOfEachByte
  intro s n rest _ hf ho _ ha hrest hi
  generalize hd : Memory.readRange s.hb s.latched.a0.toNat s.latched.a1.toNat = bytes
  have hlen : bytes.length = s.latched.a1.toNat := by rw [← hd, length_readRange]
  rcases Nat.lt_or_ge n (s.se.sentByWrites bytes).length with hn | hn
  · obtain ⟨e, is, rfl⟩ : ∃ e is, rest = .sinkAnswer (.fail e) :: is := by
      have := length_sentByWrites_le bytes s.se
      exact hrest.resolve_left (by omega)
    obtain ⟨front, b, back, j, rfl, rfl, hj⟩ := exists_byte_of_lt_sentByWrites hn
    rw [List.replicate_add, List.append_assoc] at hi
    obtain ⟨v, ⟨c, x, y, z, r, rfl⟩, -, hwhile⟩ := seWrites_acked front _ s hf ho hi
    refine ⟨_, exec_seWriten_of_admitted ho ha, fun k u hku => ?_⟩
    rw [hwhile, writeWhileOk_failed back (by exact hf) (by exact (state_afterWrites front s.se).trans ho) hj rfl] at hku
    cases hku
    rw [hd, drive_seWriteMany_acked front _ 0 _ s hi, seWriteMany_cons, drive_seWriteByte_failed _ hj rfl,
      raiseSe_of_not_faulted _ _ _ (by exact hf), raiseSe_of_not_faulted _ _ _ (by exact hf)]
    have hk : ¬ 0 + front.length = s.latched.a1.toNat := by
      rw [List.length_append, List.length_cons] at hlen
      omega
    exact ⟨rfl, by rw [if_neg hk]; exact ⟨rfl, rfl, rfl⟩⟩
  · obtain ⟨m, rfl⟩ : ∃ m, n = (s.se.sentByWrites bytes).length + m := ⟨_, (Nat.add_sub_cancel' hn).symm⟩
    rw [List.replicate_add, List.append_assoc] at hi
    obtain ⟨v, ⟨c, x, y, z, r, rfl⟩, -, hwhile⟩ := seWrites_acked bytes _ s hf ho hi
    refine ⟨_, exec_seWriten_acked hf ho ha hd hi, fun k u hku => ?_⟩
    rw [← List.append_nil bytes, hwhile, writeWhileOk] at hku
    cases hku
    refine ⟨rfl, ?_⟩
    rw [if_pos (by simpa using hlen)]
    exact ⟨rfl, rfl, rfl⟩

/-! ## Against the bulk encoder (R149) -/

section
variable {u : SeUnit} (hc : u.count = 0) (x y z : Byte)
include hc

theorem afterWrite_first : u.afterWrite x = { u with buf := { u.buf with b0 := x }, count := 1 } := by
  rw [afterWrite_held x (by simp [hc]), hc]
  rfl

theorem afterWrite_second : (u.afterWrite x).afterWrite y = { u with buf := ⟨x, y, u.buf.b2⟩, count := 2 } := by
  rw [afterWrite_first hc, afterWrite_held y (by simp)]
  rfl

theorem sentByWrite_first : u.sentByWrite x = [] := sentByWrite_held x (by simp [hc])

theorem sentByWrite_second : (u.afterWrite x).sentByWrite y = [] := by
  rw [afterWrite_first hc]
  exact sentByWrite_held y (by simp)

/-- A full group inside a line. -/
theorem writes_inside_line (rest : List Byte) (hl : u.line ≠ 72) :
    u.sentByWrites (x :: y :: z :: rest) = encodeGroup x y z 3 ++
        SeUnit.sentByWrites rest { u with buf := ⟨x, y, z⟩, count := 0, line := u.line + 4 } ∧
      u.afterWrites (x :: y :: z :: rest) =
        SeUnit.afterWrites rest { u with buf := ⟨x, y, z⟩, count := 0, line := u.line + 4 } := by
  simp only [SeUnit.sentByWrites, SeUnit.afterWrites, sentByWrite_first hc, sentByWrite_second hc, afterWrite_second hc,
    List.nil_append]
  rw [sentByWrite_inside_line z rfl (by exact hl), afterWrite_inside_line z rfl (by exact hl)]
  exact ⟨rfl, rfl⟩

/-- A full group that fills the line. -/
theorem writes_full_line (rest : List Byte) (hl : u.line = 72) :
    u.sentByWrites (x :: y :: z :: rest) = encodeGroup x y z 3 ++
        lineFeed :: SeUnit.sentByWrites rest { u with buf := ⟨x, y, z⟩, count := 0, line := 0 } ∧
      u.afterWrites (x :: y :: z :: rest) =
        SeUnit.afterWrites rest { u with buf := ⟨x, y, z⟩, count := 0, line := 0 } := by
  simp only [SeUnit.sentByWrites, SeUnit.afterWrites, sentByWrite_first hc, sentByWrite_second hc, afterWrite_second hc,
    List.nil_append]
  rw [sentByWrite_full_line z rfl (by exact hl), afterWrite_full_line z rfl (by exact hl), List.append_assoc]
  exact ⟨rfl, rfl⟩

end

/-- What the bytes and then a flush send, `g` full groups into a line, is their bulk encoding from there. -/
theorem sentByWrites_sentByFlush {g : Nat} (hg : g ≤ 18) (bytes : List Byte) :
    ∀ u : SeUnit, u.count = 0 → u.line.toNat = 4 * g →
      u.sentByWrites bytes ++ (u.afterWrites bytes).sentByFlush = bulkEncodeFrom (4 * g) bytes := by
  refine bulkEncodeFrom_induction (P := fun g bytes text => ∀ u : SeUnit, u.count = 0 → u.line.toNat = 4 * g →
      u.sentByWrites bytes ++ (u.afterWrites bytes).sentByFlush = text)
    (fun g _ u hc _ => ?_) (fun g x _ u hc _ => ?_) (fun g x y _ u hc _ => ?_) (fun x y z rest text ih u hc hl => ?_)
    (fun g x y z rest text hg ih u hc hl => ?_) hg bytes
  · exact sentByFlush_of_empty hc
  · simp only [SeUnit.sentByWrites, SeUnit.afterWrites, sentByWrite_first hc, afterWrite_first hc]
    rw [sentByFlush_of_held (by exact .inl rfl)]
    rfl
  · simp only [SeUnit.sentByWrites, SeUnit.afterWrites, sentByWrite_first hc, sentByWrite_second hc,
      afterWrite_second hc]
    rw [sentByFlush_of_held (by exact .inr rfl)]
    rfl
  · obtain ⟨hsent, hafter⟩ := writes_full_line hc x y z rest (BitVec.eq_of_toNat_eq hl)
    rw [hsent, hafter, List.append_assoc, List.cons_append, ih _ rfl rfl]
  · have hne : u.line ≠ 72 := by bv_omega
    obtain ⟨hsent, hafter⟩ := writes_inside_line hc x y z rest hne
    rw [hsent, hafter, List.append_assoc, ih _ rfl (show (u.line + 4).toNat = 4 * (g + 1) by bv_omega)]

/-- On a unit just opened it is the whole bulk encoding. -/
theorem sentByWrites_of_just_opened (bytes : List Byte) {u : SeUnit}
    (hu : u = { state := .opened, buf := ⟨0, 0, 0⟩, count := 0, line := 0 }) :
    u.sentByWrites bytes ++ (u.afterWrites bytes).sentByFlush = bulkEncode bytes :=
  sentByWrites_sentByFlush (Nat.zero_le _) bytes u (by rw [hu]) (by rw [hu]; rfl)

theorem runCommands_cons_of_next {i : Instr} {s t : State} (cs : List Instr) (h : exec i s = .next t) :
    runCommands (i :: cs) s = runCommands cs t := by
  rw [runCommands, h]

/-- SE_FLUSH and SE_CLOSE behind bytes written to a unit just opened: the sink has got their bulk encoding. -/
theorem flush_and_close_of_written {bytes : List Byte} {is : List Input} {s v : State} (hf : s.faulted = false)
    (ho : s.se = { state := .opened, buf := ⟨0, 0, 0⟩, count := 0, line := 0 })
    (hv : Written bytes (List.replicate (s.se.afterWrites bytes).sentByFlush.length (.sinkAnswer .ack) ++
      .sinkAnswer .ack :: .sinkAnswer .ack :: is) s v) :
    (∃ t, runCommands [.seFlush] v = .next t ∧ t.code = .ok ∧
      t.log = s.log ++ sent (bulkEncode bytes) ++ [.sink .flush (some .ack)]) ∧
    (∃ t, runCommands [.seClose] v = .next t ∧ t.code = .ok ∧ t.se.state = .closed ∧
      t.log = s.log ++ sent (bulkEncode bytes) ++ [.sink .flush (some .ack), .sink .close (some .ack)]) := by
  have hopen : (s.se.afterWrites bytes).state = .opened := by rw [state_afterWrites, ho]
  have henc : s.log ++ sent (s.se.sentByWrites bytes) ++ sent (s.se.afterWrites bytes).sentByFlush =
      s.log ++ sent (bulkEncode bytes) := by
    rw [List.append_assoc, ← sent_append, sentByWrites_of_just_opened bytes ho]
  obtain ⟨c, x, y, b, r, rfl⟩ := hv
  rw [← henc]
  exact ⟨⟨_, runCommands_cons_of_next [] (exec_seFlush_acked (by exact hf) (by exact hopen) rfl), rfl, rfl⟩,
    ⟨_, runCommands_cons_of_next [] (exec_seClose_acked (by exact hf) (by exact hopen) rfl), rfl, rfl, rfl⟩⟩

/-- Settles O38: SE_WRITE of each byte and SE_WRITEN come to states with the same bytes written, whose symbols with those of
the flush are the bulk encoding. -/
theorem streamEncoderSendsTheBulkEncoding : Obligations.StreamEncoderSendsTheBulkEncoding := by
  unfold Obligations.StreamEncoderSendsTheBulkEncoding
  intro s b n _ hf ho hn hi
  have hopen : s.se.state = .opened := by rw [ho]
  have hlen : (s.se.sentByWrites b).length + (s.se.afterWrites b).sentByFlush.length = (bulkEncode b).length := by
    rw [← List.length_append, sentByWrites_of_just_opened b ho]
  obtain ⟨m, rfl⟩ : ∃ m, n = (s.se.sentByWrites b).length + ((s.se.afterWrites b).sentByFlush.length + (m + 2)) :=
    ⟨n - (bulkEncode b).length - 2, by omega⟩
  rw [List.replicate_add, List.replicate_add] at hi
  obtain ⟨v, hv, hrun, -⟩ := seWrites_acked b _ s hf hopen hi
  obtain ⟨hflush, hclose⟩ := flush_and_close_of_written (is := List.replicate m _) hf ho hv
  refine ⟨by rw [hrun]; exact hflush, by rw [hrun]; exact hclose, fun ha hd => ?_⟩
  have hmany := fun cs => runCommands_cons_of_next cs (exec_seWriten_acked hf hopen ha hd hi)
  rw [hmany, hmany]
  exact flush_and_close_of_written hf ho ⟨_, _, _, _, _, rfl⟩

end Sys2Proof.Machine
end

section
/-! SUPPORT. How a Stream Decoder command begins, by the phase of the unit, and the commands that take no byte of the source
(44_stream_decoder.md R160–R163, R168). -/

namespace Sys2Proof.Machine

/-! ## Binding the unit, and the unit a command needs (R160, R161) -/

/-- Settles O39: OPEN_SOURCE is one test of the unit's phase. -/
theorem openSourceBindsTheUnit : Obligations.OpenSourceBindsTheUnit := by
  unfold Obligations.OpenSourceBindsTheUnit
  refine ⟨by decide, ⟨.wrongDirection, by decide⟩, fun s => ⟨fun hb hf => ?_, fun hb hf => ?_⟩⟩
  · rw [exec_openSource, if_neg hb, complete_of_not_faulted _ _ _ (by exact hf)]
    rfl
  · rw [exec_openSource, if_pos hb, takeFault_of_not_faulted _ hf]

/-- Every SD command but OPEN_SOURCE does something on a bound unit alone. -/
theorem exec_requires_bound {i : Instr} (hi : i = .sdRead ∨ i = .sdReadn ∨ i = .sdClose) (s : State) :
    ∃ body, exec i s = .next (requireOpenSd s body) := by
  rcases hi with rfl | rfl | rfl <;> exact ⟨_, rfl⟩

/-- Settles O40: the unit is looked at first. -/
theorem sourceCommandsNeedABoundUnit : Obligations.SourceCommandsNeedABoundUnit := by
  unfold Obligations.SourceCommandsNeedABoundUnit
  intro s i hi hf
  obtain ⟨body, h⟩ := exec_requires_bound hi s
  refine ⟨fun hs => ?_, fun hs => ?_, fun hs => ?_⟩ <;>
    simp only [h, requireOpenSd, hs, takeFault_of_not_faulted _ hf]

/-! ## SD_READ by the phase of a bound unit (R162) -/

theorem exec_sdRead_of_exhausted {s : State} (hp : s.sd.phase = .exhausted) :
    exec .sdRead s = .next (complete .eos 0 0 s) := by
  rw [exec, execSdRead, requireOpenSd_of_bound _ (.inr (.inr hp)), sdReadBody, if_pos hp]

theorem exec_sdRead_of_ready {s : State} (hp : s.sd.phase = .ready) : exec .sdRead s = .next (sdReadServe s) := by
  rw [exec, execSdRead, requireOpenSd_of_bound _ (.inr (.inl hp)), sdReadBody, if_neg (by simp [hp]),
    if_neg (by simp [hp])]

theorem exec_sdRead_of_empty {s : State} (hp : s.sd.phase = .empty) :
    exec .sdRead s = .next (drive (ask (.sd .read) s)) := by
  rw [exec, execSdRead, requireOpenSd_of_bound _ (.inl hp), sdReadBody, if_neg (by simp [hp]), if_pos hp]

/-- Settles O41: SD_READ serves the cached byte at `sd_pos`. -/
theorem sdReadServesTheCachedByte : Obligations.SdReadServesTheCachedByte := by
  unfold Obligations.SdReadServesTheCachedByte
  intro s hf hp hn
  rw [exec_sdRead_of_ready hp, sdReadServe, complete_of_not_faulted _ _ _ (by exact hf), sdServe_unit hn hp,
    setWidth_eq_zero_append]
  rfl

/-! ## An Exhausted unit (R162, R167) -/

/-- `complete` outside a fault on an idle state: nothing waits before or after. -/
theorem complete_on_idle (c : StatusCode) (x y : Word) {s : State} (hf : s.faulted = false) (hr : s.running = none) :
    complete c x y s = { s with code := c, res0 := x, res1 := y, busy := false } := by
  rw [complete_of_not_faulted _ _ _ hf, ← hr]

/-- SD_READN's loop at end-of-stream, before the first byte and later. -/
theorem sdReadMany_of_exhausted (left k : Nat) {s : State} (hp : s.sd.phase = .exhausted) :
    sdReadMany (left + 1) k s = sdReadNEos k s := sdReadUpTo_of_exhausted _ _ _ hp

/-- A length that is not 0 leaves at least one byte to read. -/
theorem exists_toNat_eq_succ {n : Word} (h : n ≠ 0) : ∃ left, n.toNat = left + 1 :=
  Nat.exists_eq_succ_of_ne_zero fun h0 => h (BitVec.eq_of_toNat_eq h0)

/-- Settles O42: both commands find the phase Exhausted and complete. -/
theorem exhaustedUnitGivesEndOfStream : Obligations.ExhaustedUnitGivesEndOfStream := by
  unfold Obligations.ExhaustedUnitGivesEndOfStream
  intro s hr hf hp
  have heos := complete_on_idle .eos 0 0 hf hr
  refine ⟨by rw [exec_sdRead_of_exhausted hp, heos], fun ha hz => ?_⟩
  obtain ⟨left, hl⟩ := exists_toNat_eq_succ hz
  rw [exec_sdReadn_of_admitted (.inr (.inr hp)) ha hz, hl, sdReadMany_of_exhausted _ _ hp, sdReadNEos, if_pos rfl,
    drive_complete, heos]

/-! ## The close (R168) -/

/-- An error outside a fault: the unit fails, and the code and the result words are written (R203). -/
theorem raiseSd_of_not_faulted (c : StatusCode) (x y : Word) {s : State} (h : s.faulted = false) :
    raiseSd c x y s = { s with
      sd := { s.sd with phase := .failed }, code := c, res0 := x, res1 := y, busy := false, running := none } :=
  complete_of_not_faulted _ _ _ h

/-- SD_CLOSE of a bound unit with its close answered. -/
theorem exec_sdClose_answered {s : State} {a : Ack} {rest : List Input} (hb : s.sd.bound) (hc : s.sd.count = 0)
    (hi : s.inputs = .closeAnswer a :: rest) : exec .sdClose s =
      .next (sdCloseGoesOn a { s with log := s.log ++ [.sourceClose (some a)], inputs := rest }) := by
  have hend : (sdCloseAnswered a (ask (.sd .close) s)).running = none := by cases a <;> exact complete_running _ _ _ _
  rw [exec, execSdClose, requireOpenSd_of_bound _ hb, sdCloseBody, if_pos hc, drive, ask_inputs, hi,
    driveOn_closeAnswer a rest rfl, driveOn_of_not_running rest hend]
  refine congrArg _ (Eq.trans ?_ ((putInputs_bystander rest).sdCloseGoesOn a (observe _ s)).symm)
  exact congrArg (putInputs rest) ((putRunning_bystander (some (.sd .close))).sdCloseGoesOn a (observe _ s))

/-- Settles O47: the close and how each answer ends it; a partial quartet ends the command before the request. -/
theorem sdCloseClosesTheSource : Obligations.SdCloseClosesTheSource := by
  unfold Obligations.SdCloseClosesTheSource
  intro s rest hr hf hb
  refine ⟨fun hc hi => ?_, fun e hc he hi => ?_, fun hc => ?_⟩
  · rw [exec_sdClose_answered hb hc hi, sdCloseGoesOn, complete_on_idle _ _ _ (by exact hf) (by exact hr)]
  · rw [exec_sdClose_answered hb hc hi, sdCloseGoesOn, portCode_of_lt (by exact he), raiseSd,
      complete_on_idle _ _ _ (by exact hf) (by exact hr)]
  · rw [exec, execSdClose, requireOpenSd_of_bound _ hb, sdCloseBody, if_neg hc, raiseSd,
      complete_on_idle _ _ _ (by exact hf) (by exact hr)]

end Sys2Proof.Machine
end

section
/-! SUPPORT. The filling of a quartet (44_stream_decoder.md R164–R166): the bytes that a unit takes without an end of its
loop, and the answer that ends it, for SD_READ and SD_READN. -/

namespace Sys2Proof.Machine

/-! ## The symbols held, and the bytes that only add to them (R164) -/

/-- The symbols of the quartet in progress. -/
def SdUnit.held (u : SdUnit) : List Sym := [u.acc.c0, u.acc.c1, u.acc.c2, u.acc.c3].take u.count.toNat

/-- The quartet in progress takes in `text`: whitespace, and symbols that do not complete it. -/
def SdUnit.hasRoom (u : SdUnit) (text : List Byte) : Prop :=
  (∀ c ∈ text, cls c ≠ .inv) ∧ u.count.toNat + (symbolsOf text).length ≤ 3

/-- The unit after `sdFill()`'s loop body on each byte of `text`. -/
def SdUnit.scan (text : List Byte) (u : SdUnit) : SdUnit := text.foldl (fun u b => (sdByte b u).2) u

theorem held_of_count_eq_zero {u : SdUnit} (h : u.count = 0) : u.held = [] := by simp [SdUnit.held, h]

/-- Three symbols held are the first three of the accumulator. -/
theorem acc_of_held {u : SdUnit} {c0 c1 c2 : Sym} (hc : u.count = 3) (h : u.held = [c0, c1, c2]) :
    u.acc.c0 = c0 ∧ u.acc.c1 = c1 ∧ u.acc.c2 = c2 := by
  simpa [SdUnit.held, hc] using h

theorem count_lt_three_cases : ∀ n : BitVec 3, n.toNat < 3 → n = 0 ∨ n = 1 ∨ n = 2 := by decide

/-- A symbol taken is counted. -/
theorem toNat_took_count {u : SdUnit} (h : u.count.toNat < 3) (c : Sym) :
    (u.took c).count.toNat = u.count.toNat + 1 := by
  rcases count_lt_three_cases u.count h with e | e | e <;> rw [took_count, e] <;> rfl

/-- A symbol taken stands behind those held. -/
theorem held_took {u : SdUnit} (h : u.count.toNat < 3) (c : Sym) : (u.took c).held = u.held ++ [c] := by
  rcases count_lt_three_cases u.count h with e | e | e <;> simp [SdUnit.held, Syms4.set, e]

/-- Room for a text that begins with whitespace. -/
theorem hasRoom_cons_ws {u : SdUnit} {b : Byte} (hk : cls b = .ws) (text : List Byte) :
    u.hasRoom (b :: text) ↔ u.hasRoom text := by
  simp only [SdUnit.hasRoom, List.forall_mem_cons, symbolsOf_cons_ws hk, hk]
  simp

/-- Room for a text that begins with a symbol. -/
theorem hasRoom_cons_sym {u : SdUnit} {b : Byte} {c : Sym} (hk : cls b = .sym c) (h3 : u.count.toNat < 3)
    (text : List Byte) : u.hasRoom (b :: text) ↔ (u.took c).hasRoom text := by
  simp only [SdUnit.hasRoom, List.forall_mem_cons, symbolsOf_cons_sym hk, hk, List.length_cons, toNat_took_count h3,
    Nat.add_assoc, Nat.add_comm 1]
  simp

/-- No room for a fourth symbol, nor for an invalid byte. -/
theorem hasRoom_cons_cases {u : SdUnit} {b : Byte} {text : List Byte} (h : u.hasRoom (b :: text)) :
    cls b = .ws ∨ ∃ c, cls b = .sym c ∧ u.count.toNat < 3 := by
  obtain ⟨hinv, hlen⟩ := h
  cases hk : cls b with
  | inv => exact absurd hk (hinv b (List.mem_cons_self ..))
  | ws => exact .inl rfl
  | sym c =>
    rw [symbolsOf_cons_sym hk, List.length_cons] at hlen
    exact .inr ⟨c, rfl, by omega⟩

/-- A symbol before the fourth is taken. -/
theorem sdByte_of_lt_three {u : SdUnit} {b : Byte} {c : Sym} (hk : cls b = .sym c) (h3 : u.count.toNat < 3) :
    sdByte b u = (.more, u.took c) :=
  sdByte_of_sym hk fun e => absurd h3 (by rw [e]; decide)

/-- The loop asks on after each byte of a text that the quartet has room for. -/
theorem sdByte_of_hasRoom {u : SdUnit} {b : Byte} {text : List Byte} (h : u.hasRoom (b :: text)) :
    (sdByte b u).1 = .more ∧ (sdByte b u).2.hasRoom text := by
  rcases hasRoom_cons_cases h with hk | ⟨c, hk, h3⟩
  · rw [sdByte_of_ws u hk]
    exact ⟨rfl, (hasRoom_cons_ws hk text).mp h⟩
  · rw [sdByte_of_lt_three hk h3]
    exact ⟨rfl, (hasRoom_cons_sym hk h3 text).mp h⟩

/-- One more byte counted (R36). -/
theorem srcidx_succ (i : Word) (n : Nat) : i + BitVec.ofNat 32 n + 1 = i + BitVec.ofNat 32 (n + 1) := by
  rw [BitVec.ofNat_add, BitVec.add_assoc]
  rfl

/-- What a text that the quartet has room for leaves: its bytes are counted, and its symbols held. -/
theorem scan_of_hasRoom {text : List Byte} {u : SdUnit} (h : u.hasRoom text) :
    u.scan text = { u with
        srcidx := u.srcidx + BitVec.ofNat 32 text.length
        acc := (u.scan text).acc
        count := (u.scan text).count } ∧
      (u.scan text).count.toNat = u.count.toNat + (symbolsOf text).length ∧
      (u.scan text).held = u.held ++ symbolsOf text := by
  induction text generalizing u with
  | nil => exact ⟨by simp [SdUnit.scan], rfl, (List.append_nil _).symm⟩
  | cons b text ih =>
    have hidx : u.srcidx + BitVec.ofNat 32 (b :: text).length = u.srcidx + 1 + BitVec.ofNat 32 text.length := by
      rw [List.length_cons, ← srcidx_succ, add_right_comm]
    have hscan : u.scan (b :: text) = (sdByte b u).2.scan text := rfl
    obtain ⟨hu, hcount, hheld⟩ := ih (sdByte_of_hasRoom h).2
    rw [hidx, hscan]
    rcases hasRoom_cons_cases h with hk | ⟨c, hk, h3⟩
    · rw [sdByte_of_ws u hk] at hu hcount hheld ⊢
      rw [symbolsOf_cons_ws hk]
      exact ⟨hu, hcount, hheld⟩
    · rw [sdByte_of_lt_three hk h3] at hu hcount hheld ⊢
      rw [symbolsOf_cons_sym hk]
      refine ⟨hu, ?_, ?_⟩
      · rw [hcount, toNat_took_count h3, List.length_cons]
        omega
      · rw [hheld, held_took h3, List.append_assoc, List.singleton_append]

/-- A byte of `text` ends the filling: behind bytes that the quartet has room for, it is invalid or the fourth symbol. -/
def SdUnit.endsWithin (text : List Byte) (u : SdUnit) : Prop :=
  ∃ front raw back, text = front ++ raw :: back ∧ u.hasRoom front ∧
    (cls raw = .inv ∨ ∃ c, cls raw = .sym c ∧ (u.scan front).count = 3)

theorem hasRoom_or_endsWithin (text : List Byte) {u : SdUnit} (h : u.count.toNat ≤ 3) :
    u.hasRoom text ∨ u.endsWithin text := by
  induction text generalizing u with
  | nil => exact .inl ⟨nofun, h⟩
  | cons b text ih =>
    have hbehind : (∀ t, (sdByte b u).2.hasRoom t → u.hasRoom (b :: t)) → (sdByte b u).2.count.toNat ≤ 3 →
        u.hasRoom (b :: text) ∨ u.endsWithin (b :: text) := fun hroom hc => by
      rcases ih hc with hr | ⟨front, raw, back, rfl, hr, hend⟩
      · exact .inl (hroom _ hr)
      · exact .inr ⟨b :: front, raw, back, rfl, hroom _ hr, hend⟩
    cases hk : cls b with
    | inv => exact .inr ⟨[], b, text, rfl, ⟨nofun, h⟩, .inl hk⟩
    | ws =>
      rw [sdByte_of_ws u hk] at hbehind
      exact hbehind (fun t => (hasRoom_cons_ws hk t).mpr) h
    | sym c =>
      rcases Nat.lt_or_eq_of_le h with h3 | h3
      · rw [sdByte_of_lt_three hk h3, toNat_took_count h3] at hbehind
        exact hbehind (fun t => (hasRoom_cons_sym hk h3 t).mpr) h3
      · exact .inr ⟨[], b, text, rfl, ⟨nofun, h⟩, .inr ⟨c, hk, BitVec.eq_of_toNat_eq h3⟩⟩

/-! ## The answers taken (R164) -/

/-- The source's answers that give the bytes `text`. -/
abbrev given (text : List Byte) : List Input := text.map fun b => .readAnswer (.byte b)

/-- The state when `front` and then `a` are answered: `front` has its effect on the unit, `a` not yet, and the inputs `rest`
stand behind. -/
def State.answeredWith (front : List Byte) (a : ReadAnswer) (rest : List Input) (s : State) : State :=
  { s with
    sd := s.sd.scan front
    log := s.log ++ front.map (fun b => .sourceRead (some (.byte b))) ++ [.sourceRead (some a)]
    inputs := rest }

/-- SD_READ and SD_READN take an answer after which the loop asks on in the same way. -/
theorem answered_of_more {w : SdWait} (hw : w.request = .read) {a : ReadAnswer} {s : State}
    (h : (sdFillStep s.params a s.sd).1 = .more) :
    answered (.readAnswer a) (ask (.sd w) s) = some (ask (.sd w) { s with
      sd := (sdFillStep s.params a s.sd).2, log := s.log ++ [.sourceRead (some a)] }) := by
  cases w with
  | read => simp [answered, sdReadAnswered, sdReadGoesOn, sdReadOn, h]; rfl
  | readN k => simp [answered, sdReadNAnswered, sdReadNGoesOn, sdReadNOn, h]; rfl
  | close => cases hw

/-- Both take in a text that the quartet has room for, and ask on. -/
theorem driveOn_hasRoom {w : SdWait} (hw : w.request = .read) {front : List Byte} (is : List Input) {s : State}
    (h : s.sd.hasRoom front) : driveOn (given front ++ is) (ask (.sd w) s) =
      driveOn is (ask (.sd w) { s with
        sd := s.sd.scan front, log := s.log ++ front.map (fun b => .sourceRead (some (.byte b))) }) := by
  induction front generalizing s with
  | nil => simp [SdUnit.scan]
  | cons b front ih =>
    obtain ⟨hmore, hroom⟩ := sdByte_of_hasRoom h
    refine (driveOn_cons_of_answered (answered_of_more (a := .byte b) (s := s) hw hmore)).trans ((ih hroom).trans ?_)
    rw [List.append_assoc]
    rfl

/-- Nothing runs once SD_READ does not ask on. -/
theorem sdReadGoesOn_running {a : ReadAnswer} {s : State} (h : (sdFillStep s.params a s.sd).1 ≠ .more) :
    (sdReadGoesOn a s).running = none := by
  unfold sdReadGoesOn sdReadOn
  split
  · exact absurd ‹_› h
  all_goals exact complete_running _ _ _ _

section
variable {s : State} {front : List Byte} {a : ReadAnswer} {rest : List Input} (hroom : s.sd.hasRoom front)
  (hi : s.inputs = given front ++ .readAnswer a :: rest)
include hroom hi

/-- SD_READ's quartet, up to the answer that ends the filling. -/
theorem drive_ask_read (hend : (sdFillStep s.params a (s.sd.scan front)).1 ≠ .more) :
    drive (ask (.sd .read) s) = sdReadGoesOn a (s.answeredWith front a rest) := by
  have hanswered : ∀ u, sdReadAnswered a (ask (.sd .read) u) = sdReadGoesOn a (observe (.sourceRead (some a)) u) :=
    fun u => (putRunning_bystander (some (.sd .read))).sdReadGoesOn a (observe _ u)
  rw [drive, ask_inputs, hi, driveOn_hasRoom rfl _ hroom, driveOn_readAnswer a rest rfl, hanswered,
    driveOn_of_not_running rest (sdReadGoesOn_running (by exact hend))]
  exact ((putInputs_bystander rest).sdReadGoesOn a (observe _ _)).symm

/-- SD_READN's quartet, up to the answer that ends the filling. -/
theorem drive_ask_readN (k : Nat) : drive (ask (.sd (.readN k)) s) =
    drive (sdReadNGoesOn (s.latched.a1.toNat - k) k a (s.answeredWith front a rest)) := by
  have hanswered : ∀ u, sdReadNAnswered k a (ask (.sd (.readN k)) u) =
      sdReadNGoesOn (u.latched.a1.toNat - k) k a (observe (.sourceRead (some a)) u) :=
    fun u => (putRunning_bystander (some (.sd (.readN k)))).sdReadNGoesOn _ k a (observe _ u)
  have hinputs : ∀ n u, drive (sdReadNGoesOn n k a (putInputs rest u)) = driveOn rest (sdReadNGoesOn n k a u) :=
    fun n u => by rw [(putInputs_bystander rest).sdReadNGoesOn]; exact driveOn_putInputs rest rest _
  rw [drive, ask_inputs, hi, driveOn_hasRoom rfl _ hroom, driveOn_readAnswerN a rest rfl, hanswered]
  exact (hinputs _ _).symm

/-- SD_READ of an Empty unit ends with the answer that ends the filling. -/
theorem exec_sdRead_filling (hp : s.sd.phase = .empty) {step : FillStep} {v : SdUnit}
    (hend : sdFillStep s.params a (s.sd.scan front) = (step, v)) (hm : step ≠ .more) :
    exec .sdRead s = .next (sdReadOn (step, v) (s.answeredWith front a rest)) := by
  have hmore : (sdFillStep s.params a (s.sd.scan front)).1 ≠ .more := by rw [hend]; exact hm
  rw [exec_sdRead_of_empty hp, drive_ask_read hroom hi hmore, ← hend]
  rfl

/-- The filling ends in an error (R165, R166, R203). -/
theorem exec_sdRead_error (hf : s.faulted = false) (hp : s.sd.phase = .empty) {c : StatusCode} {x y : Word} {v : SdUnit}
    (hend : sdFillStep s.params a (s.sd.scan front) = (.error c x y, v)) :
    exec .sdRead s = .next { s.answeredWith front a rest with
      sd := v.asFailed, code := c, res0 := x, res1 := y, busy := false, running := none } := by
  rw [exec_sdRead_filling hroom hi hp hend nofun]
  exact congrArg _ (raiseSd_of_not_faulted _ _ _ hf)

/-- The filling ends at End with nothing held (R166). -/
theorem exec_sdRead_eos (hf : s.faulted = false) (hp : s.sd.phase = .empty) {v : SdUnit}
    (hend : sdFillStep s.params a (s.sd.scan front) = (.eos, v)) :
    exec .sdRead s = .next { s.answeredWith front a rest with
      sd := v, code := .eos, res0 := 0, res1 := 0, busy := false, running := none } := by
  rw [exec_sdRead_filling hroom hi hp hend nofun]
  exact congrArg _ (complete_of_not_faulted _ _ _ hf)

/-- The filling ends with a quartet: SD_READ is that of the Ready unit (R162, R163). -/
theorem exec_sdRead_filled (hp : s.sd.phase = .empty) {v : SdUnit}
    (hend : sdFillStep s.params a (s.sd.scan front) = (.filled, v)) :
    exec .sdRead s = .next (sdReadServe { s.answeredWith front a rest with sd := v }) :=
  exec_sdRead_filling hroom hi hp hend nofun

end

/-! ## The answers that end the filling (R164–R166) -/

/-- End of the source with no symbol held. -/
theorem sdFillStep_end (p : Params) {u : SdUnit} (hc : u.count = 0) :
    sdFillStep p .endOfInput u = (.eos, { u with phase := .exhausted }) := if_pos hc

/-- Failure of the source with no symbol held. -/
theorem sdFillStep_fail (p : Params) (e : Word) {u : SdUnit} (hc : u.count = 0) :
    sdFillStep p (.fail e) u = (.error .errUpstream (portCode p e) 0, u.asFailed) := if_pos hc

/-- End or failure of the source inside a quartet. -/
theorem sdFillStep_inside (p : Params) {a : ReadAnswer} (ha : (∃ e, a = .fail e) ∨ a = .endOfInput) {u : SdUnit}
    (hc : u.count ≠ 0) :
    sdFillStep p a u = (.error .errImproperPadding (u.count.setWidth 32) 0, u.asFailed) := by
  rcases ha with ⟨e, rfl⟩ | rfl
  · exact if_neg hc
  · exact if_neg hc

theorem hasRoom_of_count_eq_zero {u : SdUnit} {text : List Byte} (hc : u.count = 0) (hinv : ∀ c ∈ text, cls c ≠ .inv)
    (h3 : (symbolsOf text).length ≤ 3) : u.hasRoom text := ⟨hinv, by simpa [hc] using h3⟩

section
variable {u : SdUnit} {text : List Byte} (hroom : u.hasRoom text)
include hroom

theorem scan_srcidx : (u.scan text).srcidx = u.srcidx + BitVec.ofNat 32 text.length :=
  congrArg SdUnit.srcidx (scan_of_hasRoom hroom).1

theorem scan_phase : (u.scan text).phase = u.phase :=
  (congrArg SdUnit.phase (scan_of_hasRoom hroom).1 :)

/-- The number of symbols held, as a result word. -/
theorem scan_count_setWidth (hc : u.count = 0) :
    (u.scan text).count.setWidth 32 = BitVec.ofNat 32 (symbolsOf text).length := by
  rw [← BitVec.ofNat_toNat, (scan_of_hasRoom hroom).2.1, hc]
  simp

theorem scan_count_eq_zero_iff (hc : u.count = 0) : (u.scan text).count = 0 ↔ (symbolsOf text).length = 0 := by
  rw [← BitVec.toNat_inj, (scan_of_hasRoom hroom).2.1, hc]
  simp

/-- The unit before the fourth symbol of a quartet. -/
theorem scan_before_fourth (hc : u.count = 0) {c0 c1 c2 : Sym} (hs : symbolsOf text = [c0, c1, c2]) :
    (u.scan text).count = 3 ∧ (u.scan text).acc.c0 = c0 ∧ (u.scan text).acc.c1 = c1 ∧ (u.scan text).acc.c2 = c2 := by
  obtain ⟨-, hcount, hheld⟩ := scan_of_hasRoom hroom
  have h3 : (u.scan text).count = 3 := BitVec.eq_of_toNat_eq (by rw [hcount, hc, hs]; rfl)
  exact ⟨h3, acc_of_held h3 (by rw [hheld, held_of_count_eq_zero hc, hs, List.nil_append])⟩

end

/-- Settles O44: by the number of symbols held when the source ends or fails. -/
theorem sourceEndsOrFailsInsideAQuartet : Obligations.SourceEndsOrFailsInsideAQuartet := by
  unfold Obligations.SourceEndsOrFailsInsideAQuartet
  intro s front n a rest _ hf hp hc hinv hn h3 hi ha
  rw [← length_symbolsOf hinv] at hn
  subst hn
  have hroom := hasRoom_of_count_eq_zero hc hinv h3
  have hidx := scan_srcidx hroom
  by_cases h0 : (symbolsOf front).length = 0
  · have hz := (scan_count_eq_zero_iff hroom hc).mpr h0
    rcases ha with ⟨e, rfl⟩ | rfl
    · refine ⟨_, exec_sdRead_error hroom hi hf hp (sdFillStep_fail _ e hz), rfl, rfl, rfl, rfl, hidx,
        fun h => by omega, nofun, fun _ e' he hw => ?_⟩
      cases he
      exact ⟨rfl, portCode_of_lt hw, rfl⟩
    · exact ⟨_, exec_sdRead_eos hroom hi hf hp (sdFillStep_end _ hz), rfl, rfl, rfl, rfl, hidx,
        fun h => by omega, fun _ _ => ⟨rfl, rfl, rfl⟩, nofun⟩
  · have hz := mt (scan_count_eq_zero_iff hroom hc).mp h0
    exact ⟨_, exec_sdRead_error hroom hi hf hp (sdFillStep_inside _ ha hz), rfl, rfl, rfl, rfl, hidx,
      fun _ => ⟨rfl, scan_count_setWidth hroom hc, rfl⟩, fun h => absurd h h0, fun h => absurd h h0⟩

/-! ## Malformed input (R165) -/

theorem symbolsOf_significant (text : List Byte) : symbolsOf (significant text) = symbolsOf text := by
  rw [symbolsOf, significant, List.filterMap_filter]
  refine congrArg (List.filterMap · text) (funext fun b => ?_)
  cases hk : cls b <;> simp [isWhitespace, hk, Cls.symbol?]

/-- The symbols of a text, by the classes of its significant bytes. -/
theorem symbolsOf_of_classes {text : List Byte} {cs : List Sym} (h : (significant text).map cls = cs.map Cls.sym) :
    symbolsOf text = cs := by
  have hmap : symbolsOf (significant text) = ((significant text).map cls).filterMap Cls.symbol? := by
    rw [List.filterMap_map]
    rfl
  rw [← symbolsOf_significant, hmap, h, List.filterMap_map]
  exact List.filterMap_some

/-- Settles O45: an invalid byte, or the fourth symbol of a misplaced padding, ends the filling in an error. -/
theorem sdReadReportsMalformedInput : Obligations.SdReadReportsMalformedInput := by
  unfold Obligations.SdReadReportsMalformedInput
  intro s front raw rest _ hf hp hc hinv h3 hi hraw
  rw [← length_symbolsOf hinv] at h3
  have hroom := hasRoom_of_count_eq_zero hc hinv h3
  have hidx := scan_srcidx hroom
  rcases hraw with hraw | ⟨c0, c1, c2, c3, hraw, hq, hs⟩
  · refine ⟨_, exec_sdRead_error hroom hi hf hp (sdByte_of_inv _ hraw), rfl, hidx, ?_, rfl, ?_, rfl, rfl, rfl⟩
    · rw [if_pos hraw, ← setWidth_eq_zero_append]
    · rw [← srcidx_succ, ← hidx]
      rfl
  · obtain ⟨hcount, rfl, rfl, rfl⟩ := scan_before_fourth hroom hc (symbolsOf_of_classes (cs := [c0, c1, c2]) hs)
    refine ⟨_, exec_sdRead_error hroom hi hf hp (sdByte_of_badPad hraw hcount hq), rfl, hidx, ?_, rfl, ?_, rfl, rfl, rfl⟩
    · rw [if_neg (by simp [hraw]), ← padCause_eq_append]
    · rw [← srcidx_succ, ← hidx]
      rfl

/-! ## A quartet (R163, R164) -/

/-- At most three bytes, zero-filled to three. -/
theorem ofList_eq_getD {bytes : List Byte} (h : bytes.length ≤ 3) :
    Bytes3.ofList bytes = ⟨bytes.getD 0 0, bytes.getD 1 0, bytes.getD 2 0⟩ := by
  match bytes, h with
  | [], _ => rfl
  | [_], _ => rfl
  | [_, _], _ => rfl
  | [_, _, _], _ => rfl

/-- The unit with the quartet of the symbols `acc` cached, `k` bytes of the source on from here. -/
def SdUnit.cachedQuartet (k : Nat) (acc : Syms4) (bytes : List Byte) (n : BitVec 2) (u : SdUnit) : SdUnit :=
  { phase := .ready, acc := acc, count := 0, out := Bytes3.ofList bytes, nsig := n, pos := 0,
    padded := decide (acc.c3 = .pad), srcidx := u.srcidx + BitVec.ofNat 32 k }

section
variable {front : List Byte} {raw : Byte} {c0 c1 c2 c : Sym} {bytes : List Byte} {n : BitVec 2}
  (hs : symbolsOf front = [c0, c1, c2]) (hraw : cls raw = .sym c) (hq : decodeQuartet c0 c1 c2 c = .ok bytes n)

include hs hraw hq in
/-- The fourth symbol of a quartet that decodes: its bytes are cached. -/
theorem sdByte_cachedQuartet {u : SdUnit} (hroom : u.hasRoom front) (hc : u.count = 0) : sdByte raw (u.scan front) =
    (.filled, u.cachedQuartet (front.length + 1) ⟨c0, c1, c2, c⟩ bytes n) := by
  obtain ⟨hcount, h0, h1, h2⟩ := scan_before_fourth hroom hc hs
  have hacc : (u.scan front).acc.set (u.scan front).count c = ⟨c0, c1, c2, c⟩ := by
    rw [hcount, ← h0, ← h1, ← h2]
    rfl
  rw [sdByte_of_quartet hraw hcount (by rw [h0, h1, h2]; exact hq), SdUnit.cached, took_acc, took_srcidx,
    scan_srcidx hroom, srcidx_succ, hacc]
  rfl

include hq in
/-- Serving the first byte of a cached quartet (R163). -/
theorem sdServe_cachedQuartet (k : Nat) (u : SdUnit) :
    sdServe (u.cachedQuartet k ⟨c0, c1, c2, c⟩ bytes n) = (bytes.getD 0 0,
      { u.cachedQuartet k ⟨c0, c1, c2, c⟩ bytes n with
        out := ⟨bytes.getD 0 0, bytes.getD 1 0, bytes.getD 2 0⟩
        pos := 1
        phase := if n = 1 then (if c = .pad then .exhausted else .empty) else .ready }) := by
  obtain ⟨hlen, h1⟩ := decodeQuartet_count hq
  have hbytes := ofList_eq_getD (bytes := bytes) (by omega)
  have hfirst : (0 : BitVec 2) + 1 = n ↔ n = 1 := eq_comm
  simp only [sdServe, SdUnit.cachedQuartet, hbytes, hfirst, decide_eq_true_eq]
  rfl

include hs hraw hq in
/-- SD_READ of an Empty unit whose next quartet decodes serves the quartet's first byte. -/
theorem exec_sdRead_quartet {s : State} {rest : List Input} (hp : s.sd.phase = .empty) (hc : s.sd.count = 0)
    (hroom : s.sd.hasRoom front) (hi : s.inputs = given front ++ .readAnswer (.byte raw) :: rest) :
    exec .sdRead s = .next (sdReadServe { s.answeredWith front (.byte raw) rest with
      sd := s.sd.cachedQuartet (front.length + 1) ⟨c0, c1, c2, c⟩ bytes n }) :=
  exec_sdRead_filled hroom hi hp (sdByte_cachedQuartet hs hraw hq hroom hc)

end

theorem symbolsOf_whitespace {text : List Byte} (h : ∀ c ∈ text, cls c = .ws) : symbolsOf text = [] := by
  rw [symbolsOf, List.filterMap_eq_nil_iff]
  intro b hb
  rw [h b hb]
  rfl

/-- Settles O43: the fourth symbol fills the cache, and its first byte is served. -/
theorem sdReadDecodesAQuartet : Obligations.SdReadDecodesAQuartet := by
  unfold Obligations.SdReadDecodesAQuartet
  intro s w0 w1 w2 w3 r0 r1 r2 r3 c0 c1 c2 c3 bytes n rest hr hf hp hc hw h0 h1 h2 h3 hq hi
  simp only [List.forall_mem_append] at hw
  obtain ⟨⟨⟨hw0, hw1⟩, hw2⟩, hw3⟩ := hw
  generalize hfront : w0 ++ r0 :: w1 ++ r1 :: w2 ++ r2 :: w3 = front at hi ⊢
  have hs : symbolsOf front = [c0, c1, c2] := by
    simp only [← hfront, symbolsOf_append, symbolsOf_cons_sym h0, symbolsOf_cons_sym h1, symbolsOf_cons_sym h2,
      symbolsOf_whitespace hw0, symbolsOf_whitespace hw1, symbolsOf_whitespace hw2, symbolsOf_whitespace hw3]
    rfl
  have hinv : ∀ c ∈ front, cls c ≠ .inv := by
    rw [← hfront]
    simp +contextual [or_imp, hw0, hw1, hw2, hw3, h0, h1, h2]
  have hlen : w0.length + w1.length + w2.length + w3.length + 4 = front.length + 1 := by
    rw [← hfront]
    simp only [List.length_append, List.length_cons]
    omega
  have hroom := hasRoom_of_count_eq_zero hc hinv (by rw [hs]; rfl)
  rw [List.map_append, List.append_assoc] at hi
  refine ⟨_, exec_sdRead_quartet hs h3 hq hp hc hroom hi, ?_⟩
  rw [sdReadServe, complete_on_idle _ _ _ (by exact hf) (by exact hr), sdServe_cachedQuartet hq, hlen,
    List.map_append, ← List.append_assoc]
  rfl

end Sys2Proof.Machine
end

section
/-! SUPPORT. SD_READN against SD_READ (44_stream_decoder.md R162, R167): both read one byte in one way, and SD_READN's loop
is SD_READs in turn, each byte stored. -/

namespace Sys2Proof.Machine

/-! ## One filling of a quartet, with a source that ends (R164–R166) -/

/-- An invalid byte or a fourth symbol ends the filling. -/
theorem sdByte_ends {u : SdUnit} {raw : Byte} (h : cls raw = .inv ∨ ∃ c, cls raw = .sym c ∧ u.count = 3) :
    (sdByte raw u).1 ≠ .more := by
  rcases sdByte_cases raw u with ⟨-, e⟩ | ⟨hk, -⟩ | ⟨c, hk, h3, -⟩ | ⟨_, -, -, -, e⟩ | ⟨_, _, _, -, -, -, e⟩
  · rw [e]; exact nofun
  · exact absurd h (by simp [hk])
  · exact absurd h (by rw [hk]; simp only [h3, and_false, exists_false, or_false]; exact nofun)
  · rw [e]; exact nofun
  · rw [e]; exact nofun

/-- End and failure of the source end the filling, and without a quartet. -/
theorem sdFillStep_source_ends (p : Params) {a : ReadAnswer} (ha : (∃ e, a = .fail e) ∨ a = .endOfInput) (u : SdUnit) :
    (sdFillStep p a u).1 ≠ .more ∧ (sdFillStep p a u).1 ≠ .filled := by
  rcases sdFillStep_cases p a u with ⟨raw, rfl, -⟩ | ⟨-, -, e⟩ | ⟨-, -, e⟩ | ⟨_, -, -, e⟩ | ⟨_, -, -, e⟩
  · simp at ha
  all_goals rw [e]; exact ⟨nofun, nofun⟩

/-- An error of the filling has an error's code (R200). -/
theorem sdFillStep_error_code {p : Params} {a : ReadAnswer} {u : SdUnit} {c : StatusCode} {x y : Word}
    (h : (sdFillStep p a u).1 = .error c x y) : c ≠ .ok ∧ c ≠ .eos := by
  rcases sdFillStep_cases p a u with ⟨raw, -, e⟩ | ⟨-, -, e⟩ | ⟨-, -, e⟩ | ⟨_, -, -, e⟩ | ⟨_, -, -, e⟩ <;> rw [e] at h
  · rcases sdByte_cases raw u with ⟨-, e⟩ | ⟨-, e⟩ | ⟨_, -, -, e⟩ | ⟨_, -, -, -, e⟩ | ⟨_, _, _, -, -, -, e⟩ <;>
      rw [e] at h <;> cases h <;> exact ⟨nofun, nofun⟩
  all_goals cases h
  all_goals exact ⟨nofun, nofun⟩

/-- A source that ends, ends the filling, or leaves answers that end so behind a quartet. -/
theorem exists_filling (text : List Byte) {a : ReadAnswer} (ha : (∃ e, a = .fail e) ∨ a = .endOfInput)
    (rest : List Input) (p : Params) {u : SdUnit} (h : u.count.toNat ≤ 3) :
    ∃ front b is, given text ++ .readAnswer a :: rest = given front ++ .readAnswer b :: is ∧ u.hasRoom front ∧
      (sdFillStep p b (u.scan front)).1 ≠ .more ∧
      ((sdFillStep p b (u.scan front)).1 = .filled → ∃ back, is = given back ++ .readAnswer a :: rest) := by
  rcases hasRoom_or_endsWithin text h with hroom | ⟨front, raw, back, rfl, hroom, hend⟩
  · obtain ⟨hmore, hfilled⟩ := sdFillStep_source_ends p ha (u.scan text)
    exact ⟨text, a, rest, rfl, hroom, hmore, fun hf => absurd hf hfilled⟩
  · exact ⟨front, .byte raw, _, by simp, hroom, sdByte_ends hend, fun _ => ⟨back, rfl⟩⟩

/-- The unit that an answer finds is still filling its quartet. -/
theorem filling_scan {u : SdUnit} {front : List Byte} (hp : u.phase = .empty) (h : u.hasRoom front) :
    (u.scan front).filling :=
  ⟨(scan_phase h).trans hp, by rw [(scan_of_hasRoom h).2.1]; exact h.2⟩

/-! ## One byte (R162) -/

/-- The source's answers still to come end in End or a failure. -/
def State.sourceEnds (s : State) : Prop :=
  ∃ text a rest, s.inputs = given text ++ .readAnswer a :: rest ∧ ((∃ e, a = .fail e) ∨ a = .endOfInput)

/-- Between two bytes: a bound unit at rest, no fault, and a source that ends. -/
structure State.BetweenBytes (s : State) : Prop where
  faulted : s.faulted = false
  bound : s.sd.bound
  atRest : s.sd.atRest
  ends : s.sourceEnds

/-- `s`, with HB and what a command reports as they stand in `o`. -/
def State.reporting (s o : State) : State :=
  { s with hb := o.hb, code := o.code, res0 := o.res0, res1 := o.res1, busy := o.busy, running := o.running }

/-- From `s`, SD_READ and SD_READN, whatever HB holds and was reported before, come to `v` in one way, with the unit and the
step `r`: a byte to serve, or the end of the reading. -/
structure ReadsTo (s : State) (r : FillStep × SdUnit) (v : State) : Prop where
  read : exec .sdRead s = .next (sdReadOn r v)
  readN : ∀ (o : State) (k left : Nat), s.latched.a1.toNat = k + (left + 1) →
    drive (sdReadMany (left + 1) k (s.reporting o)) = drive (sdReadNOn (left + 1) k r (v.reporting o))
  faulted : v.faulted = false
  latched : v.latched = s.latched
  ended : r.1 ≠ .more
  filled : r.1 = .filled → r.2.phase = .ready ∧ r.2.atRest ∧ v.sourceEnds
  error_code : ∀ c x y, r.1 = .error c x y → c ≠ .ok ∧ c ≠ .eos

theorem exists_readsTo {s : State} (h : s.BetweenBytes) : ∃ r v, ReadsTo s r v := by
  obtain ⟨hf, hb, hrest, text, a, rest, hi, ha⟩ := h
  rcases hb with hp | hp | hp
  · have hcount : s.sd.count.toNat ≤ 3 := by rw [hrest.1 (.inl hp)]; decide
    obtain ⟨front, b, is, his, hroom, hmore, hback⟩ := exists_filling text ha rest s.params hcount
    rw [his] at hi
    exact ⟨sdFillStep s.params b (s.sd.scan front), s.answeredWith front b is,
      { read := exec_sdRead_filling hroom hi hp rfl hmore
        readN := fun o k left hk => by
          have hleft : (s.reporting o).latched.a1.toNat - k = left + 1 := Nat.sub_eq_of_eq_add' hk
          rw [sdReadMany, sdReadUpTo_of_empty _ _ _ (by exact hp), drive_ask_readN (by exact hroom) (by exact hi), hleft]
          rfl
        faulted := hf
        latched := rfl
        ended := hmore
        filled := fun hfill => by
          have hleaves := sdFillStep_leaves (filling_scan hp hroom) s.params b
          rw [hfill] at hleaves
          obtain ⟨back, hback⟩ := hback hfill
          exact ⟨hleaves.1, hleaves.2, back, a, rest, hback, ha⟩
        error_code := fun c x y => sdFillStep_error_code }⟩
  · exact ⟨(.filled, s.sd), s,
      { read := exec_sdRead_of_ready hp
        readN := fun o k left hk => by
          have hleft : (s.reporting o).latched.a1.toNat - k = left + 1 := Nat.sub_eq_of_eq_add' hk
          simp only [sdReadNOn, hleft]
          rfl
        faulted := hf
        latched := rfl
        ended := nofun
        filled := fun _ => ⟨hp, hrest, text, a, rest, hi, ha⟩
        error_code := nofun }⟩
  · exact ⟨(.eos, s.sd), s,
      { read := exec_sdRead_of_exhausted hp
        readN := fun o k left hk => by rw [sdReadMany_of_exhausted _ _ (by exact hp)]; rfl
        faulted := hf
        latched := rfl
        ended := nofun
        filled := nofun
        error_code := nofun }⟩

/-- The end of SD_READ that serves the next byte of unit `u` (R163). -/
def State.served (u : SdUnit) (v : State) : State :=
  { v with
    sd := (sdServe u).2, code := .ok, res0 := (sdServe u).1.setWidth 32, res1 := 0, busy := false, running := none }

/-- One byte served by SD_READ, and stored by SD_READN (R163, R167). -/
theorem ReadsTo.of_filled {s v : State} {u : SdUnit} (h : ReadsTo s (.filled, u) v) :
    exec .sdRead s = .next (v.served u) ∧ (v.served u).BetweenBytes ∧
      ∀ (o : State) (k left : Nat), s.latched.a1.toNat = k + (left + 1) →
        drive (sdReadMany (left + 1) k (s.reporting o)) = drive (sdReadMany left (k + 1) ((v.served u).reporting
          { o with hb := Memory.write o.hb (s.latched.a0.toNat + k) (sdServe u).1 })) := by
  obtain ⟨hp, hrest, hends⟩ := h.filled rfl
  have hp : u.phase = .ready := hp
  obtain ⟨hbound, hrest⟩ := sdServe_leaves hrest hp
  refine ⟨h.read.trans (congrArg _ (complete_of_not_faulted _ _ _ h.faulted)), ⟨h.faulted, hbound, hrest, hends⟩,
    fun o k left hk => ?_⟩
  have hleft : (v.reporting o).latched.a1.toNat - k = left + 1 :=
    (congrArg (·.a1.toNat - k) h.latched).trans (Nat.sub_eq_of_eq_add' hk)
  simp only [h.readN o k left hk, sdReadNOn, hleft, ← h.latched]
  exact congrArg drive (sdReadUpTo_store left left k (by simp [hp]) (by simp [hp]))

/-! ## SD_READ in a row (R169) -/

section
variable {s t : State} (n : Nat) (h : exec .sdRead s = .next t)
include h

theorem readWhileOk_of_ok (hc : t.code = .ok) :
    readWhileOk (n + 1) s = (t.res0 :: (readWhileOk n t).1, (readWhileOk n t).2) := by
  simp only [readWhileOk, h, hc, if_true]

theorem readWhileOk_of_not_ok (hc : t.code ≠ .ok) : readWhileOk (n + 1) s = ([], t) := by
  simp only [readWhileOk, h, hc, if_false]

end

/-! ## SD_READN as SD_READs in turn (R167) -/

/-- What SD_READN leaves where SD_READs return `bytes` and come to `u`, with `k` bytes obtained before and `wanted` more
asked for, and HB then `m`: the count where all are obtained or the stream ends after a byte, else what `u` reports. -/
def State.endOfReadN (wanted k : Nat) (bytes : List Byte) (m : Memory) (u : State) : State :=
  if bytes.length = wanted ∨ (u.code = .eos ∧ k + bytes.length ≠ 0) then
    { u with hb := m, code := .ok, res0 := BitVec.ofNat 32 (k + bytes.length), res1 := 0 }
  else { u with hb := m }

theorem endOfReadN_cons (wanted k : Nat) (b : Byte) (bytes : List Byte) (m : Memory) (u : State) :
    u.endOfReadN (wanted + 1) k (b :: bytes) m = u.endOfReadN wanted (k + 1) bytes m := by
  simp only [State.endOfReadN, List.length_cons, Nat.add_right_cancel_iff, Nat.add_assoc, Nat.add_comm 1]

/-- Only HB and the report are SD_READN's own. -/
theorem endOfReadN_spec {wanted k : Nat} {bytes : List Byte} {m : Memory} {t u : State}
    (h : t = u.endOfReadN wanted k bytes m) :
    t = { u with hb := t.hb, code := t.code, res0 := t.res0, res1 := t.res1 } ∧ t.hb = m ∧
      if bytes.length = wanted ∨ (u.code = .eos ∧ k + bytes.length ≠ 0) then
        t.code = .ok ∧ t.res0 = BitVec.ofNat 32 (k + bytes.length) ∧ t.res1 = 0
      else t.code = u.code ∧ t.res0 = u.res0 ∧ t.res1 = u.res1 := by
  subst h
  unfold State.endOfReadN
  split
  · exact ⟨rfl, rfl, rfl, rfl, rfl⟩
  · exact ⟨rfl, rfl, rfl, rfl, rfl⟩

/-- SD_READN's loop from a state between two bytes, whatever HB holds there. -/
theorem sdReadMany_is_reads (left : Nat) {k : Nat} {s : State} (o : State) (hs : s.BetweenBytes)
    (hidle : left = 0 → s.busy = false ∧ s.running = none) (hk : s.latched.a1.toNat = k + left) :
    ∃ bytes u, readWhileOk left s = (bytes.map (·.setWidth 32), u) ∧ drive (sdReadMany left k (s.reporting o)) =
      u.endOfReadN left k bytes (Memory.writeRange o.hb (s.latched.a0.toNat + k) bytes) := by
  induction left generalizing k s o with
  | zero =>
    obtain ⟨hbusy, hrun⟩ := hidle rfl
    refine ⟨[], s, rfl, ?_⟩
    rw [sdReadMany, sdReadUpTo_zero, drive_complete, complete_of_not_faulted _ _ _ (by exact hs.faulted),
      State.endOfReadN, if_pos (.inl rfl), ← hbusy, ← hrun]
    rfl
  | succ left ih =>
    obtain ⟨⟨step, u⟩, v, h⟩ := exists_readsTo hs
    cases step with
    | more => exact absurd rfl h.ended
    | filled =>
      obtain ⟨hread, hbetween, hstore⟩ := h.of_filled
      obtain ⟨bytes, t, hreads, hdrive⟩ := ih (k := k + 1) { o with
        hb := Memory.write o.hb (s.latched.a0.toNat + k) (sdServe u).1 } hbetween (fun _ => ⟨rfl, rfl⟩)
        (by rw [State.served, h.latched]; omega)
      refine ⟨(sdServe u).1 :: bytes, t, ?_, ?_⟩
      · rw [readWhileOk_of_ok left hread rfl, hreads]
        rfl
      · rw [endOfReadN_cons, hstore o k left hk, hdrive, State.served, h.latched]
        rfl
    | eos =>
      have hread := h.read.trans (congrArg _ (complete_of_not_faulted .eos 0 0 h.faulted))
      refine ⟨[], _, readWhileOk_of_not_ok left hread nofun, ?_⟩
      have hend : ∀ c x, complete c x 0 ({ v.reporting o with sd := u } : State) = _ := fun c x =>
        complete_of_not_faulted c x 0 h.faulted
      rw [h.readN o k left hk, sdReadNOn]
      simp only [sdReadNEos, hend, State.endOfReadN, apply_ite drive]
      by_cases h0 : k = 0
      · rw [if_pos h0, if_neg (by simp [h0])]
        exact drive_of_not_running rfl
      · rw [if_neg h0, if_pos (by simp [h0])]
        exact drive_of_not_running rfl
    | error c x y =>
      obtain ⟨hok, heos⟩ := h.error_code c x y rfl
      have hread := h.read.trans (congrArg _ (raiseSd_of_not_faulted c x y h.faulted))
      refine ⟨[], _, readWhileOk_of_not_ok left hread hok, ?_⟩
      rw [h.readN o k left hk, sdReadNOn, State.endOfReadN, if_neg (by simp [heos])]
      exact (drive_raiseSd c x y _).trans (raiseSd_of_not_faulted c x y h.faulted)

/-- Settles O46: SD_READN of some bytes is its loop, which is SD_READs in turn. -/
theorem sdReadnIsSdReadOfEachByte : Obligations.SdReadnIsSdReadOfEachByte := by
  unfold Obligations.SdReadnIsSdReadOfEachByte
  refine ⟨fun s hf hb hz hr => ?_, fun s text a rest _ hf hb hrest ha hz hi hend => ?_⟩
  · have hadm : admitted s.params s.latched.a0 s.latched.a1 = true := by rw [admitted_iff, hz]; exact hr
    rw [exec_sdReadn, requireOpenSd_of_bound _ hb, sdReadnBegin, if_pos hadm, if_pos hz, drive_complete,
      complete_of_not_faulted _ _ _ hf]
  · obtain ⟨left, hleft⟩ := exists_toNat_eq_succ hz
    obtain ⟨bytes, u, hreads, hdrive⟩ := sdReadMany_is_reads s.latched.a1.toNat (k := 0) s
      ⟨hf, hb, hrest, text, a, rest, hi, hend⟩ (by omega) (Nat.zero_add _).symm
    obtain ⟨t, hexec, ht⟩ : ∃ t, exec .sdReadn s = .next t ∧ t = u.endOfReadN s.latched.a1.toNat 0 bytes
        (Memory.writeRange s.hb s.latched.a0.toNat bytes) :=
      ⟨_, exec_sdReadn_of_admitted hb ha hz, hdrive⟩
    obtain ⟨hkept, hhb, hreport⟩ := endOfReadN_spec ht
    refine ⟨t, hexec, fun got u' hgot => ?_⟩
    rw [hreads] at hgot
    cases hgot
    refine ⟨hkept, fun j w hw => ?_, fun x hx => ?_, by simpa using hreport⟩
    · rw [List.getElem?_map, Option.map_eq_some_iff] at hw
      obtain ⟨b, hb, rfl⟩ := hw
      rw [hhb, read_writeRange_inside bytes s.hb s.latched.a0.toNat j b hb]
    · rw [List.length_map] at hx
      rw [hhb, read_writeRange_outside bytes s.hb hx]

end Sys2Proof.Machine
end

section
/-! SUPPORT. The Stream Decoder against the bulk decoder (44_stream_decoder.md R169), quartet by quartet of the text. -/

namespace Sys2Proof.Machine

/-! ## SD_READs over a cached quartet (R163) -/

theorem exec_sdRead_served {s : State} (hf : s.faulted = false) (hp : s.sd.phase = .ready) :
    exec .sdRead s = .next (s.served s.sd) :=
  (exec_sdRead_of_ready hp).trans (congrArg _ (complete_of_not_faulted _ _ _ hf))

/-- SD_READs serve the `m + 1` bytes left in the cache, and leave the unit Exhausted behind a padded quartet and else
Empty. -/
theorem readWhileOk_cached (m : Nat) {s : State} (hf : s.faulted = false) (hp : s.sd.phase = .ready)
    (hn : s.sd.pos.toNat + (m + 1) = s.sd.nsig.toNat) :
    ∃ t : State, t.faulted = false ∧ t.inputs = s.inputs ∧
      t.sd = { s.sd with phase := if s.sd.padded then .exhausted else .empty, pos := s.sd.nsig } ∧
      ∀ n, readWhileOk (m + 1 + n) s =
        ((s.sd.nextBytes (m + 1)).map (·.setWidth 32) ++ (readWhileOk n t).1, (readWhileOk n t).2) := by
  induction m generalizing s with
  | zero =>
    have hunit : (s.served s.sd).sd = _ := sdServe_unit (by omega) hp
    rw [if_neg (by omega)] at hunit
    have hlast : s.sd.pos + 1 = s.sd.nsig := BitVec.eq_of_toNat_eq (by rw [toNat_pos_succ (u := s.sd) (by omega)]; exact hn)
    refine ⟨s.served s.sd, hf, rfl, by rw [hunit, hlast], fun n => ?_⟩
    rw [Nat.add_comm, readWhileOk_of_ok n (exec_sdRead_served hf hp) rfl,
      nextBytes_succ (u := s.sd) (v := (sdServe s.sd).2) 0 (by omega) rfl (toNat_pos_succ (by omega))]
    rfl
  | succ m ih =>
    have hunit : (s.served s.sd).sd = _ := sdServe_unit (by omega) hp
    rw [if_pos (by omega)] at hunit
    have hpos : (s.sd.pos + 1).toNat = s.sd.pos.toNat + 1 := toNat_pos_succ (by omega)
    obtain ⟨t, htf, hti, htu, hreads⟩ := ih (s := s.served s.sd) hf (congrArg SdUnit.phase hunit)
      (by rw [hunit]; show (s.sd.pos + 1).toNat + (m + 1) = s.sd.nsig.toNat; omega)
    refine ⟨t, htf, hti, by rw [htu, hunit], fun n => ?_⟩
    rw [show m + 1 + 1 + n = m + 1 + n + 1 by omega, readWhileOk_of_ok _ (exec_sdRead_served hf hp) rfl, hreads,
      nextBytes_succ (u := s.sd) (v := (sdServe s.sd).2) (m + 1) (by omega) rfl hpos]
    rfl

/-- All of a cached quartet is its bytes. -/
theorem nextBytes_cachedQuartet {bytes : List Byte} (h : bytes.length ≤ 3) (k : Nat) (acc : Syms4) (n : BitVec 2)
    (u : SdUnit) : (u.cachedQuartet k acc bytes n).nextBytes bytes.length = bytes := by
  match bytes, h with
  | [], _ => rfl
  | [_], _ => rfl
  | [_, _], _ => rfl
  | [_, _, _], _ => rfl

/-! ## Agreement (R169) -/

/-- SD_READs over `text`, from between two quartets, that return `out` and come to `u` agree with the bulk decoder at
position `i` with `before` decoded: on the bytes and the end of the stream, or on the error and the bytes in front of it. -/
def AgreesWithBulk (i : Nat) (text before out : List Byte) (u : State) : Prop :=
  (u.code = .eos ∧ bulkDecodeFrom .error i [] before text = .ok (before ++ out)) ∨
  (u.sd.phase = .failed ∧ bulkDecodeFrom .error i [] before text = .err u.code u.res0 u.res1 ∧
    (u.code = .errMalformed → ∃ j, j ≤ text.length ∧ u.res0 = BitVec.ofNat 32 (i + j) ∧
      bulkDecodeFrom .drop i [] before (text.take j) = .ok (before ++ out)) ∧
    (u.code = .errImproperPadding → bulkDecodeFrom .drop i [] before text = .ok (before ++ out)))

/-- A quartet without padding in front, which both decoders decode to `bytes`. -/
theorem AgreesWithBulk.quartet {i : Nat} {quartet back before bytes out : List Byte} {u : State}
    (h : AgreesWithBulk (i + quartet.length) back (before ++ bytes) out u)
    (hq : ∀ p rest, bulkDecodeFrom p i [] before (quartet ++ rest) =
      bulkDecodeFrom p (i + quartet.length) [] (before ++ bytes) rest) :
    AgreesWithBulk i (quartet ++ back) before (bytes ++ out) u := by
  unfold AgreesWithBulk at h ⊢
  rw [hq, hq, ← List.append_assoc]
  refine h.imp id fun ⟨hp, herr, hmal, himp⟩ => ⟨hp, herr, fun hc => ?_, himp⟩
  obtain ⟨j, hj, hx, hd⟩ := hmal hc
  refine ⟨quartet.length + j, by rw [List.length_append]; omega, by rw [hx, Nat.add_assoc], ?_⟩
  rw [List.take_length_add_append, hq, hd]

/-- The bulk decoder holds the symbols of a text that the quartet in progress has room for. -/
theorem bulkDecodeFrom_hasRoom {u : SdUnit} {front : List Byte} (hc : u.count = 0) (h : u.hasRoom front) (p : TailPolicy)
    (i : Nat) (out rest : List Byte) : bulkDecodeFrom p i [] out (front ++ rest) =
      bulkDecodeFrom p (i + front.length) (symbolsOf front) out rest := by
  obtain ⟨hinv, hlen⟩ := h
  rw [bulkDecodeFrom_hold_text hinv (by simpa [hc] using hlen), List.nil_append]

/-- The same at the end of the text. -/
theorem bulkDecodeFrom_hasRoom_end {u : SdUnit} {front : List Byte} (hc : u.count = 0) (h : u.hasRoom front)
    (p : TailPolicy) (i : Nat) (out : List Byte) :
    bulkDecodeFrom p i [] out front = bulkTail p (symbolsOf front) out := by
  have hend := bulkDecodeFrom_hasRoom hc h p i out []
  rwa [List.append_nil, bulkDecodeFrom] at hend

section
variable {s : State} {front : List Byte} (hf : s.faulted = false) (hp : s.sd.phase = .empty)
  (hc : s.sd.count = 0) (hroom : s.sd.hasRoom front)
include hf hp hc hroom

/-- A text that ends with the quartet in progress: End is the end of the stream, or an improper padding. -/
theorem agrees_at_end {rest : List Input} (hi : s.inputs = given front ++ .readAnswer .endOfInput :: rest) (i : Nat) :
    ∃ u, readWhileOk 1 s = ([], u) ∧ ∀ before, AgreesWithBulk i front before [] u := by
  have hbulk := bulkDecodeFrom_hasRoom_end hc hroom
  by_cases h0 : (symbolsOf front).length = 0
  · have hz := (scan_count_eq_zero_iff hroom hc).mpr h0
    refine ⟨_, readWhileOk_of_not_ok 0 (exec_sdRead_eos hroom hi hf hp (sdFillStep_end _ hz)) nofun,
      fun before => .inl ⟨rfl, ?_⟩⟩
    rw [hbulk, bulkTail, if_pos h0, List.append_nil]
  · have hz := mt (scan_count_eq_zero_iff hroom hc).mp h0
    refine ⟨_, readWhileOk_of_not_ok 0 (exec_sdRead_error hroom hi hf hp (sdFillStep_inside _ (.inr rfl) hz)) nofun,
      fun before => .inr ⟨rfl, ?_, nofun, fun _ => ?_⟩⟩
    · rw [hbulk, bulkTail, if_neg h0, scan_count_setWidth hroom hc]
    · rw [hbulk, bulkTail, List.append_nil]

/-- An invalid byte or a misplaced padding, of cause `y`. -/
theorem agrees_at_malformed {raw : Byte} {back : List Byte} {rest : List Input} {i : Nat} {y : Word} {v : SdUnit}
    (hidx : s.sd.srcidx = BitVec.ofNat 32 i) (hi : s.inputs = given front ++ .readAnswer (.byte raw) :: rest)
    (hs : sdByte raw (s.sd.scan front) = (.error .errMalformed (s.sd.scan front).srcidx y, v))
    (hb : ∀ i out, bulkDecodeFrom .error i (symbolsOf front) out (raw :: back) =
      .err .errMalformed (BitVec.ofNat 32 i) y) :
    ∃ u, readWhileOk 1 s = ([], u) ∧ ∀ before, AgreesWithBulk i (front ++ raw :: back) before [] u := by
  have hpos : (s.sd.scan front).srcidx = BitVec.ofNat 32 (i + front.length) := by
    rw [scan_srcidx hroom, hidx, BitVec.ofNat_add]
  refine ⟨_, readWhileOk_of_not_ok 0 (exec_sdRead_error hroom hi hf hp hs) nofun,
    fun before => .inr ⟨rfl, ?_, fun _ => ⟨front.length, by simp, hpos, ?_⟩, nofun⟩⟩
  · rw [bulkDecodeFrom_hasRoom hc hroom, hb, hpos]
  · rw [List.take_left, bulkDecodeFrom_hasRoom_end hc hroom, bulkTail, List.append_nil]

end

/-- SD_READ from two states with one result. -/
theorem readWhileOk_succ_congr (n : Nat) {s s' t : State} (h : exec .sdRead s = .next t) (h' : exec .sdRead s' = .next t) :
    readWhileOk (n + 1) s = readWhileOk (n + 1) s' := by
  rw [readWhileOk, readWhileOk, h, h']

/-- SD_READs over the next quartet, which decodes, serve its bytes. -/
theorem readWhileOk_quartet {s : State} {front : List Byte} {raw : Byte} {c0 c1 c2 c : Sym} {bytes : List Byte}
    {n : BitVec 2} {rest : List Input} (hf : s.faulted = false) (hp : s.sd.phase = .empty) (hc : s.sd.count = 0)
    (hroom : s.sd.hasRoom front) (hi : s.inputs = given front ++ .readAnswer (.byte raw) :: rest)
    (hs : symbolsOf front = [c0, c1, c2]) (hraw : cls raw = .sym c) (hq : decodeQuartet c0 c1 c2 c = .ok bytes n) :
    ∃ t : State, t.faulted = false ∧ t.inputs = rest ∧ t.sd.phase = (if c = .pad then .exhausted else .empty) ∧
      t.sd.count = 0 ∧ t.sd.srcidx = s.sd.srcidx + BitVec.ofNat 32 (front.length + 1) ∧
      ∀ k, readWhileOk (bytes.length + (k + 1)) s =
        (bytes.map (·.setWidth 32) ++ (readWhileOk (k + 1) t).1, (readWhileOk (k + 1) t).2) := by
  obtain ⟨hlen, hpos⟩ := decodeQuartet_count hq
  obtain ⟨m, hm⟩ : ∃ m, bytes.length = m + 1 := ⟨bytes.length - 1, by omega⟩
  obtain ⟨v, hv, hread⟩ : ∃ v, v = { s.answeredWith front (.byte raw) rest with
      sd := s.sd.cachedQuartet (front.length + 1) ⟨c0, c1, c2, c⟩ bytes n } ∧ exec .sdRead s = .next (sdReadServe v) :=
    ⟨_, rfl, exec_sdRead_quartet hs hraw hq hp hc hroom hi⟩
  have hready : v.sd.phase = .ready := by rw [hv]; rfl
  have hcached : v.sd.nextBytes (m + 1) = bytes := by
    rw [hv, ← hm]
    exact nextBytes_cachedQuartet (by omega) _ _ n s.sd
  obtain ⟨t, htf, hti, htu, hreads⟩ := readWhileOk_cached m (s := v) (by rw [hv]; exact hf) hready
    (by rw [hv, ← hm, hlen]; exact Nat.zero_add _)
  refine ⟨t, htf, by rw [hti, hv]; rfl, ?_, by rw [htu, hv]; rfl, by rw [htu, hv]; rfl, fun k => ?_⟩
  · rw [htu, hv]
    simp [SdUnit.cachedQuartet]
  · rw [← hcached, ← hreads (k + 1), hcached, hm]
    exact readWhileOk_succ_congr _ hread (exec_sdRead_of_ready hready)

/-- From between two quartets, SD_READs agree with the bulk decoder on the text that the source gives before End. -/
theorem reads_agree_with_bulk (text : List Byte) {s : State} {i : Nat} {rest : List Input} (hf : s.faulted = false)
    (hp : s.sd.phase = .empty) (hc : s.sd.count = 0) (hidx : s.sd.srcidx = BitVec.ofNat 32 i)
    (hi : s.inputs = given text ++ .readAnswer .endOfInput :: rest) :
    ∃ out u, readWhileOk (out.length + 1) s = (out.map (·.setWidth 32), u) ∧
      ∀ before, AgreesWithBulk i text before out u := by
  induction hn : text.length using Nat.strong_induction_on generalizing text s i with
  | _ n ih =>
    subst hn
    rcases hasRoom_or_endsWithin text (u := s.sd) (by rw [hc]; decide) with hroom | ⟨front, raw, back, rfl, hroom, hend⟩
    · exact ⟨[], agrees_at_end hf hp hc hroom hi i⟩
    have hi' : s.inputs = given front ++ .readAnswer (.byte raw) :: (given back ++ .readAnswer .endOfInput :: rest) := by
      rw [hi]
      simp
    rcases hend with hraw | ⟨c, hraw, h3⟩
    · exact ⟨[], agrees_at_malformed hf hp hc hroom hidx hi' (sdByte_of_inv _ hraw)
        fun i out => bulkDecodeFrom_inv hraw _ i _ out back⟩
    obtain ⟨c0, c1, c2, hs⟩ : ∃ c0 c1 c2, symbolsOf front = [c0, c1, c2] := List.length_eq_three.mp (by
      have hcount := (scan_of_hasRoom hroom).2.1
      rw [h3, hc] at hcount
      simpa using hcount.symm)
    have hfourth := bulkDecodeFrom_fourth hraw
    cases hq : decodeQuartet c0 c1 c2 c with
    | badPad =>
      obtain ⟨-, h0, h1, h2⟩ := scan_before_fourth hroom hc hs
      refine ⟨[], agrees_at_malformed hf hp hc hroom hidx hi' (sdByte_of_badPad hraw h3 (by rw [h0, h1, h2]; exact hq))
        fun i out => ?_⟩
      rw [hs, hfourth, hq]
    | ok bytes n =>
      obtain ⟨t, htf, hti, htp, htc, htidx, hreads⟩ := readWhileOk_quartet hf hp hc hroom hi' hs hraw hq
      have hbulk : ∀ p before rest, bulkDecodeFrom p i [] before (front ++ raw :: rest) =
          if c = .pad then .ok (before ++ bytes)
          else bulkDecodeFrom p (i + front.length + 1) [] (before ++ bytes) rest := fun p before rest => by
        rw [bulkDecodeFrom_hasRoom hc hroom, hs, hfourth, hq]
      by_cases hpad : c = .pad
      · rw [if_pos hpad] at htp
        obtain ⟨w, hw, heos⟩ : ∃ w, exec .sdRead t = .next w ∧ w.code = .eos :=
          ⟨_, (exec_sdRead_of_exhausted htp).trans (congrArg _ (complete_of_not_faulted .eos 0 0 htf)), rfl⟩
        refine ⟨bytes, w, ?_, fun before => .inl ⟨heos, ?_⟩⟩
        · rw [hreads 0, readWhileOk_of_not_ok 0 hw (by simp [heos]), List.append_nil]
        · rw [hbulk, if_pos hpad]
      · rw [if_neg hpad] at htp
        obtain ⟨out, u, hread, hagree⟩ := ih back.length (by simp only [List.length_append, List.length_cons]; omega)
          back htf htp htc (i := i + (front.length + 1)) (by rw [htidx, hidx, BitVec.ofNat_add i]) hti rfl
        refine ⟨bytes ++ out, u, ?_, fun before => ?_⟩
        · rw [List.length_append, Nat.add_assoc, hreads, hread, List.map_append]
        · rw [List.append_cons front raw back]
          refine AgreesWithBulk.quartet (by rw [List.length_append]; exact hagree _) fun p rest => ?_
          rw [← List.append_cons, hbulk, if_neg hpad, List.length_append]
          rfl

/-- Settles O48: SD_READs agree with the bulk decoder from the start of the text on. -/
theorem streamDecoderAgreesWithTheBulkDecoder : Obligations.StreamDecoderAgreesWithTheBulkDecoder := by
  unfold Obligations.StreamDecoderAgreesWithTheBulkDecoder
  intro s text rest _ hf hsd hlen hi
  obtain ⟨out, u, hread, hagree⟩ :=
    reads_agree_with_bulk text (i := 0) hf (by rw [hsd]) (by rw [hsd]) (by rw [hsd]; rfl) hi
  have hok : ∀ out', bulkDecode .error text = .ok out' →
      ∃ u, readWhileOk (out'.length + 1) s = (out'.map (fun b => b.setWidth 32), u) ∧ u.code = .eos := fun out' hd => by
    rcases hagree [] with ⟨heos, hb⟩ | ⟨-, hb, -⟩
    · cases hd.symm.trans hb
      exact ⟨u, hread, heos⟩
    · cases hd.symm.trans hb
  refine ⟨hok, fun c x y hd => ?_, fun b hb => hok b (by rw [hb]; exact bulkRoundTrip .error b)⟩
  rcases hagree [] with ⟨-, hb⟩ | ⟨hfailed, hb, hmal, himp⟩
  · cases hd.symm.trans hb
  · cases hd.symm.trans hb
    refine ⟨out, u, hread, rfl, rfl, rfl, hfailed, fun hc => ?_, himp⟩
    obtain ⟨j, hj, hx, hdrop⟩ := hmal hc
    rw [hx, Nat.zero_add, BitVec.toNat_ofNat, Nat.mod_eq_of_lt (by omega)]
    exact hdrop

end Sys2Proof.Machine
end

section
/-! SUPPORT. The CMD write step by step (60_exceptions.md R202, R205, R206): at once, or the same after a time (R230). -/

namespace Sys2Proof.Machine

/-- Settles O7: each command is a run up to its first request and the answers in place. -/
theorem everyCommandAnswersNext : Obligations.EveryCommandAnswersNext := by
  unfold Obligations.EveryCommandAnswersNext
  intro i s
  obtain ⟨b, -, he⟩ := exec_factors i
  exact ⟨_, he s⟩

theorem cmdWriteSlowly_of_faulted {s : State} (w : Word) (h : s.faulted = true) : cmdWriteSlowly w s = s := by
  rw [cmdWriteSlowly, if_pos h]

theorem cmdWriteSlowly_of_busy {s : State} (w : Word) (hf : s.faulted = false) (hb : s.busy = true) :
    cmdWriteSlowly w s = takeCmdBusy s := by
  simp [cmdWriteSlowly, hf, hb]

theorem cmdWriteSlowly_of_command {s : State} {w : Word} {i : Instr} (hf : s.faulted = false) (hb : s.busy = false)
    (hw : decode w = .ok i) : cmdWriteSlowly w s = hold (.command i) (latch s) := by
  simp [cmdWriteSlowly, hf, hb, hw]

/-- The step of a CMD write that the block acts on at once. -/
theorem step_of_cmdWrite {s : State} {w : Word} {rest : List Input} (hi : s.inputs = .regWrite 0 w :: rest) :
    step s = cmdWrite w { s with inputs := rest } := step_of_input hi

/-- The step of a CMD write that the block takes its time over. -/
theorem step_of_cmdWriteSlowly {s : State} {w : Word} {rest : List Input}
    (hi : s.inputs = .slowly (.cmdWrite w) :: rest) : step s = .next (cmdWriteSlowly w { s with inputs := rest }) :=
  step_of_input hi

/-- Settles O6: the command runs in the step of its CMD write, or is held with its operands latched. -/
theorem stepRunsTheDecodedCommand : Obligations.StepRunsTheDecodedCommand := by
  unfold Obligations.StepRunsTheDecodedCommand
  refine ⟨fun w i s rest hw hf hb => ⟨fun hi => ?_, fun hi => ?_⟩, fun i s rest hr hi => step_of_proceed hr hi⟩
  · exact (step_of_cmdWrite hi).trans (cmdWrite_of_command (s := { s with inputs := rest }) hf hb hw)
  · exact (step_of_cmdWriteSlowly hi).trans
      (congrArg _ (cmdWriteSlowly_of_command (s := { s with inputs := rest }) hf hb hw))

/-- Settles O8: both forms of the CMD write look at FAULTED first and at BUSY next. -/
theorem cmdWriteWhileFaultedOrBusy : Obligations.CmdWriteWhileFaultedOrBusy := by
  unfold Obligations.CmdWriteWhileFaultedOrBusy
  rintro w s rest (hi | hi)
  · rw [step_of_cmdWrite hi]
    exact ⟨fun hf => cmdWrite_of_faulted w (s := { s with inputs := rest }) hf,
      fun hf hb => cmdWrite_of_busy w (s := { s with inputs := rest }) hf hb⟩
  · rw [step_of_cmdWriteSlowly hi]
    exact ⟨fun hf => congrArg _ (cmdWriteSlowly_of_faulted w (s := { s with inputs := rest }) hf),
      fun hf hb => congrArg _ (cmdWriteSlowly_of_busy w (s := { s with inputs := rest }) hf hb)⟩

end Sys2Proof.Machine
end

section
/-! SUPPORT. A fault is sticky, and the command that runs on after a FAULT_CMD_BUSY reports nothing (60_exceptions.md R205,
R209): the report of a faulted block goes unchanged through every way a command goes on. -/

namespace Sys2Proof.Machine

/-- No running command reads STATUS or the result words, or minds them once FAULTED is set. -/
theorem putReport_onlooker (c : StatusCode) (x y : Word) : Onlooker (putReport c x y) where
  toBystander := putReport_bystander c x y
  running _ := rfl
  inputs _ := rfl
  setRunning _ _ := rfl
  setInputs _ _ := rfl

/-- SD_READ at an invalid byte is an error at its position (44_stream_decoder.md R165). -/
theorem sdReadAnswered_of_inv {raw : Byte} (hc : cls raw = .inv) (s : State) :
    sdReadAnswered (.byte raw) s = raiseSd .errMalformed s.sd.srcidx (raw.setWidth 32)
      { observe (.sourceRead (some (.byte raw))) s with
        sd := { s.sd with srcidx := s.sd.srcidx + 1, phase := .failed } } := by
  simp [sdReadAnswered, sdReadGoesOn, sdReadOn, sdFillStep, sdByte, hc]

/-- Settles O55: the report of FAULT_CMD_BUSY goes through every input on which a command goes on; and SD_READ's error. -/
theorem runningCommandAfterCmdBusyReportsNothing : Obligations.RunningCommandAfterCmdBusyReportsNothing := by
  unfold Obligations.RunningCommandAfterCmdBusyReportsNothing
  refine ⟨fun s t x rest _ hx h => (putReport_onlooker .faultCmdBusy s.res0 s.res1).takeInput hx h,
    fun s raw rest hr hf hc hi => ?_⟩
  have ha : answered (.readAnswer (.byte raw)) { s with inputs := rest } =
      some (sdReadAnswered (.byte raw) { s with inputs := rest }) := by simp only [answered, hr]
  rw [step_of_answered (.inr (.inl ⟨_, rfl⟩)) hi ha, sdReadAnswered_of_inv hc, drive_raiseSd]
  exact congrArg _ (complete_of_faulted _ _ _ hf)

/-- What the block reports: STATUS but for BUSY (10_state.md R30), and the result words (R31). -/
def State.report (s : State) : Bool × StatusCode × Word × Word := (s.faulted, s.code, s.res0, s.res1)

theorem report_readReg (r : BitVec 6) (s : State) : (readReg r s).report = s.report := by
  unfold readReg
  split
  · rfl
  · split <;> rfl

theorem report_hostWriteHb {s t : State} {a : Word} {b : Byte} (h : hostWriteHb a b s = .next t) : t.report = s.report := by
  unfold hostWriteHb at h
  split at h
  · cases h
  · split at h <;> cases h
    rfl

theorem report_hostReadHb {s t : State} {a : Word} (h : hostReadHb a s = .next t) : t.report = s.report := by
  unfold hostReadHb at h
  split at h
  · cases h
  · split at h <;> cases h
    rfl

section
variable {s t : State} (hf : s.faulted = true)
include hf

/-- A faulted block already has the report that a fault with its code and its result words would leave. -/
theorem putReport_of_faulted : putReport s.code s.res0 s.res1 s = s := by
  cases s
  cases hf
  rfl

/-- What puts a report in goes through every input on which a command goes on, so that of a faulted block stays. -/
theorem report_goesOn {i : Input}
    (hi : (∃ a, i = .sinkAnswer a) ∨ (∃ a, i = .readAnswer a) ∨ (∃ a, i = .closeAnswer a) ∨ i = .proceed ∨
      ∃ n, i = .proceedStores n)
    (h : takeInput i s = .next t) : t.report = s.report := by
  have hput := (putReport_onlooker s.code s.res0 s.res1).takeInput hi h
  rw [putReport_of_faulted hf, h] at hput
  injection hput with ht
  rw [ht, State.report, State.report, hf]
  rfl

theorem report_proceed (h : proceed s = .next t) : t.report = s.report := report_goesOn hf (i := .proceed) (by simp) h

theorem report_writeReg {r : BitVec 6} {w : Word} (h : writeReg r w s = .next t) : t.report = s.report := by
  unfold writeReg at h
  split at h
  · cases (cmdWrite_of_faulted w hf).symm.trans h; rfl
  all_goals cases h; rfl

theorem report_arriveSlowly (m : Arrival) : (arriveSlowly m s).report = s.report := by
  unfold arriveSlowly
  cases m with
  | cmdWrite w => exact congrArg _ (cmdWriteSlowly_of_faulted w hf)
  | sinkAnswer a => dsimp only; split <;> rfl
  | readAnswer a => dsimp only; split <;> rfl
  | closeAnswer a => dsimp only; split <;> rfl

/-- Every input but reset keeps the report of a faulted block: a command goes on past it, and the host cannot change it. -/
theorem report_takeInput {i : Input} (hi : i ≠ .reset) (h : takeInput i s = .next t) : t.report = s.report := by
  cases i with
  | reset => exact absurd rfl hi
  | regWrite r w => exact report_writeReg hf h
  | regRead r => cases h; exact report_readReg r s
  | hbWrite a b => exact report_hostWriteHb h
  | hbRead a => exact report_hostReadHb h
  | sinkAnswer a => exact report_goesOn hf (by simp) h
  | readAnswer a => exact report_goesOn hf (by simp) h
  | closeAnswer a => exact report_goesOn hf (by simp) h
  | lateAnswer => cases h; rfl
  | slowly m => cases h; exact report_arriveSlowly hf m
  | proceed => exact report_proceed hf h
  | proceedStores n => exact report_goesOn hf (by simp) h

end

/-- Settles O9: the report of a faulted block through every input but reset, and through a step without one. -/
theorem faultIsStickyUntilReset : Obligations.FaultIsStickyUntilReset := by
  unfold Obligations.FaultIsStickyUntilReset
  intro s t hf hreset h
  have hreport : t.report = s.report := by
    cases hi : s.inputs with
    | nil => exact report_proceed hf ((step_of_no_input hi).symm.trans h)
    | cons i rest =>
      have hne : i ≠ .reset := fun he => hreset rest (by rw [hi, he])
      exact report_takeInput (s := { s with inputs := rest }) hf hne ((step_of_input hi).symm.trans h)
  simp only [State.report, Prod.mk.injEq] at hreport
  rwa [hf] at hreport

end Sys2Proof.Machine
end

section
/-! SUPPORT. The time the block takes (70_reset_and_hazards.md R230): a command that was held and goes on does what it would
have done at once, and SD_READN goes on from the byte it stopped before (44_stream_decoder.md R167). -/

namespace Sys2Proof.Machine

/-! ## A command that was held goes on -/

/-- What waited before a command goes on makes no difference to it. -/
theorem goOn_putRunning (r : Ready) (w : Option Waiting) (s : State) : goOn r (putRunning w s) = goOn r s := by
  have hf := putRunning_bystander w
  cases r with
  | command i => exact exec_putRunning i w s
  | illegal => rfl
  | sink v a => simp only [goOn, hf.seGoesOn, id]
  | read a => simp only [goOn, hf.sdReadGoesOn, id]
  | readN k a => simp only [goOn, hf.latched, hf.sdReadNGoesOn, id]
  | storing k => simp only [goOn, hf.latched, hf.sdReadMany, id]
  | close a => simp only [goOn, hf.sdCloseGoesOn, id]

/-- The time over a held command ends: it goes on in the state it was held in. -/
theorem step_of_hold (r : Ready) {s : State} {rest : List Input} (hi : s.inputs = .proceed :: rest) :
    step (hold r s) = goOn r { s with inputs := rest } :=
  (step_of_proceed (s := hold r s) rfl hi).trans (goOn_putRunning r none { s with inputs := rest })

/-- A CMD write to an idle block, taken over a time: all that changes meanwhile, and what the end of the time does. -/
theorem cmdWrite_over_time {s : State} (w : Word) (rest : List Input) (hf : s.faulted = false) (hb : s.busy = false) :
    ∃ r u, cmdWriteSlowly w { s with inputs := .proceed :: rest } = hold r u ∧
      u = { s with latched := u.latched, busy := true, inputs := .proceed :: rest } ∧
      goOn r { u with inputs := rest } = cmdWrite w { s with inputs := rest } := by
  cases hw : decode w with
  | error e =>
    refine ⟨_, _, cmdWriteSlowly_of_illegal (s := { s with inputs := .proceed :: rest }) hf hb hw, rfl, ?_⟩
    rw [cmdWrite_of_illegal (s := { s with inputs := rest }) hf hb hw]
    rfl
  | ok i =>
    refine ⟨_, _, cmdWriteSlowly_of_command (s := { s with inputs := .proceed :: rest }) hf hb hw, rfl, ?_⟩
    rw [cmdWrite_of_command (s := { s with inputs := rest }) hf hb hw]
    rfl

/-- An answer to the pending request `w`, taken over a time: it is observed, and the end of the time does what the answer
does at once. -/
theorem answer_over_time {m : Arrival} {w : Waiting} (hm : m.atOnce.answers w) :
    ∃ e r, ∀ s : State, s.running = some w → arriveSlowly m s = hold r (observe e s) ∧
      ∃ s', answered m.atOnce s = some s' ∧ goOn r (observe e s) = .next (drive s') := by
  match m, w, hm with
  | .sinkAnswer a, .se v, _ =>
    exact ⟨_, .sink v a, fun s hs => ⟨by simp only [arriveSlowly, hs], seAnswered v a s,
      by simp only [Arrival.atOnce, answered, hs], rfl⟩⟩
  | .readAnswer a, .sd .read, _ =>
    exact ⟨_, .read a, fun s hs => ⟨by simp only [arriveSlowly, hs], sdReadAnswered a s,
      by simp only [Arrival.atOnce, answered, hs], rfl⟩⟩
  | .readAnswer a, .sd (.readN k), _ =>
    exact ⟨_, .readN k a, fun s hs => ⟨by simp only [arriveSlowly, hs], sdReadNAnswered k a s,
      by simp only [Arrival.atOnce, answered, hs], rfl⟩⟩
  | .closeAnswer a, .sd .close, _ =>
    exact ⟨_, .close a, fun s hs => ⟨by simp only [arriveSlowly, hs], sdCloseAnswered a s,
      by simp only [Arrival.atOnce, answered, hs], rfl⟩⟩

/-! ## An SD_READN that stops before a byte -/

/-- Where nothing is an answer, the inputs to come stay. -/
theorem drive_of_not_answered {s : State} (h : ∀ i, answered i s = none) : drive s = s := by
  unfold drive
  cases hi : s.inputs with
  | nil => rw [driveOn, ← hi]
  | cons i is => simp only [driveOn, h i, ← hi]

/-- A ready command takes no answer. -/
theorem drive_hold (r : Ready) (s : State) : drive (hold r s) = hold r s := drive_of_not_answered fun _ => rfl

/-- `part` is the run `whole` of an SD_READN that has stored `k` bytes in `s`, or `n` stores of it, with the rest of it
still to run. -/
def WholeOrStopped (n k : Nat) (s whole part : State) : Prop :=
  (part = whole ∧ NotReady whole) ∨
  ∃ u, part = hold (.storing (k + n)) u ∧ u.inputs = s.inputs ∧
    sdReadMany (u.latched.a1.toNat - (k + n)) (k + n) u = whole

theorem wholeOrStopped_sdReadUpTo (n k : Nat) (s : State) :
    WholeOrStopped n k s (sdReadMany (s.latched.a1.toNat - k) k s) (sdReadUpTo n (s.latched.a1.toNat - k) k s) := by
  rcases sdReadUpTo_cases n (s.latched.a1.toNat - k) k s with ⟨h, -⟩ | ⟨-, u, hu, hl, hi, hm⟩
  · exact .inl ⟨h, notReady_sdReadMany _ k s⟩
  · exact .inr ⟨u, hu, hi, by rw [hl, ← hm, Nat.sub_add_eq]⟩

theorem wholeOrStopped_sdReadNGoesOn (n k : Nat) (a : ReadAnswer) (s : State) :
    WholeOrStopped n k s (sdReadNGoesOn (s.latched.a1.toNat - k) k a s) (sdReadNGoesOn n k a s) := by
  have hwhole := notReady_sdReadNGoesOn k a s
  revert hwhole
  unfold sdReadNGoesOn sdReadNOn
  split
  · exact fun hwhole => .inl ⟨rfl, hwhole⟩
  · exact fun _ => wholeOrStopped_sdReadUpTo n k { s with sd := (sdFillStep s.params a s.sd).2 }
  · exact fun hwhole => .inl ⟨rfl, hwhole⟩
  · exact fun hwhole => .inl ⟨rfl, hwhole⟩

theorem wholeOrStopped_sdReadnBegin (n : Nat) (s : State) :
    WholeOrStopped n 0 s (sdReadnBegin s.latched.a1.toNat s) (sdReadnBegin n s) := by
  unfold sdReadnBegin
  split
  · split
    · exact .inl ⟨rfl, notReady_complete _ _ _ s⟩
    · exact wholeOrStopped_sdReadUpTo n 0 s
  · exact .inl ⟨rfl, by simp [NotReady]⟩

theorem wholeOrStopped_requireOpenSd {n k : Nat} {s whole part : State} (h : WholeOrStopped n k s whole part) :
    WholeOrStopped n k s (requireOpenSd s whole) (requireOpenSd s part) := by
  rcases requireOpenSd_cases s whole with ⟨hb, e⟩ | ⟨hp, e⟩ | ⟨hp, e⟩ | ⟨hp, e⟩
  · rw [e, requireOpenSd_of_bound part hb]
    exact h
  all_goals exact .inl ⟨by simp only [requireOpenSd, hp], by simp [e, NotReady]⟩

/-- A ready SD_READN that is given time for `n` stores does all it does when its time ends, or stops before a byte with the
rest of that still to do. -/
theorem proceedStores_cases {s : State} {r : Ready} {k : Nat} (n : Nat) (hr : s.running = some (.ready r))
    (hk : r.isReadN k) :
    (NotReady (proceedStores n s) ∧ proceed s = .next (proceedStores n s)) ∨
    ∃ u, proceedStores n s = hold (.storing (k + n)) u ∧ u.inputs = s.inputs ∧
      goOn (.storing (k + n)) u = proceed s := by
  rw [proceed_of_isReadN hr hk]
  have hcut : ∃ whole part, WholeOrStopped n k s whole part ∧
      proceedStores (s.latched.a1.toNat - k) s = drive whole ∧ proceedStores n s = drive part := by
    unfold proceedStores
    rw [hr]
    rcases isReadN_cases hk with ⟨rfl, rfl⟩ | ⟨a, rfl⟩ | rfl
    · exact ⟨_, _, wholeOrStopped_requireOpenSd (wholeOrStopped_sdReadnBegin n { s with running := none }), rfl, rfl⟩
    · exact ⟨_, _, wholeOrStopped_sdReadNGoesOn n k a { s with running := none }, rfl, rfl⟩
    · exact ⟨_, _, wholeOrStopped_sdReadUpTo n k { s with running := none },
        congrArg drive (sdReadUpTo_of_enough (Nat.le_refl _) k _), rfl⟩
  obtain ⟨whole, part, ⟨rfl, hwhole⟩ | ⟨u, rfl, hi, rfl⟩, hw, hp⟩ := hcut
  · rw [hp, hw]
    exact .inl ⟨notReady_driveOn _ hwhole, rfl⟩
  · rw [hp, hw, drive_hold]
    exact .inr ⟨u, rfl, hi, rfl⟩

/-- Settles O58: a held command goes on in the state it was held in, and an SD_READN from the byte it stopped before. -/
theorem timeTakenMakesNoDifference : Obligations.TimeTakenMakesNoDifference := by
  unfold Obligations.TimeTakenMakesNoDifference
  refine ⟨fun s w rest hf hb _ => ?_, fun s m rest hm => ?_, fun s t r k n rest hr hk h => ?_⟩
  · obtain ⟨r, u, hhold, hu, hon⟩ := cmdWrite_over_time w rest hf hb
    refine ⟨hold r u, (step_of_cmdWriteSlowly rfl).trans (congrArg _ hhold), ?_, ?_⟩
    · rw [hu]; rfl
    · rw [step_of_hold r (by rw [hu]), hon, step_of_cmdWrite rfl]
  · have ⟨w, hr, hw⟩ := hm
    obtain ⟨e, r, htime⟩ := answer_over_time hw
    refine ⟨_, e, r, congrArg _ (htime { s with inputs := .proceed :: rest } hr).1, rfl, ?_⟩
    obtain ⟨-, s', ha, hon⟩ := htime { s with inputs := rest } hr
    calc step (hold r (observe e { s with inputs := .proceed :: rest }))
      _ = goOn r (observe e { s with inputs := rest }) := step_of_hold r rfl
      _ = .next (drive s') := hon
      _ = step { s with inputs := m.atOnce :: rest } :=
        (step_of_answered (s := { s with inputs := m.atOnce :: rest }) (awaits_cases hm) rfl ha).symm
  · rcases proceedStores_cases (s := { s with inputs := rest }) n hr hk with ⟨hready, hp⟩ | ⟨u, hu, hi, hon⟩
    · cases h
      exact ⟨fun k' hk' => absurd hk' (hready _), fun _ => hp⟩
    · cases (congrArg Host.Outcome.next hu).symm.trans h
      refine ⟨fun k' hk' => ?_, fun hne => absurd rfl (hne (k + n))⟩
      cases hk'
      obtain rfl : u.inputs = rest := hi
      exact ⟨rfl, rfl, (step_of_hold _ (s := { u with inputs := .proceed :: u.inputs }) rfl).trans hon⟩

end Sys2Proof.Machine
end

section
/-! SUPPORT. Reset while a command runs (70_reset_and_hazards.md R220, R226): what it leaves in the port log. -/

namespace Sys2Proof.Machine

theorem step_reset {s : State} {rest : List Input} (hi : s.inputs = .reset :: rest) :
    step s = .next (resetBlock { s with inputs := rest }) := step_of_input hi

/-- The request that the running command waits on, if it waits on one, is all that a reset adds to the log. -/
theorem logAfterReset_of_running {s : State} {w : Waiting} (hr : s.running = some w) :
    logAfterReset s = s.log ++ w.abandoned := by
  rw [logAfterReset, hr]

theorem logAfterReset_of_not_running {s : State} (hr : s.running = none) : logAfterReset s = s.log := by
  rw [logAfterReset, hr]

/-- Settles O11: `resetBlock` field by field, and its log by what runs. -/
theorem resetAbandonsTheRunningCommand : Obligations.ResetAbandonsTheRunningCommand := by
  unfold Obligations.ResetAbandonsTheRunningCommand
  intro s t rest hi h
  cases (step_reset hi).symm.trans h
  have hlog : ∀ w, s.running = some w →
      (resetBlock { s with inputs := rest }).log = s.log ++ w.abandoned :=
    fun w hr => logAfterReset_of_running (s := { s with inputs := rest }) hr
  refine ⟨rfl, ?_, fun w hr => hlog _ hr, ?_, fun hr => hlog _ hr⟩
  · rintro (hr | ⟨r, hr⟩)
    · exact logAfterReset_of_not_running (s := { s with inputs := rest }) hr
    · exact (hlog _ hr).trans (List.append_nil _)
  · rintro (hr | ⟨k, hr⟩)
    · exact hlog _ hr
    · exact hlog _ hr

end Sys2Proof.Machine
end

section
/-! SUPPORT. A command's time is finite (70_reset_and_hazards.md R230): every step either ends the time over the ready
command or leaves it ready with one input less, and a step without an input ends it (log 22). -/

namespace Sys2Proof.Machine

/-! ## Where a command that goes on can stand -/

theorem notReady_of_not_running {s : State} (h : s.running = none) : NotReady s := by simp [NotReady, h]

theorem notReady_takeFault (c : StatusCode) (s : State) : NotReady (takeFault c s) := notReady_of_not_running rfl

theorem notReady_drive {s : State} (h : NotReady s) : NotReady (drive s) := notReady_driveOn s.inputs h

theorem notReady_requireOpenSe (s : State) {body : State} (h : NotReady body) : NotReady (requireOpenSe s body) := by
  rcases requireOpenSe_cases s body with ⟨-, e⟩ | ⟨-, e⟩ | ⟨-, e⟩ | ⟨-, e⟩ <;> rw [e]
  · exact h
  all_goals exact notReady_takeFault _ s

theorem notReady_requireOpenSd (s : State) {body : State} (h : NotReady body) : NotReady (requireOpenSd s body) := by
  rcases requireOpenSd_cases s body with ⟨-, e⟩ | ⟨-, e⟩ | ⟨-, e⟩ | ⟨-, e⟩ <;> rw [e]
  · exact h
  all_goals exact notReady_takeFault _ s

theorem notReady_seWriteOne (b : Byte) (s : State) : NotReady (seWriteOne b s) := by
  unfold seWriteOne
  split
  · exact notReady_seEmitGroup _ _
  · exact notReady_complete _ _ _ _

theorem notReady_seWritenBody (s : State) : NotReady (seWritenBody s) := by
  unfold seWritenBody
  split
  · exact notReady_drive (notReady_seWriteMany _ _ s)
  · exact notReady_takeFault _ s

theorem notReady_seFlushBody (closing : Bool) (s : State) : NotReady (seFlushBody closing s) := by
  unfold seFlushBody
  split
  · exact notReady_ask_se _ s
  · exact notReady_ask_se _ s

theorem notReady_sdReadBody (s : State) : NotReady (sdReadBody s) := by
  unfold sdReadBody
  split
  · exact notReady_complete _ _ _ s
  split
  · exact notReady_drive (notReady_ask_sd _ s)
  · exact notReady_complete _ _ _ _

theorem notReady_sdReadnBody (s : State) : NotReady (sdReadnBody s) := by
  unfold sdReadnBody sdReadnBegin
  refine notReady_drive ?_
  split
  · split
    · exact notReady_complete _ _ _ s
    · exact notReady_sdReadMany _ 0 s
  · exact notReady_takeFault _ s

theorem notReady_sdCloseBody (s : State) : NotReady (sdCloseBody s) := by
  unfold sdCloseBody
  split
  · exact notReady_drive (notReady_ask_sd _ s)
  · exact notReady_complete _ _ _ _

theorem EndFrame.ended {s t : State} (h : EndFrame s t) : t.busy = false ∧ t.running = none :=
  ⟨congrArg State.busy h, congrArg State.running h⟩

/-- A command that makes no port request runs to its end. -/
theorem exec_portless_ends {i : Instr} {s t : State} (hi : portless i) (h : exec i s = .next t) :
    t.busy = false ∧ t.running = none := by
  cases i with
  | encgrp n => exact (group_frame (.inl ⟨n, rfl⟩) h).1.ended
  | decq => exact (group_frame (.inr rfl) h).1.ended
  | benc => exact (benc_frame h).1.ended
  | bdec => exact (bdec_frame h).1.ended
  | openSink =>
    rw [exec, execOpenSink] at h
    split at h <;> cases h <;> simp
  | openSource =>
    rw [exec_openSource] at h
    split at h <;> cases h <;> simp
  | seWrite _ | seWriten | seFlush | seClose | sdRead | sdReadn | sdClose => exact hi.elim

/-- A command runs to its end or to a port request. -/
theorem notReady_exec {i : Instr} {s t : State} (h : exec i s = .next t) : NotReady t := by
  cases i with
  | encgrp _ | decq | benc | bdec | openSink | openSource =>
    exact notReady_of_not_running (exec_portless_ends (by exact trivial) h).2
  | seWrite b => cases h; exact notReady_requireOpenSe s (notReady_drive (notReady_seWriteOne b s))
  | seWriten => cases h; exact notReady_requireOpenSe s (notReady_seWritenBody s)
  | seFlush => cases h; exact notReady_requireOpenSe s (notReady_drive (notReady_seFlushBody false s))
  | seClose => cases h; exact notReady_requireOpenSe s (notReady_drive (notReady_seFlushBody true s))
  | sdRead => cases h; exact notReady_requireOpenSd s (notReady_sdReadBody s)
  | sdReadn => cases h; exact notReady_requireOpenSd s (notReady_sdReadnBody s)
  | sdClose => cases h; exact notReady_requireOpenSd s (notReady_sdCloseBody s)

/-! ## The end of the time -/

/-- The ready command makes no port request: one of the portless commands that has not begun, or an illegal word. -/
def Ready.requestless (r : Ready) : Prop := r = .illegal ∨ ∃ i, r = .command i ∧ portless i

/-- The time over the ready command `r` is over in `t`: it waits on a port or has ended, and has ended where it makes no
port request. -/
def TimeOver (r : Ready) (t : State) : Prop := NotReady t ∧ (r.requestless → t.busy = false ∧ t.running = none)

theorem timeOver_of_ended {r : Ready} {t : State} (hb : t.busy = false) (hr : t.running = none) : TimeOver r t :=
  ⟨notReady_of_not_running hr, fun _ => ⟨hb, hr⟩⟩

/-- A ready command goes on to its end or to a port request. -/
theorem goOn_notReady (r : Ready) (s : State) : ∃ t, goOn r s = .next t ∧ NotReady t := by
  cases r with
  | command i =>
    obtain ⟨t, ht⟩ := everyCommandAnswersNext i s
    exact ⟨t, ht, notReady_exec ht⟩
  | illegal => exact ⟨_, rfl, notReady_takeFault _ s⟩
  | sink w a => exact ⟨_, rfl, notReady_drive (notReady_seGoesOn w a s)⟩
  | read a => exact ⟨_, rfl, notReady_drive (notReady_sdReadGoesOn a s)⟩
  | readN k a => exact ⟨_, rfl, notReady_drive (notReady_sdReadNGoesOn k a s)⟩
  | storing k => exact ⟨_, rfl, notReady_drive (notReady_sdReadMany _ k s)⟩
  | close a => exact ⟨_, rfl, notReady_drive (notReady_sdCloseGoesOn a s)⟩

/-- To its end, where it makes no port request. -/
theorem goOn_requestless_ends {r : Ready} {s t : State} (hr : r.requestless) (h : goOn r s = .next t) :
    t.busy = false ∧ t.running = none := by
  rcases hr with rfl | ⟨i, rfl, hi⟩
  · cases h; exact ⟨rfl, rfl⟩
  · exact exec_portless_ends hi h

theorem proceed_timeOver {r : Ready} {s : State} (hr : s.running = some (.ready r)) :
    ∃ t, proceed s = .next t ∧ TimeOver r t := by
  obtain ⟨t, ht, hready⟩ := goOn_notReady r { s with running := none }
  exact ⟨t, by rw [proceed, hr]; exact ht, hready, fun hq => goOn_requestless_ends hq ht⟩

/-! ## A command that is still ready -/

/-- What an input leaves as it is while a command stays ready: BUSY, what the ranges in use and HB's end depend on, and the
inputs to come. -/
def State.held (s : State) : Bool × Params × Args × List Input := (s.busy, s.params, s.latched, s.inputs)

/-- The command that was ready as `r` in `s` is ready as `r'` in `t`, with the same ranges in use. -/
structure StillReady (r r' : Ready) (s t : State) : Prop where
  running : t.running = some (.ready r')
  held : t.held = s.held
  ranges : ∀ g, r'.ranges g = r.ranges g
  requestless : r.requestless → r'.requestless

/-- It has not gone on: the ready command is the same. -/
theorem StillReady.same {r : Ready} {s t : State} (hr : t.running = some (.ready r)) (h : t.held = s.held) :
    StillReady r r s t := ⟨hr, h, fun _ => rfl, id⟩

theorem held_eq_iff (s t : State) : t.held = s.held ↔
    t.busy = s.busy ∧ t.params = s.params ∧ t.latched = s.latched ∧ t.inputs = s.inputs := by
  simp only [State.held, Prod.mk.injEq]

theorem StillReady.inUse_eq {r r' : Ready} {s t : State} (h : StillReady r r' s t)
    (hr : s.running = some (.ready r)) (a : Nat) : inUse t a = inUse s a := by
  obtain ⟨-, -, hlatched, -⟩ := (held_eq_iff s t).mp h.held
  simp only [inUse, rangesInUse, hr, h.running, hlatched, h.ranges]

/-- SD_READN, run from `s` for some of its stores, waits on the source, has ended, or stands before a byte (R167). -/
def StopsOrStores (s t : State) : Prop :=
  NotReady t ∨ ∃ k, t.running = some (.ready (.storing k)) ∧ t.held = s.held

theorem stopsOrStores_sdReadUpTo (n left k : Nat) (s : State) : StopsOrStores s (sdReadUpTo n left k s) := by
  induction left generalizing n k s with
  | zero => rw [sdReadUpTo_zero]; exact .inl (notReady_complete _ _ _ s)
  | succ left ih =>
    cases n with
    | zero => rw [sdReadUpTo_stop]; exact .inr ⟨k, rfl, rfl⟩
    | succ n =>
      by_cases h1 : s.sd.phase = .exhausted
      · rw [sdReadUpTo_of_exhausted _ _ _ h1]; exact .inl (notReady_sdReadNEos k s)
      by_cases h2 : s.sd.phase = .empty
      · rw [sdReadUpTo_of_empty _ _ _ h2]; exact .inl (notReady_ask_sd _ s)
      · rw [sdReadUpTo_store _ _ _ h1 h2]; exact ih n (k + 1) (sdStore k s)

theorem stopsOrStores_sdReadNGoesOn (n k : Nat) (a : ReadAnswer) (s : State) :
    StopsOrStores s (sdReadNGoesOn n k a s) := by
  unfold sdReadNGoesOn sdReadNOn
  split
  · exact .inl (notReady_ask_sd _ _)
  · exact stopsOrStores_sdReadUpTo n _ k { s with sd := (sdFillStep s.params a s.sd).2 }
  · exact .inl (notReady_sdReadNEos k _)
  · exact .inl (notReady_complete _ _ _ _)

theorem stopsOrStores_sdReadnBegin (n : Nat) (s : State) :
    StopsOrStores s (requireOpenSd s (sdReadnBegin n s)) := by
  rcases requireOpenSd_cases s (sdReadnBegin n s) with ⟨-, e⟩ | ⟨-, e⟩ | ⟨-, e⟩ | ⟨-, e⟩ <;> rw [e]
  · unfold sdReadnBegin
    split
    · split
      · exact .inl (notReady_complete _ _ _ s)
      · exact stopsOrStores_sdReadUpTo n _ 0 s
    · exact .inl (notReady_takeFault _ s)
  all_goals exact .inl (notReady_takeFault _ s)

/-- A ready command takes no answer. -/
theorem answered_of_ready {r : Ready} {s : State} (i : Input) (hr : s.running = some (.ready r)) :
    answered i s = none := by
  unfold answered
  rw [hr]

theorem StopsOrStores.drive {s t : State} (h : StopsOrStores s t) : StopsOrStores s (drive t) := by
  rcases h with h | ⟨k, hr, h⟩
  · exact .inl (notReady_drive h)
  · rw [drive_of_not_answered fun i => answered_of_ready i hr]
    exact .inr ⟨k, hr, h⟩

theorem proceedStores_of_isReadN {r : Ready} {s : State} {k : Nat} (n : Nat) (hr : s.running = some (.ready r))
    (hk : r.isReadN k) : StopsOrStores s (proceedStores n s) := by
  unfold proceedStores
  rw [hr]
  rcases isReadN_cases hk with ⟨rfl, -⟩ | ⟨a, rfl⟩ | rfl
  · exact (stopsOrStores_sdReadnBegin n { s with running := none }).drive
  · exact (stopsOrStores_sdReadNGoesOn n k a { s with running := none }).drive
  · exact (stopsOrStores_sdReadUpTo n _ k { s with running := none }).drive

/-- A time that is measured in stores is nothing to another command. -/
theorem proceedStores_of_not_isReadN {r : Ready} {s : State} (n : Nat) (hr : s.running = some (.ready r))
    (hk : ∀ k, ¬ r.isReadN k) : proceedStores n s = s := by
  unfold proceedStores
  rw [hr]
  split
  · next h => cases h; exact absurd ⟨rfl, rfl⟩ (hk 0)
  · next k _ h => cases h; exact absurd rfl (hk k)
  · next k h => cases h; exact absurd rfl (hk k)
  · rfl

theorem not_requestless_of_isReadN {r : Ready} {k : Nat} (hk : r.isReadN k) : ¬ r.requestless := by
  rcases isReadN_cases hk with ⟨rfl, -⟩ | ⟨a, rfl⟩ | rfl <;> simp [Ready.requestless, portless]

/-- SD_READN names its range wherever it stands (20_memory.md R74). -/
theorem ranges_of_isReadN {r : Ready} {k : Nat} (hk : r.isReadN k) (g : Args) : r.ranges g = [(g.a0, g.a1)] := by
  rcases isReadN_cases hk with ⟨rfl, -⟩ | ⟨a, rfl⟩ | rfl <;> rfl

/-! ## One input -/

section
variable {r : Ready} {s : State} (hr : s.running = some (.ready r))
include hr

theorem proceedStores_of_ready (n : Nat) :
    TimeOver r (proceedStores n s) ∨ ∃ r', StillReady r r' s (proceedStores n s) := by
  by_cases hk : ∃ k, r.isReadN k
  · obtain ⟨k, hk⟩ := hk
    have hq := not_requestless_of_isReadN hk
    rcases proceedStores_of_isReadN n hr hk with h | ⟨j, hrun, hheld⟩
    · exact .inl ⟨h, fun h => absurd h hq⟩
    · exact .inr ⟨.storing j, hrun, hheld, fun g => (ranges_of_isReadN hk g).symm, fun h => absurd h hq⟩
  · rw [proceedStores_of_not_isReadN n hr fun k h => hk ⟨k, h⟩]
    exact .inr ⟨r, .same hr rfl⟩

theorem portAnswer_of_ready (i : Input) : portAnswer i s = s := by
  rw [portAnswer, answered_of_ready i hr]

theorem readReg_of_ready (k : BitVec 6) : StillReady r r s (readReg k s) := by
  unfold readReg
  split
  · exact .same hr rfl
  split <;> exact .same hr rfl

theorem writeReg_of_ready (hb : s.busy = true) (k : BitVec 6) (w : Word) :
    ∃ t, writeReg k w s = .next t ∧ StillReady r r s t := by
  unfold writeReg
  split
  · cases hf : s.faulted with
    | true => exact ⟨s, cmdWrite_of_faulted w hf, .same hr rfl⟩
    | false => exact ⟨_, cmdWrite_of_busy w hf hb, .same hr rfl⟩
  all_goals exact ⟨_, rfl, .same hr rfl⟩

theorem arriveSlowly_of_ready (hb : s.busy = true) (m : Arrival) : StillReady r r s (arriveSlowly m s) := by
  cases m with
  | cmdWrite w =>
    rw [arriveSlowly]
    cases hf : s.faulted with
    | true => rw [cmdWriteSlowly_of_faulted w hf]; exact .same hr rfl
    | false => rw [cmdWriteSlowly_of_busy w hf hb]; exact .same hr rfl
  | sinkAnswer a | readAnswer a | closeAnswer a =>
    rw [arriveSlowly, hr]
    exact .same hr rfl

/-- An input ends the time over the ready command, or leaves it ready; the host's accesses to HB are those it may make. -/
theorem takeInput_of_ready (hb : s.busy = true) {i : Input}
    (hfree : ∀ a, i = .hbRead a ∨ (∃ b, i = .hbWrite a b) → a.toNat < s.params.hbSize ∧ inUse s a.toNat = false) :
    ∃ t, takeInput i s = .next t ∧ (TimeOver r t ∨ ∃ r', StillReady r r' s t) := by
  cases i with
  | reset => exact ⟨_, rfl, .inl (timeOver_of_ended rfl rfl)⟩
  | regWrite k w =>
    obtain ⟨t, ht, h⟩ := writeReg_of_ready hr hb k w
    exact ⟨t, ht, .inr ⟨r, h⟩⟩
  | regRead k => exact ⟨_, rfl, .inr ⟨r, readReg_of_ready hr k⟩⟩
  | hbWrite a b =>
    obtain ⟨ha, hu⟩ := hfree a (.inr ⟨b, rfl⟩)
    exact ⟨_, hostWriteHb_of_free b ha hu, .inr ⟨r, .same hr rfl⟩⟩
  | hbRead a =>
    obtain ⟨ha, hu⟩ := hfree a (.inl rfl)
    exact ⟨_, hostReadHb_of_free ha hu, .inr ⟨r, .same hr rfl⟩⟩
  | sinkAnswer a | readAnswer a | closeAnswer a =>
    exact ⟨s, congrArg _ (portAnswer_of_ready hr _), .inr ⟨r, .same hr rfl⟩⟩
  | lateAnswer => exact ⟨s, rfl, .inr ⟨r, .same hr rfl⟩⟩
  | slowly m => exact ⟨_, rfl, .inr ⟨r, arriveSlowly_of_ready hr hb m⟩⟩
  | proceed =>
    obtain ⟨t, ht, h⟩ := proceed_timeOver hr
    exact ⟨t, ht, .inl h⟩
  | proceedStores n => exact ⟨_, rfl, proceedStores_of_ready hr n⟩

end

/-! ## All inputs -/

theorem runSteps_succ {s t : State} (h : step s = .next t) (n : Nat) : runSteps (n + 1) s = runSteps n t := by
  rw [runSteps, h]

/-- The host's accesses to HB among the inputs `is` are those it may make in `s` (R60, R74). -/
def AccessesFree (s : State) (is : List Input) : Prop :=
  ∀ a, .hbRead a ∈ is ∨ (∃ b, .hbWrite a b ∈ is) → a.toNat < s.params.hbSize ∧ inUse s a.toNat = false

theorem AccessesFree.head {s : State} {i : Input} {is : List Input} (h : AccessesFree s (i :: is)) (a : Word)
    (hi : i = .hbRead a ∨ ∃ b, i = .hbWrite a b) : a.toNat < s.params.hbSize ∧ inUse s a.toNat = false := by
  refine h a ?_
  rcases hi with rfl | ⟨b, rfl⟩
  · exact .inl List.mem_cons_self
  · exact .inr ⟨b, List.mem_cons_self⟩

theorem AccessesFree.tail {s : State} {i : Input} {is : List Input} (h : AccessesFree s (i :: is)) :
    AccessesFree s is :=
  fun a ha => h a (ha.imp (List.mem_cons_of_mem i) (Exists.imp fun _ => List.mem_cons_of_mem i))

/-- The time over a ready command ends within as many steps as inputs stand, and one: by induction on the inputs. -/
theorem timeOver_within_inputs {is : List Input} {r : Ready} {s : State} (hi : s.inputs = is)
    (hr : s.running = some (.ready r)) (hb : s.busy = true) (hfree : AccessesFree s is) :
    ∃ n t, n ≤ is.length + 1 ∧ runSteps n s = .next t ∧ TimeOver r t := by
  induction is generalizing r s with
  | nil =>
    obtain ⟨t, ht, hover⟩ := proceed_timeOver hr
    exact ⟨1, t, Nat.le_refl 1, runSteps_succ ((step_of_no_input hi).trans ht) 0, hover⟩
  | cons i is ih =>
    obtain ⟨t, ht, hover | ⟨r', h⟩⟩ := takeInput_of_ready (s := { s with inputs := is }) hr hb hfree.head
    · exact ⟨1, t, by simp, runSteps_succ ((step_of_input hi).trans ht) 0, hover⟩
    · obtain ⟨hbusy, hparams, -, hinputs⟩ := (held_eq_iff _ _).mp h.held
      have hfree' : AccessesFree t is := fun a ha => by
        rw [hparams, h.inUse_eq (s := { s with inputs := is }) hr]
        exact hfree.tail a ha
      obtain ⟨n, u, hn, hu, hready, hended⟩ := ih hinputs h.running (hbusy.trans hb) hfree'
      exact ⟨n + 1, u, Nat.succ_le_succ hn, (runSteps_succ ((step_of_input hi).trans ht) n).trans hu, hready,
        fun hq => hended (h.requestless hq)⟩

/-- Settles O59: without an input the command proceeds, and each input before that leaves it ready or ends its time. -/
theorem commandsGoOnInFiniteTime : Obligations.CommandsGoOnInFiniteTime := by
  unfold Obligations.CommandsGoOnInFiniteTime
  refine ⟨fun s r _ hi => ?_, fun s r hr hb hfree => timeOver_within_inputs rfl hr hb hfree⟩
  calc step s
    _ = proceed s := step_of_no_input hi
    _ = proceed { s with inputs := [] } := by rw [← hi]
    _ = step { s with inputs := [.proceed] } := (step_of_input (s := { s with inputs := [.proceed] }) rfl).symm

end Sys2Proof.Machine
end
